-- ==== Sys2Proof/Word.lean ====
section
/-! DEFINITION. The words of HBC: bytes, code values, counters, and the 72-bit command and response words
(00_scope.md rules R5, R6; 30_encoding.md rules R60, R63). -/

namespace Sys2Proof

/-- A byte of the bitstream, a symbol (`SYMW` = 8), a status code or an error latch. -/
abbrev Byte := BitVec 8

/-- A code value (`MAXLEN` = 32 bits). -/
abbrev CodeWord := BitVec 32

/-- A stream counter (`CNTW` = 64), an operand field or the data of a response. -/
abbrev Count := BitVec 64

/-- A command word `CMD[71:0]` or a response word `RESP[71:0]`. -/
abbrev Word72 := BitVec 72

end Sys2Proof
end

