-- ==== Sys2Proof/Syntax.lean ====
section
/-! DEFINITION. The ten commands of HBC as syntax, one constructor per row of spec/opcode_table.json
(30_encoding.md rules R61, R62). -/

namespace Sys2Proof

/-- A command with its operands; every operand is an unsigned integer taken as is (30_encoding.md rule R62). -/
inductive Instr where
  /-- `CB.CLEAR` (0x01). -/
  | cbClear
  /-- `CB.LOAD sym len code` (0x02). -/
  | cbLoad (sym : Byte) (len : BitVec 8) (code : CodeWord)
  /-- `ENC.INIT` (0x10). -/
  | encInit
  /-- `ENC.SYM sym` (0x11). -/
  | encSym (sym : Byte)
  /-- `ENC.FLUSH` (0x12). -/
  | encFlush
  /-- `DEC.INIT origlen` (0x20). -/
  | decInit (origLen : Count)
  /-- `DEC.BYTE byte` (0x21). -/
  | decByte (byte : Byte)
  /-- `DEC.END` (0x22). -/
  | decEnd
  /-- `STAT.GET reg` (0x30). -/
  | statGet (reg : BitVec 4)
  /-- `SRESET` (0x3F). -/
  | sreset
deriving DecidableEq, Repr

end Sys2Proof
end

