-- ==== Sys2Proof/WellFormed.lean ====
section
/-! DEFINITION. Which commands are legal words: every operand range is its field's but for `STAT.GET`, whose register number
is 0 to 9 (30_encoding.md rules R62, R65). -/

namespace Sys2Proof

/-- The check of a command's operands (30_encoding.md rule R65 (c): status registers 0 to 9 exist, 10_state.md rule R27); all
other operand values are legal. -/
def Instr.wellFormed : Instr → Bool
  | .cbClear => true
  | .cbLoad _ _ _ => true
  | .encInit => true
  | .encSym _ => true
  | .encFlush => true
  | .decInit _ => true
  | .decByte _ => true
  | .decEnd => true
  | .statGet reg => decide (reg.toNat ≤ 9)
  | .sreset => true

/-- A legal command. -/
abbrev Instr.WellFormed (i : Instr) : Prop := i.wellFormed = true

end Sys2Proof
end

