-- ==== Sys2Proof/Decode.lean ====
section
/-! DEFINITION. The decoder of command words, total on all 2^72 words, refusing by name (30_encoding.md rules R60 to R62, R65),
and the encoder (rule R72). -/

namespace Sys2Proof

/-- Why a command word is illegal (30_encoding.md rule R65); the machine answers each with `E_ILLEGAL_CMD`. -/
inductive IllegalWord where
  /-- (a) `op` is not one of the ten. -/
  | undefinedOpcode (op : Byte)
  /-- (b) a reserved bit of `arg` is 1. -/
  | reservedBits
  /-- (c) `STAT.GET` of a register that does not exist. -/
  | noSuchRegister (reg : BitVec 4)
deriving DecidableEq, Repr

/-- `op` = `CMD[71:64]` (rule R60). -/
def opField (w : Word72) : Byte := w.extractLsb' 64 8

/-- `arg` = `CMD[63:0]` (rule R60). -/
def argField (w : Word72) : Count := w.extractLsb' 0 64

/-- The command `i` if the reserved bits are all 0 (rule R65 (b)). -/
def reservedZero {n : Nat} (reserved : BitVec n) (i : Instr) : Except IllegalWord Instr :=
  if reserved = 0#n then .ok i else .error .reservedBits

/-- The decoder. All 8 bits of `op` are matched; the operand fields are those of rule R62, every other bit of `arg` is
reserved. -/
def decode (w : Word72) : Except IllegalWord Instr :=
  let arg := argField w
  match opField w with
  | 0x01#8 => reservedZero arg .cbClear
  | 0x02#8 =>
    reservedZero (arg.extractLsb' 48 16)
      (.cbLoad (arg.extractLsb' 40 8) (arg.extractLsb' 32 8) (arg.extractLsb' 0 32))
  | 0x10#8 => reservedZero arg .encInit
  | 0x11#8 => reservedZero (arg.extractLsb' 8 56) (.encSym (arg.extractLsb' 0 8))
  | 0x12#8 => reservedZero arg .encFlush
  | 0x20#8 => .ok (.decInit arg)
  | 0x21#8 => reservedZero (arg.extractLsb' 8 56) (.decByte (arg.extractLsb' 0 8))
  | 0x22#8 => reservedZero arg .decEnd
  | 0x30#8 =>
    let reg := arg.extractLsb' 0 4
    if reg.toNat ≤ 9 then reservedZero (arg.extractLsb' 4 60) (.statGet reg) else .error (.noSuchRegister reg)
  | 0x3F#8 => reservedZero arg .sreset
  | op => .error (.undefinedOpcode op)

/-- `CMD` = {`op`, `arg`} (rule R72). -/
def commandWord (op : Byte) (arg : Count) : Word72 := op ++ arg

/-- The encoder: each operand in its field, all other bits 0 (rules R62, R72). -/
def encode : Instr → Word72
  | .cbClear => commandWord 0x01#8 0#64
  | .cbLoad sym len code => commandWord 0x02#8 (0#16 ++ sym ++ len ++ code)
  | .encInit => commandWord 0x10#8 0#64
  | .encSym sym => commandWord 0x11#8 (0#56 ++ sym)
  | .encFlush => commandWord 0x12#8 0#64
  | .decInit origLen => commandWord 0x20#8 origLen
  | .decByte byte => commandWord 0x21#8 (0#56 ++ byte)
  | .decEnd => commandWord 0x22#8 0#64
  | .statGet reg => commandWord 0x30#8 (0#60 ++ reg)
  | .sreset => commandWord 0x3F#8 0#64

/-- The command word whose low `nbits` bits are those of `w` and whose other bits are 0. A command is ONE word of 72 bits,
whose bit 0 is the opcode table's bit 0, so no byte order enters (30_encoding.md rule R60, 20_memory.md rule R47). -/
def tableWord (nbits w : Nat) : Word72 := BitVec.ofNat 72 (w % 2 ^ nbits)

/-- The command the decoder reads from an opcode-table word. -/
def decodeTableWord (nbits w : Nat) : Option Instr :=
  match decode (tableWord nbits w) with
  | .ok i => some i
  | .error _ => none

end Sys2Proof
end

