-- ==== Sys2Proof/Config.lean ====
section
/-! DEFINITION. What an implementation of HBC fixes: the parameters of 00_scope.md rule R5 at this hardware's values, and the
shape of a codebook entry (10_state.md rule R12). The spec draws no free value (10_state.md rule R10), so there is no opaque
constant here. -/

namespace Sys2Proof

/-- A codebook entry: symbol, code length in bits, code value (10_state.md rule R12). The code is the bit string
`code[len-1] … code[0]`. -/
structure Entry where
  sym  : Byte
  len  : BitVec 6
  code : CodeWord
deriving DecidableEq, Repr

/-- `SYMW`, the width of a symbol in bits (rule R5). -/
def Config.symW : Nat := 8

/-- `MAXLEN`, the greatest code length in bits (rule R5, decision D5). -/
def Config.maxLen : Nat := 32

/-- `CB_CAP`, the number of entry slots of the codebook store (rule R5). -/
def Config.cbCap : Nat := 256

/-- `CNTW`, the width of the stream counters (rule R5, decision D15). -/
def Config.cntW : Nat := 64

/-- `CB_RESET_CONTENTS`, what the codebook store holds after reset: the default, none (rule R5, decision D4; DESIGN CHOICE,
unsafe for a variant with a mask-programmed table, log 5). -/
def Config.cbResetContents : List Entry := []

end Sys2Proof
end

