-- ==== Sys2Proof/Machine/State.lean ====
section
/-! DEFINITION. The state of HBC as plain data, unit by unit as 10_state.md rule R10 lists it, with the histories of
20_memory.md rules R42, R43, R55; the names of its errors (60_exceptions.md rule R190); its reset (10_state.md rule R30). -/

namespace Sys2Proof.Machine

/-- Unit CB, the codebook store. `CB_N` is `entries.length` and `CB[i]` is the `i`-th entry, in load order; slots at or above
`CB_N` hold no value (10_state.md rules R11, R13; DESIGN CHOICE, safe, log 4). -/
structure Codebook where
  /-- `CB[0..CB_N-1]`. -/
  entries : List Entry
  /-- `CB_ERR`, 0 or the latched status code of the failed codebook build. -/
  err : Byte
deriving DecidableEq, Repr

/-- Unit W, the writer (10_state.md rules R14 to R18). -/
structure Writer where
  /-- `W_ACTIVE`. -/
  active : Bool
  /-- `W_ERR`. -/
  err : Byte
  /-- `W_ACC`, the pending bits, right-aligned. -/
  acc : BitVec 8
  /-- `W_CNT`, how many bits are pending. -/
  cnt : BitVec 3
  /-- `W_TOTAL`, the meaningful bits appended since `ENC.INIT`. -/
  total : Count
deriving DecidableEq, Repr

/-- Unit R, the reader (10_state.md rules R19 to R23). -/
structure Reader where
  /-- `R_ACTIVE`. -/
  active : Bool
  /-- `R_ERR`. -/
  err : Byte
  /-- `R_ACC`, the bits of the code being assembled, right-aligned. -/
  acc : CodeWord
  /-- `R_CNT`, how many bits `R_ACC` holds. -/
  cnt : BitVec 6
  /-- `R_ORIGLEN`, the number of symbols this decode is to produce. -/
  origLen : Count
  /-- `R_EMITTED`, the number of symbols produced so far. -/
  emitted : Count
  /-- `R_BITS`, the bits folded in since `DEC.INIT`. -/
  bits : Count
deriving DecidableEq, Repr

/-- What HBC's four channels have carried, in order (20_memory.md rule R55). -/
inductive Event where
  /-- The host presented the command word `w`. -/
  | cmd (w : Word72)
  /-- The writer emitted the byte `b` (`EmitByte`, rule R42). -/
  | outByte (b : Byte)
  /-- The reader emitted the symbol `x` (`EmitSym`, rule R43). -/
  | outSym (x : Byte)
  /-- HBC answered with the response word `w` (30_encoding.md rule R63). -/
  | resp (w : Word72)
deriving DecidableEq, Repr

/-- What the host can do to HBC: present a command word, or assert hardware reset (20_memory.md rule R40,
70_reset_and_hazards.md rule R220). The reset lands between commands (DEDUCED, unsafe if it could cut one short, log 6). -/
inductive HostEvent where
  | command (w : Word72)
  | hardwareReset
deriving DecidableEq, Repr

/-- The whole state of HBC, with its output histories and the host's command stream. -/
structure State where
  /-- Unit CB. -/
  cb : Codebook
  /-- Unit W. -/
  w : Writer
  /-- Unit R. -/
  r : Reader
  /-- `FAULT_LOG`: bit k is set when status code k was raised since reset (10_state.md rule R25). -/
  faultLog : BitVec 16
  /-- The event history since hardware reset, oldest first; `BYTE_OUT`, `SYM_OUT` and the responses are its parts (20_memory.md
  rules R42, R43, R55; DESIGN CHOICE, safe, log 3). -/
  history : List Event
  /-- The model's own field: what the host will present, next event first (10_state.md rule R29; DESIGN CHOICE, safe, log 1). -/
  hostIn : List HostEvent
deriving DecidableEq, Repr

/-- The unit whose count overflows, which decides where `E_COUNT_OVERFLOW` latches (60_exceptions.md rule R193). -/
inductive StreamUnit where
  | writer
  | reader
deriving DecidableEq, Repr

/-- The fourteen errors of 60_exceptions.md rule R190. They are statuses a command is answered with, not stops of the machine. -/
inductive Err where
  /-- `E_ILLEGAL_CMD`: an illegal word. -/
  | illegalCmd
  /-- `E_CODE_TOO_LONG`: `CB.LOAD` with `len` > `MAXLEN`. -/
  | codeTooLong
  /-- `E_ZERO_LENGTH`: `CB.LOAD` with `len` = 0. -/
  | zeroLength
  /-- `E_BAD_CODE_VALUE`: `CB.LOAD` with `code` ≥ 2^`len`. -/
  | badCodeValue
  /-- `E_DUP_SYMBOL`: `CB.LOAD` of a symbol that has an entry. -/
  | dupSymbol
  /-- `E_NOT_PREFIX_FREE`: `CB.LOAD` of a code that conflicts with a stored one. -/
  | notPrefixFree
  /-- `E_CB_LOCKED`: a store write while an operation is active. -/
  | cbLocked
  /-- `E_CB_INVALID`: `ENC.INIT` or `DEC.INIT` after a failed codebook build. -/
  | cbInvalid
  /-- `E_NOT_ACTIVE`: a stream command with no operation in progress. -/
  | notActive
  /-- `E_NO_SYMBOL`: `ENC.SYM` of a symbol without an entry. -/
  | noSymbol
  /-- `E_NO_MATCH`: `MAXLEN` bits read and no entry matches. -/
  | noMatch
  /-- `E_TRUNCATED`: `DEC.END` before the original length is reached. -/
  | truncated
  /-- `E_OVERRUN`: `DEC.BYTE` after the original length is reached. -/
  | overrun
  /-- `E_COUNT_OVERFLOW`: the bit count of `unit` would not fit 64 bits. -/
  | countOverflow (unit : StreamUnit)
deriving DecidableEq, Repr

/-- The reasons the machine stops with a fault: none. HBC's step function is total, every command word gets a response
(10_state.md rule R10, 93_implementation_defined.md part 2), so nothing raises one. -/
inductive Fault where
deriving DecidableEq, Repr

/-- The reasons an instruction is refused. -/
inductive Refusal where
  /-- Raised only by an arm of `exec` whose instruction has no meaning yet; safe. No arm raises it: all ten commands are
  modelled. -/
  | notModelled (mnemonic : String)
deriving DecidableEq, Repr

/-- What a step or a meaning answers. -/
abbrev Result := Host.Outcome State Fault Refusal

/-- Unit W after reset (10_state.md rule R30). -/
def Writer.reset : Writer := { active := false, err := 0, acc := 0, cnt := 0, total := 0 }

/-- Unit R after reset (10_state.md rule R30). -/
def Reader.reset : Reader :=
  { active := false, err := 0, acc := 0, cnt := 0, origLen := 0, emitted := 0, bits := 0 }

/-- The machine right after hardware reset (10_state.md rule R30, 70_reset_and_hazards.md rule R221), with no command presented
yet (log 1). -/
def State.reset : State :=
  { cb := { entries := Config.cbResetContents, err := 0 }
    w := Writer.reset
    r := Reader.reset
    faultLog := 0
    history := []
    hostIn := [] }

end Sys2Proof.Machine
end

