-- ==== Sys2Proof/Machine/Flags.lean ====
section
/-! DEFINITION. The status numbers (60_exceptions.md rule R190), the derived flags (10_state.md rule R26), and the views of the
event history. -/

namespace Sys2Proof.Machine

/-- Status code 0x00, `OK`. -/
def statusOk : Byte := 0x00

/-- The number of an error (60_exceptions.md rule R190). -/
def Err.code : Err → Byte
  | .illegalCmd => 0x01
  | .codeTooLong => 0x02
  | .zeroLength => 0x03
  | .badCodeValue => 0x04
  | .dupSymbol => 0x05
  | .notPrefixFree => 0x06
  | .cbLocked => 0x07
  | .cbInvalid => 0x08
  | .notActive => 0x09
  | .noSymbol => 0x0A
  | .noMatch => 0x0B
  | .truncated => 0x0C
  | .overrun => 0x0D
  | .countOverflow _ => 0x0E

/-- `R_DONE`: `R_EMITTED == R_ORIGLEN` (10_state.md rules R23, R26). -/
def Reader.done (r : Reader) : Bool := r.emitted == r.origLen

/-- `CB_LOCKED`: `W_ACTIVE` or `R_ACTIVE` (10_state.md rule R26). -/
def State.cbLocked (s : State) : Bool := s.w.active || s.r.active

/-- `CB_N`, the number of valid entries (10_state.md rule R11). -/
def State.cbN (s : State) : Nat := s.cb.entries.length

/-- The byte of an `OutByte` event. -/
def Event.byte? : Event → Option Byte
  | .outByte b => some b
  | .cmd _ | .outSym _ | .resp _ => none

/-- The symbol of an `OutSym` event. -/
def Event.sym? : Event → Option Byte
  | .outSym x => some x
  | .cmd _ | .outByte _ | .resp _ => none

/-- The word of a `Resp` event. -/
def Event.resp? : Event → Option Word72
  | .resp w => some w
  | .cmd _ | .outByte _ | .outSym _ => none

/-- `BYTE_OUT`: the bytes the writer has emitted since hardware reset, oldest first (20_memory.md rule R42). -/
def State.byteOut (s : State) : List Byte := s.history.filterMap Event.byte?

/-- `SYM_OUT`: the symbols the reader has emitted since hardware reset, oldest first (20_memory.md rule R43). -/
def State.symOut (s : State) : List Byte := s.history.filterMap Event.sym?

/-- The response words HBC has returned since hardware reset, oldest first (30_encoding.md rule R63). -/
def State.responses (s : State) : List Word72 := s.history.filterMap Event.resp?

end Sys2Proof.Machine
end

