-- ==== Sys2Proof/Machine/Operands.lean ====
section
/-! DEFINITION. What commands read: the bits of codes and bytes in stream order (20_memory.md rules R45, R46), the codebook
lookups and the checks of an entry (40_codebook_commands.md rules R91 to R96), the status registers (10_state.md rule R27). -/

namespace Sys2Proof.Machine

/-- The `n` low bits of `v`, most significant first: `v[n-1], …, v[0]` (00_scope.md rule R6, "MSB first"). -/
def bitsMsb {k : Nat} : (n : Nat) → (v : BitVec k) → List Bool
  | 0, _ => []
  | n + 1, v => v.getLsbD n :: bitsMsb n v

/-- The bit string of an entry's code, first bit first (20_memory.md rule R46). -/
def entryBits (e : Entry) : List Bool := bitsMsb e.len.toNat e.code

/-- `ValidEntry(len, code)` (rule R91): 1 ≤ `len` ≤ `MAXLEN` and `code` < 2^`len`, with the mathematical power (rule R99). -/
def validEntry (len : Nat) (code : CodeWord) : Bool :=
  decide (1 ≤ len) && decide (len ≤ Config.maxLen) && decide (code.toNat < 2 ^ len)

/-- `LookupSym(s)` (rule R92): the entry at the index the spec's lookup finds. The spec uses the index `i` only as `CB[i]`, and
no register or response shows it (DEDUCED, safe, log 4). -/
def lookupSym (cb : Codebook) (sym : Byte) : Option Entry :=
  cb.entries.find? fun e => e.sym == sym

/-- `LookupCode(v, n)` (rule R93): the entry whose length AND code value are the key, an exact match. -/
def lookupCode (cb : Codebook) (v : CodeWord) (n : BitVec 6) : Option Entry :=
  cb.entries.find? fun e => e.len == n && e.code == v

/-- `IsPrefix(c1, l1, c2, l2)` (rule R96): the `l1`-bit string `c1` is the first `l1` bits of the `l2`-bit string `c2`. -/
def isPrefix (c1 : CodeWord) (l1 : Nat) (c2 : CodeWord) (l2 : Nat) : Bool :=
  decide (l1 ≤ l2) && (c2 >>> (l2 - l1) == c1)

/-- Two codes conflict when either is a prefix of the other (rule R96). -/
def codesConflict (c1 : CodeWord) (l1 : Nat) (c2 : CodeWord) (l2 : Nat) : Bool :=
  isPrefix c1 l1 c2 l2 || isPrefix c2 l2 c1 l1

/-- Some stored code conflicts with the code (`code`, `len`): the last check of `CB.LOAD` (rule R95). -/
def conflictsWithStore (cb : Codebook) (code : CodeWord) (len : Nat) : Bool :=
  cb.entries.any fun e => codesConflict e.code e.len.toNat code len

/-- `CONFIG`, status register 0 (10_state.md rule R27): reserved, `CNTW`, `CB_CAP`, `SYMW`, `MAXLEN`. -/
def configRegister : Count :=
  0#24 ++ BitVec.ofNat 8 Config.cntW ++ BitVec.ofNat 16 Config.cbCap ++ BitVec.ofNat 8 Config.symW ++
    BitVec.ofNat 8 Config.maxLen

/-- `STATUS`, status register 1 (10_state.md rule R27), from bit 63 down. -/
def statusWord (s : State) : Count :=
  0#32 ++ s.r.err ++ s.w.err ++ s.cb.err ++ 0#4 ++ BitVec.ofBool s.cbLocked ++ BitVec.ofBool s.r.done ++
    BitVec.ofBool s.r.active ++ BitVec.ofBool s.w.active

/-- `StatusRegister(reg)`, the ten read-only registers (10_state.md rule R27); numbers 10 to 15 do not exist and are not read
(43_system_commands.md rule R151). -/
def statusRegister (s : State) (reg : BitVec 4) : Count :=
  match reg with
  | 0#4 => configRegister
  | 1#4 => statusWord s
  | 2#4 => 0#48 ++ s.faultLog
  | 3#4 => 0#55 ++ BitVec.ofNat 9 s.cbN
  | 4#4 => s.w.total
  | 5#4 => 0#53 ++ s.w.cnt ++ s.w.acc
  | 6#4 => s.r.origLen
  | 7#4 => s.r.emitted
  | 8#4 => s.r.bits
  | 9#4 => 0#26 ++ s.r.cnt ++ s.r.acc
  | _ => 0

end Sys2Proof.Machine
end

