-- ==== Sys2Proof/Machine/Ops.lean ====
section
/-! DEFINITION. The named operations of the machine: taking the host's next event, emitting, responding, raising an error (the
one shared exception entry, 60_exceptions.md rule R193), the one-bit steps of writer and reader, the two resets. -/

namespace Sys2Proof.Machine

/-- Append an event to the history (20_memory.md rule R55). -/
def record (e : Event) (s : State) : State := { s with history := s.history ++ [e] }

/-- Take the host's next event off the command stream; none if it presents nothing (10_state.md rule R24: "the next command is
whatever the host presents next"). -/
def takeHostEvent (s : State) : Option (HostEvent × State) :=
  match s.hostIn with
  | [] => none
  | e :: rest => some (e, { s with hostIn := rest })

/-- The host presents the command word `w` before anything else it will present. -/
def presentCommand (w : Word72) (s : State) : State := { s with hostIn := .command w :: s.hostIn }

/-- `EmitByte(b)`: `BYTE_OUT <- BYTE_OUT ++ [b]` (20_memory.md rule R42). -/
def emitByte (b : Byte) (s : State) : State := record (.outByte b) s

/-- `EmitSym(x)`: `SYM_OUT <- SYM_OUT ++ [x]` (20_memory.md rule R43). -/
def emitSym (x : Byte) (s : State) : State := record (.outSym x) s

/-- `{status, data}`, the response word (30_encoding.md rule R63). -/
def responseWord (status : Byte) (data : Count) : Word72 := status ++ data

/-- `respond(status, data)`: end the command with that response (30_encoding.md rule R63). -/
def respond (status : Byte) (data : Count) (s : State) : State := record (.resp (responseWord status data)) s

/-- `FAULT_LOG[code(E)] <- 1` (60_exceptions.md rules R193, R202). -/
def logFault (e : Err) (s : State) : State := { s with faultLog := s.faultLog ||| (1#16 <<< e.code.toNat) }

/-- The latch of an error of a unit's own operation; precondition errors latch nothing (60_exceptions.md rules R190, R193). -/
def latchErr (e : Err) (s : State) : State :=
  match e with
  | .codeTooLong | .zeroLength | .badCodeValue | .dupSymbol | .notPrefixFree =>
    { s with cb := { s.cb with err := e.code } }
  | .noSymbol | .countOverflow .writer => { s with w := { s.w with err := e.code, active := false } }
  | .noMatch | .truncated | .overrun | .countOverflow .reader =>
    { s with r := { s.r with err := e.code, active := false } }
  | .illegalCmd | .cbLocked | .cbInvalid | .notActive => s

/-- `raise E`: log, latch, respond with the code and data 0 (60_exceptions.md rule R193). Nothing is saved and control goes
nowhere: there is no pc, mode or vector. -/
def raiseErr (e : Err) (s : State) : State := respond e.code 0 (latchErr e (logFault e s))

/-- A flag as the data of a response, `zext_64` (30_encoding.md rule R63). -/
def flagData (b : Bool) : Count := (BitVec.ofBool b).setWidth 64

/-- `AppendBit(b)` (41_writer_commands.md rule R111). -/
def appendBit (b : Bool) (s : State) : State :=
  let a : BitVec 8 := (s.w.acc <<< 1) ||| (BitVec.ofBool b).setWidth 8
  if s.w.cnt = 7 then emitByte a { s with w := { s.w with acc := 0, cnt := 0 } }
  else { s with w := { s.w with acc := a, cnt := s.w.cnt + 1 } }

/-- `AppendBit` of each bit in turn (41_writer_commands.md rule R113). -/
def appendBits : List Bool → State → State
  | [], s => s
  | b :: bs, s => appendBits bs (appendBit b s)

/-- The byte a flush emits: pending bits at the top, zeros below (41_writer_commands.md rule R114). -/
def flushByte (w : Writer) : Byte := w.acc <<< (8 - w.cnt.toNat)

/-- Emit the pending bits, if any, as a last byte (41_writer_commands.md rule R114). -/
def flushPending (s : State) : State :=
  if s.w.cnt = 0 then s
  else emitByte (flushByte s.w) { s with w := { s.w with acc := 0, cnt := 0 } }

/-- `FoldBit(b)` (42_reader_commands.md rule R131): the state its lines leave, and the error it raises, if any, which the
command then takes with `raiseErr`. Its `R_CNT` is the 6-bit register (DESIGN CHOICE outside its range 0 to 32, safe, log 7). -/
def foldBit (b : Bool) (s : State) : State × Option Err :=
  if s.r.bits.toNat = 2 ^ 64 - 1 then (s, some (.countOverflow .reader))
  else
    let acc : CodeWord := (s.r.acc <<< 1) ||| (BitVec.ofBool b).setWidth 32
    let cnt := s.r.cnt + 1
    let bits := s.r.bits + 1
    match lookupCode s.cb acc cnt with
    | some e =>
      (emitSym e.sym { s with r := { s.r with acc := 0, cnt := 0, bits := bits, emitted := s.r.emitted + 1 } }, none)
    | none =>
      let s' : State := { s with r := { s.r with acc := acc, cnt := cnt, bits := bits } }
      if cnt.toNat = Config.maxLen then (s', some .noMatch) else (s', none)

/-- The loop of `DEC.BYTE` (42_reader_commands.md rule R133): fold the bits in turn, stop once done, end at the first error. -/
def foldBits : List Bool → State → State × Option Err
  | [], s => (s, none)
  | b :: bs, s =>
    if s.r.done then (s, none)
    else
      match foldBit b s with
      | (s', some e) => (s', some e)
      | (s', none) => foldBits bs s'

/-- A fresh writer, active (41_writer_commands.md rule R112). -/
def freshWriter : Writer := { active := true, err := 0, acc := 0, cnt := 0, total := 0 }

/-- A fresh reader, active, that is to produce `origLen` symbols (42_reader_commands.md rule R132). -/
def freshReader (origLen : Count) : Reader :=
  { active := true, err := 0, acc := 0, cnt := 0, origLen := origLen, emitted := 0, bits := 0 }

/-- Hardware reset: the reset state, the histories starting empty; what the host will present is the host's (10_state.md rule
R30, 70_reset_and_hazards.md rule R221). The event itself is not recorded (DESIGN CHOICE, safe, log 3). -/
def hardwareReset (s : State) : State := { State.reset with hostIn := s.hostIn }

/-- The state part of `SRESET`: the reset state, what was emitted stays emitted (10_state.md rule R30, 43_system_commands.md
rule R152). -/
def softReset (s : State) : State := { State.reset with history := s.history, hostIn := s.hostIn }

/-- An illegal command word: `E_ILLEGAL_CMD`, nothing else (30_encoding.md rule R65). -/
def illegalCommand (s : State) : State := raiseErr .illegalCmd s

end Sys2Proof.Machine
end

