-- ==== Sys2Proof/Machine/Codebook.lean ====
section
/-! DEFINITION. The codebook commands `CB.CLEAR` and `CB.LOAD` (40_codebook_commands.md). -/

namespace Sys2Proof.Machine

/-- `CB.CLEAR` (rule R94). It is not refused by a latched `CB_ERR`. -/
def execCbClear (s : State) : Result :=
  .next <|
    if s.cbLocked then raiseErr .cbLocked s
    else respond statusOk 0 { s with cb := { entries := [], err := 0 } }

/-- `CB.LOAD sym, len, code` (rule R95), its checks in the rule's order. -/
def execCbLoad (sym : Byte) (len : BitVec 8) (code : CodeWord) (s : State) : Result :=
  .next <|
    if s.cb.err ≠ 0 then respond s.cb.err 0 s
    else if s.cbLocked then raiseErr .cbLocked s
    else if len.toNat = 0 then raiseErr .zeroLength s
    else if len.toNat > Config.maxLen then raiseErr .codeTooLong s
    else if code.toNat ≥ 2 ^ len.toNat then raiseErr .badCodeValue s
    else if (lookupSym s.cb sym).isSome then raiseErr .dupSymbol s
    else if conflictsWithStore s.cb code len.toNat then raiseErr .notPrefixFree s
    else
      respond statusOk 0
        { s with cb := { s.cb with entries := s.cb.entries ++ [{ sym := sym, len := len.setWidth 6, code := code }] } }

end Sys2Proof.Machine
end

