-- ==== Sys2Proof/Machine/Reader.lean ====
section
/-! DEFINITION. The reader (bit unpacker) commands `DEC.INIT`, `DEC.BYTE` and `DEC.END` (42_reader_commands.md). -/

namespace Sys2Proof.Machine

/-- `DEC.INIT origlen` (rule R132): a fresh reader, in every reader state. -/
def execDecInit (origLen : Count) (s : State) : Result :=
  .next <|
    if s.cb.err ≠ 0 then raiseErr .cbInvalid s
    else respond statusOk (flagData (origLen == 0)) { s with r := freshReader origLen }

/-- `DEC.BYTE byte` (rule R133): bits 7 down to 0 of the byte; an error in the middle keeps what the earlier bits did. -/
def execDecByte (byte : Byte) (s : State) : Result :=
  .next <|
    if s.r.err ≠ 0 then respond s.r.err 0 s
    else if s.r.active = false then raiseErr .notActive s
    else if s.r.done then raiseErr .overrun s
    else
      match foldBits (bitsMsb 8 byte) s with
      | (s', some e) => raiseErr e s'
      | (s', none) => respond statusOk (flagData s'.r.done) s'

/-- `DEC.END` (rule R134): end the decode, check it is complete, answer `R_BITS`. -/
def execDecEnd (s : State) : Result :=
  .next <|
    if s.r.err ≠ 0 then respond s.r.err 0 s
    else if s.r.active = false then raiseErr .notActive s
    else if s.r.done = false then raiseErr .truncated s
    else respond statusOk s.r.bits { s with r := { s.r with active := false } }

end Sys2Proof.Machine
end

