-- ==== Sys2Proof/Machine/System.lean ====
section
/-! DEFINITION. The system commands `STAT.GET` and `SRESET` (43_system_commands.md). -/

namespace Sys2Proof.Machine

/-- `STAT.GET reg` (rule R151): legal in every state. The decoder refuses registers 10 to 15; given one, the command is the
illegal word it stands for (30_encoding.md rule R65; DEDUCED, safe, log 10). -/
def execStatGet (reg : BitVec 4) (s : State) : Result :=
  .next <|
    if reg.toNat ≤ 9 then respond statusOk (statusRegister s reg) s
    else illegalCommand s

/-- `SRESET` (rule R152): never refused. -/
def execSreset (s : State) : Result := .next (respond statusOk 0 (softReset s))

end Sys2Proof.Machine
end

