-- ==== Sys2Proof/Machine/Writer.lean ====
section
/-! DEFINITION. The writer (bit packer) commands `ENC.INIT`, `ENC.SYM` and `ENC.FLUSH` (41_writer_commands.md). -/

namespace Sys2Proof.Machine

/-- `ENC.INIT` (rule R112): a fresh writer, in every writer state. -/
def execEncInit (s : State) : Result :=
  .next <|
    if s.cb.err ≠ 0 then raiseErr .cbInvalid s
    else respond statusOk 0 { s with w := freshWriter }

/-- The success path of `ENC.SYM` (rule R113): append the code's bits, most significant first, then count them. -/
def appendCode (e : Entry) (s : State) : State :=
  let s' := appendBits (entryBits e) s
  { s' with w := { s'.w with total := s.w.total + e.len.setWidth 64 } }

/-- `ENC.SYM sym` (rule R113). The count check is on the unbounded sum (40_codebook_commands.md rule R99). -/
def execEncSym (sym : Byte) (s : State) : Result :=
  .next <|
    if s.w.err ≠ 0 then respond s.w.err 0 s
    else if s.w.active = false then raiseErr .notActive s
    else
      match lookupSym s.cb sym with
      | none => raiseErr .noSymbol s
      | some e =>
        if s.w.total.toNat + e.len.toNat > 2 ^ 64 - 1 then raiseErr (.countOverflow .writer) s
        else respond statusOk 0 (appendCode e s)

/-- `ENC.FLUSH` (rule R114): emit a partial byte if there is one, end the encode, answer `W_TOTAL`. -/
def execEncFlush (s : State) : Result :=
  .next <|
    if s.w.err ≠ 0 then respond s.w.err 0 s
    else if s.w.active = false then raiseErr .notActive s
    else
      let s' := flushPending s
      respond statusOk s.w.total { s' with w := { s'.w with active := false } }

end Sys2Proof.Machine
end

