-- ==== Sys2Proof/Machine/Dispatch.lean ====
section
/-! DEFINITION. The dispatch of a decoded command to its meaning, one arm per command. -/

namespace Sys2Proof.Machine

def exec (i : Instr) (s : State) : Host.Outcome State Fault Refusal :=
  match i with
  | .cbClear => Sys2Proof.Machine.execCbClear s
  | .cbLoad sym len code => Sys2Proof.Machine.execCbLoad sym len code s
  | .encInit => Sys2Proof.Machine.execEncInit s
  | .encSym sym => Sys2Proof.Machine.execEncSym sym s
  | .encFlush => Sys2Proof.Machine.execEncFlush s
  | .decInit origLen => Sys2Proof.Machine.execDecInit origLen s
  | .decByte byte => Sys2Proof.Machine.execDecByte byte s
  | .decEnd => Sys2Proof.Machine.execDecEnd s
  | .statGet reg => Sys2Proof.Machine.execStatGet reg s
  | .sreset => Sys2Proof.Machine.execSreset s

end Sys2Proof.Machine
end

