-- ==== Sys2Proof/Machine/Step.lean ====
section
/-! DEFINITION. One step of the machine: the host's next event, to completion (10_state.md rule R10, 20_memory.md rule R52).
There is no time in it (DEDUCED, safe, log 8). -/

namespace Sys2Proof.Machine

/-- One presented command: record it, then run it, or answer `E_ILLEGAL_CMD` before any other check (30_encoding.md rule R65,
60_exceptions.md rule R195). -/
def runCommand (w : Word72) (s : State) : Host.Outcome State Fault Refusal :=
  match decode w with
  | .ok i => exec i (record (.cmd w) s)
  | .error _ => .next (illegalCommand (record (.cmd w) s))

/-- The step. With nothing presented HBC waits and nothing changes (70_reset_and_hazards.md rule R221; DEDUCED, safe, log 2). -/
def step (s : State) : Host.Outcome State Fault Refusal :=
  match takeHostEvent s with
  | none => .next s
  | some (.hardwareReset, s') => .next (hardwareReset s')
  | some (.command w, s') => runCommand w s'

/-- `s` with an opcode-table word presented as the very next command (DEDUCED, safe, log 11). -/
def State.withFetchWord (s : State) (nbits w : Nat) : State := presentCommand (tableWord nbits w) s

end Sys2Proof.Machine
end

