-- ==== Sys2Proof/Safety.lean ====
section
/-! DEFINITION. The terms claims use: the legal words, the invariant of every reachable state, the bitstream of a message, runs
of presented commands, and the life cycle of the units. -/

namespace Sys2Proof

/-- A row of spec/opcode_table.json: the word's fixed bits. -/
structure OpcodeRow where
  mnemonic : String
  mask     : Word72
  value    : Word72
deriving DecidableEq, Repr

/-- spec/opcode_table.json, row by row, its `mask` and `match` as they stand there. -/
def opcodeTable : List OpcodeRow :=
  [ ⟨"CB.CLEAR",  0xFFFFFFFFFFFFFFFFFF, 0x010000000000000000⟩,
    ⟨"CB.LOAD",   0xFFFFFF000000000000, 0x020000000000000000⟩,
    ⟨"ENC.INIT",  0xFFFFFFFFFFFFFFFFFF, 0x100000000000000000⟩,
    ⟨"ENC.SYM",   0xFFFFFFFFFFFFFFFF00, 0x110000000000000000⟩,
    ⟨"ENC.FLUSH", 0xFFFFFFFFFFFFFFFFFF, 0x120000000000000000⟩,
    ⟨"DEC.INIT",  0xFF0000000000000000, 0x200000000000000000⟩,
    ⟨"DEC.BYTE",  0xFFFFFFFFFFFFFFFF00, 0x210000000000000000⟩,
    ⟨"DEC.END",   0xFFFFFFFFFFFFFFFFFF, 0x220000000000000000⟩,
    ⟨"STAT.GET",  0xFFFFFFFFFFFFFFFFF0, 0x300000000000000000⟩,
    ⟨"SRESET",    0xFFFFFFFFFFFFFFFFFF, 0x3F0000000000000000⟩ ]

/-- `w` has the fixed bits of `row`. -/
def OpcodeRow.fits (row : OpcodeRow) (w : Word72) : Bool := (w &&& row.mask) == row.value

/-- A legal word (30_encoding.md rule R65): it fits a row of the opcode table, and if that is the row of `STAT.GET` its register
number, bits 3 to 0, is at most 9 (the table's constraint on `reg`). -/
def legalWord (w : Word72) : Bool :=
  opcodeTable.any fun row =>
    row.fits w && (row.mnemonic != "STAT.GET" || decide ((w &&& 0xF).toNat ≤ 9))

namespace Machine

/-- The invariant of every state between commands: 10_state.md rules R31 to R34 with the ranges of rules R13, R15, R20, R25 and
the log of every latch (60_exceptions.md rule R202). -/
structure State.Inv (s : State) : Prop where
  /-- R33: every stored entry is valid. -/
  entriesValid : ∀ e ∈ s.cb.entries, validEntry e.len.toNat e.code = true
  /-- R33: no two stored entries share a symbol. -/
  symsDistinct : s.cb.entries.Pairwise fun a b => a.sym ≠ b.sym
  /-- R33: no stored code is a prefix of another. -/
  prefixFree : s.cb.entries.Pairwise fun a b => codesConflict a.code a.len.toNat b.code b.len.toNat = false
  /-- R13: `CB_ERR` is 0 or one of 0x02 to 0x06. -/
  cbErrRange : s.cb.err = 0 ∨ (2 ≤ s.cb.err.toNat ∧ s.cb.err.toNat ≤ 6)
  /-- R15: `W_ERR` is 0, `E_NO_SYMBOL` or `E_COUNT_OVERFLOW`. -/
  wErrRange : s.w.err = 0 ∨ s.w.err = 0x0A ∨ s.w.err = 0x0E
  /-- R20: `R_ERR` is 0, `E_NO_MATCH`, `E_TRUNCATED`, `E_OVERRUN` or `E_COUNT_OVERFLOW`. -/
  rErrRange : s.r.err = 0 ∨ (0x0B ≤ s.r.err.toNat ∧ s.r.err.toNat ≤ 0x0E)
  /-- R31: the writer's accumulator holds only its pending bits. -/
  wAccFits : s.w.acc.toNat < 2 ^ s.w.cnt.toNat
  /-- R31: an active writer's pending bits are those past the last whole byte. -/
  wCntIsTotal : s.w.active = true → s.w.cnt.toNat = s.w.total.toNat % 8
  /-- R32: the reader's accumulator holds only its folded bits. -/
  rAccFits : s.r.acc.toNat < 2 ^ s.r.cnt.toNat
  /-- R32: no more symbols than the original length. -/
  rEmittedLe : s.r.emitted.toNat ≤ s.r.origLen.toNat
  /-- R32: at most `MAXLEN` bits are held. -/
  rCntLe : s.r.cnt.toNat ≤ Config.maxLen
  /-- R32: `MAXLEN` bits only after `E_NO_MATCH`. -/
  rCntFull : s.r.cnt.toNat = Config.maxLen → s.r.err = 0x0B
  /-- R32: a reader that is done, and has no error but perhaps `E_OVERRUN`, holds no bit. -/
  rDoneEmpty : s.r.done = true → s.r.err = 0 ∨ s.r.err = 0x0D → s.r.cnt = 0 ∧ s.r.acc = 0
  /-- R32: the held bits are among the folded ones. -/
  rCntLeBits : s.r.cnt.toNat ≤ s.r.bits.toNat
  /-- R131: while a decode is active no stored code is a prefix of the held bits; it would have been matched. -/
  rHeldUnmatched : s.r.active = true → ∀ e ∈ s.cb.entries, ¬ entryBits e <+: bitsMsb s.r.cnt.toNat s.r.acc
  /-- R34: a failed encode is not active. -/
  wLatchIdle : s.w.err ≠ 0 → s.w.active = false
  /-- R34: a failed decode is not active. -/
  rLatchIdle : s.r.err ≠ 0 → s.r.active = false
  /-- R34: a failed codebook build leaves the store unlocked. -/
  cbLatchUnlocked : s.cb.err ≠ 0 → s.cbLocked = false
  /-- R25: bits 0 and 15 of `FAULT_LOG` are 0. -/
  logReserved : s.faultLog.getLsbD 0 = false ∧ s.faultLog.getLsbD 15 = false
  /-- R202: a latched code was raised, so its bit of `FAULT_LOG` is set. -/
  latchesLogged : (s.cb.err ≠ 0 → s.faultLog.getLsbD s.cb.err.toNat = true) ∧
    (s.w.err ≠ 0 → s.faultLog.getLsbD s.w.err.toNat = true) ∧
    (s.r.err ≠ 0 → s.faultLog.getLsbD s.r.err.toNat = true)

/-- Bit k of a stream of bits, 0 past its end (30_encoding.md rule R66). -/
def streamBit (bits : List Bool) (k : Nat) : Nat := (bits.getD k false).toNat

/-- `byte(j) = sum over i in 0..7 of bit(8*j + i) << (7 - i)` (30_encoding.md rule R66). -/
def streamByte (bits : List Bool) (j : Nat) : Byte :=
  BitVec.ofNat 8 ((List.range 8).map fun i => streamBit bits (8 * j + i) <<< (7 - i)).sum

/-- The bitstream of L meaningful bits: its ⌈L/8⌉ bytes (30_encoding.md rules R66, R67). -/
def bitstream (bits : List Bool) : List Byte := (List.range ((bits.length + 7) / 8)).map (streamByte bits)

/-- The meaningful bits of a message: the codes of its symbols, in message order (30_encoding.md rule R66). A symbol without an
entry contributes nothing; claims exclude it. -/
def messageBits (cb : Codebook) (m : List Byte) : List Bool :=
  m.flatMap fun x =>
    match lookupSym cb x with
    | some e => entryBits e
    | none => []

/-- The bits of a byte sequence in stream order (20_memory.md rule R45). -/
def byteBits (bytes : List Byte) : List Bool := bytes.flatMap fun b => bitsMsb 8 b

/-- The number a bit string spells, first bit most significant (00_scope.md rule R6). -/
def bitsValue (bits : List Bool) : Nat := bits.foldl (fun v b => 2 * v + b.toNat) 0

/-- Every register of the block at the reset value 10_state.md rule R30 tabulates, with the default `CB_RESET_CONTENTS`. -/
def AtResetValues (s : State) : Prop :=
  s.cb.entries = [] ∧ s.cb.err = 0 ∧
  s.w.active = false ∧ s.w.err = 0 ∧ s.w.acc = 0 ∧ s.w.cnt = 0 ∧ s.w.total = 0 ∧
  s.r.active = false ∧ s.r.err = 0 ∧ s.r.acc = 0 ∧ s.r.cnt = 0 ∧ s.r.origLen = 0 ∧ s.r.emitted = 0 ∧ s.r.bits = 0 ∧
  s.faultLog = 0 ∧ s.r.done = true ∧ s.cbLocked = false

/-- The host will present the commands `is`, in order, before anything else. -/
def presentAll (is : List Instr) (s : State) : State :=
  { s with hostIn := is.map (fun i => HostEvent.command (encode i)) ++ s.hostIn }

/-- What the machine answers to the commands `is`, presented as words and run one step each. -/
def runCommands (is : List Instr) (s : State) : Result := Host.Core.run core is.length (presentAll is s)

/-- The state of a unit in its life cycle (10_state.md rule R35). -/
inductive Phase where
  | idle
  | active
  | failed
deriving DecidableEq, Repr

/-- Unit W's phase (10_state.md rule R35): failed with a latch, else active or idle. -/
def Writer.phase (w : Writer) : Phase :=
  if w.err ≠ 0 then .failed else if w.active then .active else .idle

/-- Unit R's phase (10_state.md rule R35). -/
def Reader.phase (r : Reader) : Phase :=
  if r.err ≠ 0 then .failed else if r.active then .active else .idle

/-- The state of the codebook store in its life cycle (10_state.md rule R35). -/
inductive StorePhase where
  | building
  | failed
  | locked
deriving DecidableEq, Repr

/-- Unit CB's phase (10_state.md rule R35): locked while an operation is active, else failed with a latch, else building. -/
def State.storePhase (s : State) : StorePhase :=
  if s.cbLocked then .locked else if s.cb.err ≠ 0 then .failed else .building

/-- What a reader of the event history knows of the running encode (10_state.md rule R31). -/
structure ByteCount where
  /-- The word of the last command. -/
  lastCmd : Word72
  /-- The bytes emitted since the last successful `ENC.INIT`. -/
  bytes : Nat
deriving DecidableEq, Repr

/-- One event's effect on the count: a byte counts, an `OK` answer to `ENC.INIT` starts the count anew. -/
def ByteCount.next (c : ByteCount) : Event → ByteCount
  | .cmd w => { c with lastCmd := w }
  | .outByte _ => { c with bytes := c.bytes + 1 }
  | .outSym _ => c
  | .resp w =>
    if c.lastCmd = encode .encInit ∧ w = responseWord statusOk 0 then { c with bytes := 0 } else c

/-- The bytes emitted since the last successful `ENC.INIT`, read off the history (10_state.md rule R31). -/
def bytesSinceInit (h : List Event) : Nat := (h.foldl ByteCount.next { lastCmd := 0, bytes := 0 }).bytes

end Machine

end Sys2Proof
end

