-- ==== Sys2Proof/HostEnv.lean ====
section
/-! DEFINITION. The host's side that claims and tests use: the derivation of a codebook and the driving procedures
(47_host_environment.md rules R161 to R168, R178, R179). Obligations of the host, no behaviour of the block (00_scope.md rule R4). -/

namespace Sys2Proof.HostEnv

/-- The document's TreeNode (rule R161). -/
inductive HTree where
  | leaf (sym : Byte) (freq : Nat)
  | node (left right : HTree)
deriving DecidableEq, Repr

/-- A node's frequency, the sum of its leaves' (rule R161). -/
def HTree.freq : HTree → Nat
  | .leaf _ f => f
  | .node l r => l.freq + r.freq

/-- The symbols of a tree's leaves, left to right. -/
def HTree.syms : HTree → List Byte
  | .leaf x _ => [x]
  | .node l r => l.syms ++ r.syms

/-- The greatest number of branches from the root to a leaf. -/
def HTree.depth : HTree → Nat
  | .leaf _ _ => 0
  | .node l r => max l.depth r.depth + 1

/-- A codebook entry as the host holds it: symbol, code length, code value. -/
structure HostEntry where
  sym  : Byte
  len  : Nat
  code : Nat
deriving DecidableEq, Repr

/-- The depth-first traversal from a node reached with `len` bits of value `code`, left child first (rule R167). -/
def HTree.traverse : HTree → (len code : Nat) → List HostEntry
  | .leaf x _, len, code => [⟨x, len, code⟩]
  | .node l r, len, code => l.traverse (len + 1) (code <<< 1) ++ r.traverse (len + 1) ((code <<< 1) ||| 1)

/-- The codebook of a tree: the traversal from the root, but for a lone leaf (code 0, length 1) (rules R166, R167). -/
def HTree.codebook : HTree → List HostEntry
  | .leaf x _ => [⟨x, 1, 0⟩]
  | .node l r => (HTree.node l r).traverse 0 0

/-- The frequency table in ascending order of symbol (rule R162, decision D26; DESIGN CHOICE, safe, log 9). -/
def frequencies (m : List Byte) : List (Byte × Nat) :=
  (List.range 256).filterMap fun v =>
    if m.count (BitVec.ofNat 8 v) = 0 then none else some (BitVec.ofNat 8 v, m.count (BitVec.ofNat 8 v))

/-- Insert a node after every node whose frequency is at most its own (rule R164). -/
def insertNode (t : HTree) : List HTree → List HTree
  | [] => [t]
  | u :: us => if u.freq ≤ t.freq then u :: insertNode t us else t :: u :: us

/-- Merge the two first nodes until one is left, at most `fuel` times (rules R163, R164). -/
def mergeNodes : (fuel : Nat) → List HTree → Option HTree
  | fuel + 1, a :: b :: rest => mergeNodes fuel (insertNode (.node a b) rest)
  | _, [t] => some t
  | _, _ => none

/-- The Huffman tree of a message; none for the empty message (rules R162 to R165). -/
def huffmanTree (m : List Byte) : Option HTree :=
  let leaves := (frequencies m).foldl (fun ts p => insertNode (.leaf p.1 p.2) ts) []
  mergeNodes leaves.length leaves

/-- The host presents an entry to `CB.LOAD` (rules R168, R172). -/
def loadCommand (e : HostEntry) : Instr := .cbLoad e.sym (BitVec.ofNat 8 e.len) (BitVec.ofNat 32 e.code)

/-- The entry the store holds after the load. -/
def storedEntry (e : HostEntry) : Entry := ⟨e.sym, BitVec.ofNat 6 e.len, BitVec.ofNat 32 e.code⟩

/-- Steps 2 and 3 of the driving procedures: build a codebook (rules R178, R179). -/
def buildCommands (es : List HostEntry) : List Instr := .cbClear :: es.map loadCommand

/-- Steps 4 to 6 of the encode procedure (rule R178). -/
def encodeCommands (m : List Byte) : List Instr := .encInit :: (m.map .encSym ++ [.encFlush])

/-- Steps 4 to 6 of the decode procedure for a stream of known length (rule R179). -/
def decodeCommands (origLen : Nat) (bytes : List Byte) : List Instr :=
  .decInit (BitVec.ofNat 64 origLen) :: (bytes.map .decByte ++ [.decEnd])

end Sys2Proof.HostEnv
end

