-- ==== Sys2Proof/Certificates/Slice0/Obligations.lean ====
section
/-! DEFINITION. The statements for the provers. Each docstring names the rules of spec/ it formalises. -/

open Sys2Proof Sys2Proof.Machine Sys2Proof.HostEnv

/-! ## Encoding and decoding (30_encoding.md) -/

/-- Rules R60 to R62, R72: the decoder reads back every legal command, every operand at every value. -/
def Obligations.DecodeEncodeRoundTrip : Prop :=
  ∀ i : Instr, i.WellFormed → decode (encode i) = .ok i

/-- Rules R60 to R62, R65: a word the decoder accepts is the encoding of the legal command it reads, so no bit of a word is
dropped and no word has two meanings. -/
def Obligations.DecodedWordIsTheEncoding : Prop :=
  ∀ (w : Word72) (i : Instr), decode w = .ok i → i.WellFormed ∧ encode i = w

/-- Rule R65 with R61, R62 (the opcode table's masks): a legal word is run as the command it encodes; any other word, in any
state, is answered `{0x01, 0}`, sets bit 1 of `FAULT_LOG` and changes nothing else. -/
def Obligations.IllegalWordAnswered : Prop :=
  ∀ (s : State) (w : Word72) (rest : List HostEvent), s.hostIn = .command w :: rest →
    (legalWord w = true → ∃ i : Instr, i.WellFormed ∧ encode i = w ∧
      step s = exec i { s with hostIn := rest, history := s.history ++ [.cmd w] }) ∧
    (legalWord w = false →
      step s = .next { s with
        hostIn := rest
        faultLog := s.faultLog ||| 0x0002#16
        history := s.history ++ [.cmd w, .resp (0x01#8 ++ 0#64)] })

/-- Rules R61, R62, R72: words written out from the spec (rule R72 and vector V24 of 95_test_vectors.md). -/
def Obligations.SpecWordsDecode : Prop :=
  decode 0x010000000000000000 = .ok .cbClear ∧
  decode 0x020000410200000003 = .ok (.cbLoad 0x41 2 0b11) ∧
  decode 0x020000FFFFFFFFFFFF = .ok (.cbLoad 0xFF 0xFF 0xFFFFFFFF) ∧
  decode 0x110000000000000041 = .ok (.encSym 0x41) ∧
  decode 0x20000000000000000B = .ok (.decInit 11) ∧
  decode 0x20FFFFFFFFFFFFFFFF = .ok (.decInit 0xFFFFFFFFFFFFFFFF) ∧
  decode 0x2100000000000000FF = .ok (.decByte 0xFF) ∧
  decode 0x300000000000000009 = .ok (.statGet 9) ∧
  decode 0x30000000000000000A = .error (.noSuchRegister 10) ∧
  decode 0x3F0000000000000000 = .ok .sreset

/-! ## The step (10_state.md, 20_memory.md) -/

/-- Rules R10, R52, R55: when the presented word decodes to `i`, the step is `exec i` on the state with that word taken and
recorded as presented; with nothing presented HBC waits (rule R221; the model's reading, log 2). -/
def Obligations.StepRunsPresentedCommand : Prop :=
  (∀ (s : State) (w : Word72) (rest : List HostEvent) (i : Instr), s.hostIn = .command w :: rest → decode w = .ok i →
    step s = exec i { s with hostIn := rest, history := s.history ++ [.cmd w] }) ∧
  (∀ s : State, s.hostIn = [] → step s = .next s)

/-- Rule R10: the step is total; every host event and every command is answered by a next state, never by a fault or a
refusal. -/
def Obligations.EveryCommandIsAnswered : Prop :=
  (∀ s : State, ∃ t, step s = .next t) ∧ (∀ (i : Instr) (s : State), ∃ t, exec i s = .next t)

/-- Rules R49, R55, R63: a command adds to the history its items and then exactly one response, and takes nothing off the
command stream; `ENC.SYM` emits 0 to 4 bytes, `ENC.FLUSH` at most 1, `DEC.BYTE` 0 to 8 symbols, no other command any item. -/
def Obligations.EmissionsPerCommand : Prop :=
  ∀ (i : Instr) (s t : State), s.Inv → exec i s = .next t →
    t.hostIn = s.hostIn ∧
    ∃ (items : List Event) (w : Word72), t.history = s.history ++ items ++ [.resp w] ∧
      match i with
      | .encSym _ => ∃ bytes : List Byte, items = bytes.map .outByte ∧ bytes.length ≤ 4
      | .encFlush => ∃ bytes : List Byte, items = bytes.map .outByte ∧ bytes.length ≤ 1
      | .decByte _ => ∃ syms : List Byte, items = syms.map .outSym ∧ syms.length ≤ 8
      | .cbClear | .cbLoad _ _ _ | .encInit | .decInit _ | .decEnd | .statGet _ | .sreset => items = []

/-! ## Reset (10_state.md, 70_reset_and_hazards.md) -/

/-- Rule R30: the values of the reset state, with `BYTE_OUT` and `SYM_OUT` empty. -/
def Obligations.ResetStateValues : Prop :=
  AtResetValues State.reset ∧ State.reset.byteOut = [] ∧ State.reset.symOut = []

/-- Rules R152, R220, R221: hardware reset, in any state, leaves the reset values and empty histories; `SRESET` is never
refused, leaves the reset values, answers `{OK, 0}` and keeps what was emitted. -/
def Obligations.BothResetsLeaveResetValues : Prop :=
  (∀ (s : State) (rest : List HostEvent), s.hostIn = .hardwareReset :: rest →
    ∃ t, step s = .next t ∧ AtResetValues t ∧ t.byteOut = [] ∧ t.symOut = [] ∧ t.responses = [] ∧ t.hostIn = rest) ∧
  (∀ s : State, ∃ t, exec .sreset s = .next t ∧ AtResetValues t ∧ t.byteOut = s.byteOut ∧ t.symOut = s.symOut ∧
    t.history = s.history ++ [.resp 0] ∧ t.hostIn = s.hostIn)

/-! ## The codebook store (40_codebook_commands.md) -/

/-- Rule R94: `CB.CLEAR` is the word 0x01 with `arg` 0; it empties the store and clears `CB_ERR`, latched or not, unless an
operation is active; then it raises `E_CB_LOCKED`, which latches nothing. -/
def Obligations.CbClearEmptiesOrIsLocked : Prop :=
  decode 0x010000000000000000 = .ok .cbClear ∧
  ∀ s : State,
    (s.w.active = false → s.r.active = false →
      exec .cbClear s = .next { s with cb := { entries := [], err := 0 }, history := s.history ++ [.resp 0] }) ∧
    (s.w.active = true ∨ s.r.active = true →
      exec .cbClear s = .next { s with
        faultLog := s.faultLog ||| 0x0080#16
        history := s.history ++ [.resp (0x07#8 ++ 0#64)] })

/-- Rule R95: `CB.LOAD` has its operands at `arg[47:40]`, `arg[39:32]` and `arg[31:0]`; it answers the first failing check in
the rule's order, and otherwise appends the entry. A code conflicts with a stored one when one of the two bit strings begins
with the other (rule R96). The invariant gives the stored entries their legal lengths. -/
def Obligations.CbLoadChecksThenAppends : Prop :=
  (∀ (sym : Byte) (len : BitVec 8) (code : CodeWord),
    decode (0x02#8 ++ (0#16 ++ sym ++ len ++ code)) = .ok (.cbLoad sym len code)) ∧
  ∀ (s : State) (sym : Byte) (len : BitVec 8) (code : CodeWord), s.Inv →
    let bits := bitsMsb len.toNat code
    let answer := exec (.cbLoad sym len code) s
    let raises (c : Byte) (logBit : BitVec 16) : Prop :=
      answer = .next { s with
        cb := { s.cb with err := c }
        faultLog := s.faultLog ||| logBit
        history := s.history ++ [.resp (c ++ 0#64)] }
    let stored : Prop := ∃ e ∈ s.cb.entries, e.sym = sym
    let conflict : Prop := ∃ e ∈ s.cb.entries, entryBits e <+: bits ∨ bits <+: entryBits e
    (s.cb.err ≠ 0 → answer = .next { s with history := s.history ++ [.resp (s.cb.err ++ 0#64)] }) ∧
    (s.cb.err = 0 → (s.w.active = true ∨ s.r.active = true) →
      answer = .next { s with
        faultLog := s.faultLog ||| 0x0080#16
        history := s.history ++ [.resp (0x07#8 ++ 0#64)] }) ∧
    (s.cb.err = 0 → s.w.active = false → s.r.active = false →
      (len.toNat = 0 → raises 0x03 0x0008#16) ∧
      (len.toNat > 32 → raises 0x02 0x0004#16) ∧
      (1 ≤ len.toNat → len.toNat ≤ 32 → code.toNat ≥ 2 ^ len.toNat → raises 0x04 0x0010#16) ∧
      (1 ≤ len.toNat → len.toNat ≤ 32 → code.toNat < 2 ^ len.toNat →
        (stored → raises 0x05 0x0020#16) ∧
        (¬ stored → conflict → raises 0x06 0x0040#16) ∧
        (¬ stored → ¬ conflict →
          answer = .next { s with
            cb := { s.cb with entries := s.cb.entries ++ [{ sym := sym, len := len.setWidth 6, code := code }] }
            history := s.history ++ [.resp 0] })))

/-- Rule R90: the order of the entries in the store has no effect on any result: from two states whose stores are permutations
of each other and that agree otherwise, every command emits and answers the same and leaves states that agree in the same way.
-/
def Obligations.StoreOrderHasNoEffect : Prop :=
  ∀ (i : Instr) (s t u : State) (es : List Entry), s.Inv → es.Perm s.cb.entries → exec i s = .next t →
    exec i { s with cb := { s.cb with entries := es } } = .next u →
    u.cb.entries.Perm t.cb.entries ∧ { u with cb := { u.cb with entries := t.cb.entries } } = t

/-- Rule R92: `LookupSym(s)` is the one entry with that symbol, at the one index that has it, and none if there is none. -/
def Obligations.LookupSymFindsTheEntry : Prop :=
  ∀ (s : State) (x : Byte), s.Inv →
    (∀ e, lookupSym s.cb x = some e ↔ e ∈ s.cb.entries ∧ e.sym = x) ∧
    (lookupSym s.cb x = none ↔ ∀ e ∈ s.cb.entries, e.sym ≠ x) ∧
    (∀ (i j : Nat) (a b : Entry), s.cb.entries[i]? = some a → s.cb.entries[j]? = some b → a.sym = x → b.sym = x → i = j)

/-- Rule R93: `LookupCode(v, n)` is the one entry whose length is `n` and whose code value is `v`, at the one index that has
both, and none if there is none. -/
def Obligations.LookupCodeFindsTheEntry : Prop :=
  ∀ (s : State) (v : CodeWord) (n : BitVec 6), s.Inv →
    (∀ e, lookupCode s.cb v n = some e ↔ e ∈ s.cb.entries ∧ e.len = n ∧ e.code = v) ∧
    (lookupCode s.cb v n = none ↔ ∀ e ∈ s.cb.entries, ¬ (e.len = n ∧ e.code = v)) ∧
    (∀ (i j : Nat) (a b : Entry), s.cb.entries[i]? = some a → s.cb.entries[j]? = some b →
      a.len = n ∧ a.code = v → b.len = n ∧ b.code = v → i = j)

/-- Rule R33: every entry has a length of 1 to 32 bits and a code value of at most that many bits, two entries at different
indices have different symbols and bit strings neither of which begins with the other, and there are at most `CB_CAP` = 256.
-/
def Obligations.StoreIsPrefixFreeAndBounded : Prop :=
  ∀ s : State, s.Inv →
    s.cb.entries.length ≤ 256 ∧
    (∀ e ∈ s.cb.entries, 1 ≤ e.len.toNat ∧ e.len.toNat ≤ 32 ∧ e.code.toNat < 2 ^ e.len.toNat) ∧
    ∀ (i j : Nat) (a b : Entry), s.cb.entries[i]? = some a → s.cb.entries[j]? = some b → i ≠ j →
      a.sym ≠ b.sym ∧ ¬ entryBits a <+: entryBits b ∧ ¬ entryBits b <+: entryBits a

/-- Rule R97, first half: if `CB.CLEAR` and a `CB.LOAD` per entry are all answered `OK`, the store holds exactly those entries
in that order, and both lookups find each. -/
def Obligations.LoadedCodebookIsHeld : Prop :=
  ∀ (s t : State) (es : List Entry), s.Inv →
    runCommands (.cbClear :: es.map fun e => .cbLoad e.sym (e.len.setWidth 8) e.code) s = .next t →
    t.responses = s.responses ++ List.replicate (es.length + 1) 0 →
    t.cb.entries = es ∧ t.cb.err = 0 ∧
    ∀ e ∈ es, lookupSym t.cb e.sym = some e ∧ lookupCode t.cb e.code e.len = some e

/-- Rule R97, second half: the codebook of any Huffman tree with distinct leaf symbols and depth at most 32 loads `OK`, in any
order, on an unlocked store. -/
def Obligations.TreeCodebookLoads : Prop :=
  ∀ (s : State) (tree : HTree) (es : List HostEntry), s.Inv → s.w.active = false → s.r.active = false →
    tree.syms.Nodup → tree.depth ≤ 32 → es.Perm tree.codebook →
    ∃ t, runCommands (buildCommands es) s = .next t ∧
      t.responses = s.responses ++ List.replicate (es.length + 1) 0 ∧
      t.cb = { entries := es.map storedEntry, err := 0 }

/-- Rule R98: the empty store is a valid codebook. `ENC.INIT` and `DEC.INIT` succeed; every `ENC.SYM` raises `E_NO_SYMBOL`; a
decode of original length 0 completes at once; a decode of any other length emits nothing and ends in `E_TRUNCATED` before its
fourth byte and in `E_NO_MATCH` from it on. -/
def Obligations.EmptyCodebookIsValid : Prop :=
  ∀ s : State, s.Inv → s.cb.entries = [] → s.cb.err = 0 →
    (∀ x : Byte, ∃ t, runCommands [.encInit, .encSym x] s = .next t ∧
      t.responses = s.responses ++ [0, 0x0A#8 ++ 0#64] ∧ t.byteOut = s.byteOut) ∧
    (∃ t, runCommands [.decInit 0, .decEnd] s = .next t ∧ t.responses = s.responses ++ [0x00#8 ++ 1#64, 0]) ∧
    ∀ (n : Count) (bytes : List Byte), n ≠ 0 →
      ∃ t, runCommands (.decInit n :: (bytes.map .decByte ++ [.decEnd])) s = .next t ∧ t.symOut = s.symOut ∧
        t.responses = s.responses ++ [0] ++
          (List.range bytes.length).map (fun j => if j < 3 then 0 else 0x0B#8 ++ 0#64) ++
          [if bytes.length < 4 then 0x0C#8 ++ 0#64 else 0x0B#8 ++ 0#64]

/-- Frame of `CB.CLEAR` and `CB.LOAD` (rules R94, R95): writer, reader, both output streams and the command stream are
unchanged, and of `FAULT_LOG` only bits 2 to 7. -/
def Obligations.CodebookCommandsFrame : Prop :=
  ∀ (i : Instr) (s t : State), (i = .cbClear ∨ ∃ sym len code, i = .cbLoad sym len code) → exec i s = .next t →
    t.w = s.w ∧ t.r = s.r ∧ t.byteOut = s.byteOut ∧ t.symOut = s.symOut ∧ t.hostIn = s.hostIn ∧
    ∀ k, k < 2 ∨ 7 < k → t.faultLog.getLsbD k = s.faultLog.getLsbD k

/-! ## The writer (41_writer_commands.md) -/

/-- Rule R111: `AppendBit` shifts the bit in at the low end; the eighth bit emits the byte and empties the accumulator. -/
def Obligations.AppendBitShiftsIn : Prop :=
  ∀ (b : Bool) (s : State), s.w.acc.toNat < 2 ^ s.w.cnt.toNat →
    (s.w.cnt = 7 →
      appendBit b s = { s with
        w := { s.w with acc := 0, cnt := 0 }
        history := s.history ++ [.outByte (BitVec.ofNat 8 (2 * s.w.acc.toNat + b.toNat))] }) ∧
    (s.w.cnt ≠ 7 →
      appendBit b s = { s with
        w := { s.w with
          acc := BitVec.ofNat 8 (2 * s.w.acc.toNat + b.toNat)
          cnt := BitVec.ofNat 3 (s.w.cnt.toNat + 1) } } ∧
      s.w.cnt.toNat + 1 < 8 ∧ 2 * s.w.acc.toNat + b.toNat < 2 ^ (s.w.cnt.toNat + 1))

/-- Rule R112: `ENC.INIT` is the word 0x10 with `arg` 0; it makes a fresh active writer in every writer state, unless the
codebook build failed; then it raises `E_CB_INVALID`, which latches nothing and leaves the writer as it was. -/
def Obligations.EncInitMakesFreshWriter : Prop :=
  decode 0x100000000000000000 = .ok .encInit ∧
  ∀ s : State,
    (s.cb.err = 0 →
      exec .encInit s = .next { s with
        w := { active := true, err := 0, acc := 0, cnt := 0, total := 0 }
        history := s.history ++ [.resp 0] }) ∧
    (s.cb.err ≠ 0 →
      exec .encInit s = .next { s with
        faultLog := s.faultLog ||| 0x0100#16
        history := s.history ++ [.resp (0x08#8 ++ 0#64)] })

/-- Rule R113: `ENC.SYM` has its operand at `arg[7:0]`; what it answers, error by error in the rule's order, and its closed
form: with c = `W_CNT`, n = `len` and V = (`W_ACC` << n) | `code`, it emits the ⌊(c + n) / 8⌋ bytes of V from the top, keeps
the low (c + n) mod 8 bits, and counts n bits. -/
def Obligations.EncSymPacksTheCode : Prop :=
  (∀ x : Byte, decode (0x11#8 ++ (0#56 ++ x)) = .ok (.encSym x)) ∧
  ∀ (s : State) (x : Byte), s.Inv →
    let answer := exec (.encSym x) s
    let latches (c : Byte) (logBit : BitVec 16) : Prop :=
      answer = .next { s with
        w := { s.w with err := c, active := false }
        faultLog := s.faultLog ||| logBit
        history := s.history ++ [.resp (c ++ 0#64)] }
    (s.w.err ≠ 0 → answer = .next { s with history := s.history ++ [.resp (s.w.err ++ 0#64)] }) ∧
    (s.w.err = 0 → s.w.active = false →
      answer = .next { s with
        faultLog := s.faultLog ||| 0x0200#16
        history := s.history ++ [.resp (0x09#8 ++ 0#64)] }) ∧
    (s.w.err = 0 → s.w.active = true → (∀ e ∈ s.cb.entries, e.sym ≠ x) → latches 0x0A 0x0400#16) ∧
    (∀ e ∈ s.cb.entries, e.sym = x → s.w.err = 0 → s.w.active = true →
      let c := s.w.cnt.toNat
      let n := e.len.toNat
      let v := (s.w.acc.toNat <<< n) ||| e.code.toNat
      (s.w.total.toNat + n > 2 ^ 64 - 1 → latches 0x0E 0x4000#16) ∧
      (s.w.total.toNat + n ≤ 2 ^ 64 - 1 →
        answer = .next { s with
          w := { s.w with
            acc := BitVec.ofNat 8 (v % 2 ^ ((c + n) % 8))
            cnt := BitVec.ofNat 3 ((c + n) % 8)
            total := BitVec.ofNat 64 (s.w.total.toNat + n) }
          history := s.history ++
            (List.range ((c + n) / 8)).map (fun j => .outByte (BitVec.ofNat 8 (v >>> (c + n - 8 * (j + 1))))) ++
            [.resp 0] }))

/-- Rule R114: `ENC.FLUSH` is the word 0x12 with `arg` 0; it emits the pending bits, if any, at the top of a byte padded with
zeros, ends the encode and answers `W_TOTAL`; with no bit pending it emits nothing. -/
def Obligations.EncFlushPadsAndEnds : Prop :=
  decode 0x120000000000000000 = .ok .encFlush ∧
  ∀ s : State,
    let answer := exec .encFlush s
    (s.w.err ≠ 0 → answer = .next { s with history := s.history ++ [.resp (s.w.err ++ 0#64)] }) ∧
    (s.w.err = 0 → s.w.active = false →
      answer = .next { s with
        faultLog := s.faultLog ||| 0x0200#16
        history := s.history ++ [.resp (0x09#8 ++ 0#64)] }) ∧
    (s.w.err = 0 → s.w.active = true → s.w.cnt = 0 →
      answer = .next { s with
        w := { s.w with active := false }
        history := s.history ++ [.resp (0x00#8 ++ s.w.total)] }) ∧
    (s.w.err = 0 → s.w.active = true → s.w.cnt ≠ 0 →
      answer = .next { s with
        w := { s.w with active := false, acc := 0, cnt := 0 }
        history := s.history ++
          [.outByte (BitVec.ofNat 8 (s.w.acc.toNat * 2 ^ (8 - s.w.cnt.toNat))), .resp (0x00#8 ++ s.w.total)] })

/-- Rules R66, R67, R115: `ENC.INIT`, one `ENC.SYM` per symbol and `ENC.FLUSH` are all answered `OK` and emit exactly the
bitstream of the message, the whole bytes by `ENC.SYM` and a last partial byte by `ENC.FLUSH`, whose response carries the
number of meaningful bits. -/
def Obligations.EncodeProducesBitstream : Prop :=
  ∀ (s : State) (m : List Byte), s.Inv → s.cb.err = 0 → (∀ x ∈ m, ∃ e ∈ s.cb.entries, e.sym = x) →
    let bits := messageBits s.cb m
    bits.length ≤ 2 ^ 64 - 1 →
    ∃ u t, runCommands (.encInit :: m.map .encSym) s = .next u ∧
      u.byteOut = s.byteOut ++ (bitstream bits).take (bits.length / 8) ∧
      runCommands (encodeCommands m) s = .next t ∧
      t.byteOut = s.byteOut ++ bitstream bits ∧
      t.responses = s.responses ++ List.replicate (m.length + 1) 0 ++ [0x00#8 ++ BitVec.ofNat 64 bits.length] ∧
      t.w.active = false ∧ t.cb = s.cb ∧ t.r = s.r ∧ t.symOut = s.symOut ∧ t.faultLog = s.faultLog ∧ t.hostIn = s.hostIn

/-- Rule R31: while an encode is active, `W_TOTAL` >> 3 bytes have been emitted since its `ENC.INIT` and `W_CNT` is `W_TOTAL`
mod 8; every step keeps this. -/
def Obligations.StepKeepsWriterByteCount : Prop :=
  ∀ s t : State, s.Inv → (s.w.active = true → bytesSinceInit s.history = s.w.total.toNat / 8) → step s = .next t →
    t.w.active = true → bytesSinceInit t.history = t.w.total.toNat / 8 ∧ t.w.cnt.toNat = t.w.total.toNat % 8

/-- Frame of `ENC.INIT`, `ENC.SYM` and `ENC.FLUSH` (rules R112 to R114): the store, the reader, `SYM_OUT` and the command
stream are unchanged, of `FAULT_LOG` only bits 8, 9, 10 and 14 may change, and nothing is taken from `BYTE_OUT`. -/
def Obligations.WriterCommandsFrame : Prop :=
  ∀ (i : Instr) (s t : State), (i = .encInit ∨ (∃ x, i = .encSym x) ∨ i = .encFlush) → exec i s = .next t →
    t.cb = s.cb ∧ t.r = s.r ∧ t.symOut = s.symOut ∧ t.hostIn = s.hostIn ∧ s.byteOut <+: t.byteOut ∧
    ∀ k, k ≠ 8 → k ≠ 9 → k ≠ 10 → k ≠ 14 → t.faultLog.getLsbD k = s.faultLog.getLsbD k

/-! ## The reader (42_reader_commands.md) -/

/-- Rule R131: one `FoldBit` under its precondition: the count overflow, the match, the full accumulator without a match, or
one more bit held. -/
def Obligations.FoldBitFoldsAndLooksUp : Prop :=
  ∀ (b : Bool) (s : State), s.Inv → s.r.active = true → s.r.err = 0 → s.r.emitted ≠ s.r.origLen →
    let v := 2 * s.r.acc.toNat + b.toNat
    let n := s.r.cnt.toNat + 1
    v < 2 ^ n ∧ n ≤ 32 ∧
    (s.r.bits.toNat = 2 ^ 64 - 1 → foldBit b s = (s, some (.countOverflow .reader))) ∧
    (s.r.bits.toNat ≠ 2 ^ 64 - 1 →
      (∀ e ∈ s.cb.entries, e.len.toNat = n → e.code.toNat = v →
        foldBit b s = ({ s with
          r := { s.r with
            acc := 0, cnt := 0
            bits := BitVec.ofNat 64 (s.r.bits.toNat + 1)
            emitted := BitVec.ofNat 64 (s.r.emitted.toNat + 1) }
          history := s.history ++ [.outSym e.sym] }, none)) ∧
      ((∀ e ∈ s.cb.entries, ¬ (e.len.toNat = n ∧ e.code.toNat = v)) →
        foldBit b s = ({ s with
          r := { s.r with
            acc := BitVec.ofNat 32 v, cnt := BitVec.ofNat 6 n
            bits := BitVec.ofNat 64 (s.r.bits.toNat + 1) } }, if n = 32 then some .noMatch else none)))

/-- Rule R132: `DEC.INIT` has its operand at `arg[63:0]`; it makes a fresh active reader for `origlen` symbols in every reader
state and answers whether it is already done, unless the codebook build failed; then it raises `E_CB_INVALID` and leaves the
reader as it was. -/
def Obligations.DecInitMakesFreshReader : Prop :=
  (∀ n : Count, decode (0x20#8 ++ n) = .ok (.decInit n)) ∧
  ∀ (s : State) (n : Count),
    (s.cb.err = 0 →
      exec (.decInit n) s = .next { s with
        r := { active := true, err := 0, acc := 0, cnt := 0, origLen := n, emitted := 0, bits := 0 }
        history := s.history ++ [.resp (0x00#8 ++ if n = 0 then 1#64 else 0#64)] }) ∧
    (s.cb.err ≠ 0 →
      exec (.decInit n) s = .next { s with
        faultLog := s.faultLog ||| 0x0100#16
        history := s.history ++ [.resp (0x08#8 ++ 0#64)] })

/-- Rules R133, R190: where `DEC.BYTE` takes no bit: a latched error, no decode in progress, a reader already done, a bit
count that is full. -/
def Obligations.DecByteTakesNoBit : Prop :=
  ∀ (s : State) (b : Byte),
    let answer := exec (.decByte b) s
    let latches (c : Byte) (logBit : BitVec 16) : Prop :=
      answer = .next { s with
        r := { s.r with err := c, active := false }
        faultLog := s.faultLog ||| logBit
        history := s.history ++ [.resp (c ++ 0#64)] }
    (s.r.err ≠ 0 → answer = .next { s with history := s.history ++ [.resp (s.r.err ++ 0#64)] }) ∧
    (s.r.err = 0 → s.r.active = false →
      answer = .next { s with
        faultLog := s.faultLog ||| 0x0200#16
        history := s.history ++ [.resp (0x09#8 ++ 0#64)] }) ∧
    (s.r.err = 0 → s.r.active = true → s.r.emitted = s.r.origLen → latches 0x0D 0x2000#16) ∧
    (s.r.err = 0 → s.r.active = true → s.r.emitted ≠ s.r.origLen → s.r.bits.toNat = 2 ^ 64 - 1 → latches 0x0E 0x4000#16)

/-- Rules R131, R133, R135: the greedy match of `DEC.BYTE` is the parse of the held bits and the byte's bits into stored codes
`es` and a rest. If `es` completes the decode, its symbols are emitted and the rest is padding, ignored. If not, and no stored
code begins the rest, its symbols are emitted and the rest is held, or, when the rest has 32 bits or more, `E_NO_MATCH` is
raised with its first 32 bits held, nothing rolled back. -/
def Obligations.DecByteParsesGreedily : Prop :=
  ∀ (s : State) (b : Byte) (es : List Entry) (rest : List Bool), s.Inv →
    s.r.active = true → s.r.err = 0 → s.r.emitted ≠ s.r.origLen → s.r.bits.toNat + 8 ≤ 2 ^ 64 - 1 →
    (∀ e ∈ es, e ∈ s.cb.entries) →
    bitsMsb s.r.cnt.toNat s.r.acc ++ bitsMsb 8 b = es.flatMap entryBits ++ rest →
    let answer := exec (.decByte b) s
    let syms : List Event := es.map fun e => .outSym e.sym
    let taken := (es.flatMap entryBits).length
    let emitted := s.r.emitted.toNat + es.length
    (emitted = s.r.origLen.toNat →
      answer = .next { s with
        r := { s.r with
          acc := 0, cnt := 0, emitted := s.r.origLen
          bits := BitVec.ofNat 64 (s.r.bits.toNat + (taken - s.r.cnt.toNat)) }
        history := s.history ++ syms ++ [.resp (0x00#8 ++ 1#64)] }) ∧
    (emitted < s.r.origLen.toNat → (∀ e ∈ s.cb.entries, ¬ entryBits e <+: rest) →
      (rest.length < 32 →
        answer = .next { s with
          r := { s.r with
            acc := BitVec.ofNat 32 (bitsValue rest), cnt := BitVec.ofNat 6 rest.length
            emitted := BitVec.ofNat 64 emitted
            bits := BitVec.ofNat 64 (s.r.bits.toNat + 8) }
          history := s.history ++ syms ++ [.resp 0] }) ∧
      (32 ≤ rest.length →
        answer = .next { s with
          r := { s.r with
            active := false, err := 0x0B
            acc := BitVec.ofNat 32 (bitsValue (rest.take 32)), cnt := 32
            emitted := BitVec.ofNat 64 emitted
            bits := BitVec.ofNat 64 (s.r.bits.toNat + (taken + 32 - s.r.cnt.toNat)) }
          faultLog := s.faultLog ||| 0x0800#16
          history := s.history ++ syms ++ [.resp (0x0B#8 ++ 0#64)] }))

/-- Rules R131, R133: `DEC.BYTE` where the bit count has room for fewer than the byte's eight bits. The bits that fit are parsed
as ever; if they complete the decode, or hold 32 bits without a match, the command ends so; otherwise the next bit raises
`E_COUNT_OVERFLOW` with the count full, what the earlier bits emitted and left held not rolled back. -/
def Obligations.DecByteOverflowsInMidByte : Prop :=
  ∀ (s : State) (b : Byte) (es : List Entry) (rest : List Bool), s.Inv →
    s.r.active = true → s.r.err = 0 → s.r.emitted ≠ s.r.origLen → 2 ^ 64 - 1 < s.r.bits.toNat + 8 →
    (∀ e ∈ es, e ∈ s.cb.entries) →
    let room := 2 ^ 64 - 1 - s.r.bits.toNat
    bitsMsb s.r.cnt.toNat s.r.acc ++ (bitsMsb 8 b).take room = es.flatMap entryBits ++ rest →
    let answer := exec (.decByte b) s
    let syms : List Event := es.map fun e => .outSym e.sym
    let taken := (es.flatMap entryBits).length
    let emitted := s.r.emitted.toNat + es.length
    (emitted = s.r.origLen.toNat →
      answer = .next { s with
        r := { s.r with
          acc := 0, cnt := 0, emitted := s.r.origLen
          bits := BitVec.ofNat 64 (s.r.bits.toNat + (taken - s.r.cnt.toNat)) }
        history := s.history ++ syms ++ [.resp (0x00#8 ++ 1#64)] }) ∧
    (emitted < s.r.origLen.toNat → (∀ e ∈ s.cb.entries, ¬ entryBits e <+: rest) →
      (rest.length < 32 →
        answer = .next { s with
          r := { s.r with
            active := false, err := 0x0E
            acc := BitVec.ofNat 32 (bitsValue rest), cnt := BitVec.ofNat 6 rest.length
            emitted := BitVec.ofNat 64 emitted
            bits := 0xFFFFFFFFFFFFFFFF }
          faultLog := s.faultLog ||| 0x4000#16
          history := s.history ++ syms ++ [.resp (0x0E#8 ++ 0#64)] }) ∧
      (32 ≤ rest.length →
        answer = .next { s with
          r := { s.r with
            active := false, err := 0x0B
            acc := BitVec.ofNat 32 (bitsValue (rest.take 32)), cnt := 32
            emitted := BitVec.ofNat 64 emitted
            bits := BitVec.ofNat 64 (s.r.bits.toNat + (taken + 32 - s.r.cnt.toNat)) }
          faultLog := s.faultLog ||| 0x0800#16
          history := s.history ++ syms ++ [.resp (0x0B#8 ++ 0#64)] }))

/-- Rule R134: `DEC.END` is the word 0x22 with `arg` 0; it ends a complete decode and answers `R_BITS`; an incomplete one
raises `E_TRUNCATED`. The counters and the held bits stay as they are. -/
def Obligations.DecEndChecksComplete : Prop :=
  decode 0x220000000000000000 = .ok .decEnd ∧
  ∀ s : State,
    let answer := exec .decEnd s
    (s.r.err ≠ 0 → answer = .next { s with history := s.history ++ [.resp (s.r.err ++ 0#64)] }) ∧
    (s.r.err = 0 → s.r.active = false →
      answer = .next { s with
        faultLog := s.faultLog ||| 0x0200#16
        history := s.history ++ [.resp (0x09#8 ++ 0#64)] }) ∧
    (s.r.err = 0 → s.r.active = true → s.r.emitted ≠ s.r.origLen →
      answer = .next { s with
        r := { s.r with err := 0x0C, active := false }
        faultLog := s.faultLog ||| 0x1000#16
        history := s.history ++ [.resp (0x0C#8 ++ 0#64)] }) ∧
    (s.r.err = 0 → s.r.active = true → s.r.emitted = s.r.origLen →
      answer = .next { s with
        r := { s.r with active := false }
        history := s.history ++ [.resp (0x00#8 ++ s.r.bits)] })

/-- Rule R136, with R135: any bytes whose first L bits are the codes of the message and which are ⌈L/8⌉ in number, whatever
their padding, decode to the message: all answers `OK`, done reported by the last byte (by `DEC.INIT` for the empty message)
and by no earlier one, L answered by `DEC.END`. The bitstream an encode of the message emits (rule R115) is such a sequence.
-/
def Obligations.DecodeRecoversMessage : Prop :=
  ∀ (s : State) (m bytes : List Byte), s.Inv → s.cb.err = 0 → (∀ x ∈ m, ∃ e ∈ s.cb.entries, e.sym = x) →
    let bits := messageBits s.cb m
    let carries (bytes : List Byte) : Prop :=
      bytes.length = (bits.length + 7) / 8 ∧ (byteBits bytes).take bits.length = bits
    bits.length ≤ 2 ^ 64 - 1 → carries (bitstream bits) ∧ (carries bytes →
    ∃ t, runCommands (decodeCommands m.length bytes) s = .next t ∧
      t.symOut = s.symOut ++ m ∧
      t.responses = s.responses ++ [0x00#8 ++ if m = [] then 1#64 else 0#64] ++
        (List.range bytes.length).map (fun j => 0x00#8 ++ if j + 1 = bytes.length then 1#64 else 0#64) ++
        [0x00#8 ++ BitVec.ofNat 64 bits.length] ∧
      t.r.active = false ∧ t.cb = s.cb ∧ t.w = s.w ∧ t.byteOut = s.byteOut ∧ t.faultLog = s.faultLog ∧
      t.hostIn = s.hostIn)

/-- Rule R136, with R115: what an encode emits, decoded under the same store, gives the message back. -/
def Obligations.EncodeThenDecodeIsIdentity : Prop :=
  ∀ (s : State) (m : List Byte), s.Inv → s.cb.err = 0 → (∀ x ∈ m, ∃ e ∈ s.cb.entries, e.sym = x) →
    (messageBits s.cb m).length ≤ 2 ^ 64 - 1 →
    ∃ t u bytes, runCommands (encodeCommands m) s = .next t ∧ t.byteOut = s.byteOut ++ bytes ∧
      runCommands (decodeCommands m.length bytes) t = .next u ∧ u.symOut = t.symOut ++ m ∧ u.faultLog = s.faultLog

/-- Frame of `DEC.INIT`, `DEC.BYTE` and `DEC.END` (rules R132 to R134): the store, the writer, `BYTE_OUT` and the command
stream are unchanged, of `FAULT_LOG` only bits 8, 9 and 11 to 14 may change, nothing is taken from `SYM_OUT`, and only
`DEC.INIT` writes `R_ORIGLEN`. -/
def Obligations.ReaderCommandsFrame : Prop :=
  ∀ (i : Instr) (s t : State), ((∃ n, i = .decInit n) ∨ (∃ b, i = .decByte b) ∨ i = .decEnd) → exec i s = .next t →
    t.cb = s.cb ∧ t.w = s.w ∧ t.byteOut = s.byteOut ∧ t.hostIn = s.hostIn ∧ s.symOut <+: t.symOut ∧
    ((∀ n, i ≠ .decInit n) → t.r.origLen = s.r.origLen) ∧
    ∀ k, k ≠ 8 → k ≠ 9 → (k < 11 ∨ 14 < k) → t.faultLog.getLsbD k = s.faultLog.getLsbD k

/-! ## The system commands (43_system_commands.md) -/

/-- Rules R27, R151: `STAT.GET` has its operand at `arg[3:0]`; `STAT.GET` of each register, in every state, changes nothing
and answers the fields of the register's layout, reserved bits 0; the word that names a register that does not exist is
illegal (rule R65). `CB_N` is shown whole when it is at most 256, as rule R33 says it always is. -/
def Obligations.StatGetReadsTheRegister : Prop :=
  (∀ reg : BitVec 4,
    (reg.toNat ≤ 9 → decode (0x30#8 ++ (0#60 ++ reg)) = .ok (.statGet reg)) ∧
    (10 ≤ reg.toNat → decode (0x30#8 ++ (0#60 ++ reg)) = .error (.noSuchRegister reg))) ∧
  ∀ s : State,
    let reads (reg : BitVec 4) (v : Count) : Prop :=
      exec (.statGet reg) s = .next { s with history := s.history ++ [.resp (0x00#8 ++ v)] }
    reads 0 0x0000004001000820#64 ∧
    (∃ v, reads 1 v ∧ v.getLsbD 0 = s.w.active ∧ v.getLsbD 1 = s.r.active ∧
      v.getLsbD 2 = decide (s.r.emitted = s.r.origLen) ∧ v.getLsbD 3 = (s.w.active || s.r.active) ∧
      v.extractLsb' 4 4 = 0 ∧ v.extractLsb' 8 8 = s.cb.err ∧ v.extractLsb' 16 8 = s.w.err ∧
      v.extractLsb' 24 8 = s.r.err ∧ v.extractLsb' 32 32 = 0) ∧
    (∃ v, reads 2 v ∧ v.extractLsb' 0 16 = s.faultLog ∧ v.extractLsb' 16 48 = 0) ∧
    (∃ v, reads 3 v ∧ (s.cb.entries.length ≤ 256 → v.toNat = s.cb.entries.length) ∧ v.extractLsb' 9 55 = 0) ∧
    reads 4 s.w.total ∧
    (∃ v, reads 5 v ∧ v.extractLsb' 0 8 = s.w.acc ∧ v.extractLsb' 8 3 = s.w.cnt ∧ v.extractLsb' 11 53 = 0) ∧
    reads 6 s.r.origLen ∧ reads 7 s.r.emitted ∧ reads 8 s.r.bits ∧
    (∃ v, reads 9 v ∧ v.extractLsb' 0 32 = s.r.acc ∧ v.extractLsb' 32 6 = s.r.cnt ∧ v.extractLsb' 38 26 = 0)

/-! ## Errors (60_exceptions.md) -/

/-- Rules R190, R193: what raising each of the fourteen errors does: the log bit of its number, its unit's latch with the unit
inactive, the response with data 0. -/
def Obligations.RaiseLogsLatchesAndResponds : Prop :=
  ∀ s : State,
    let logged (c : Byte) (logBit : BitVec 16) (t : State) : State :=
      { t with faultLog := s.faultLog ||| logBit, history := s.history ++ [.resp (c ++ 0#64)] }
    let inCb (c : Byte) (logBit : BitVec 16) : State := logged c logBit { s with cb := { s.cb with err := c } }
    let inW (c : Byte) (logBit : BitVec 16) : State := logged c logBit { s with w := { s.w with err := c, active := false } }
    let inR (c : Byte) (logBit : BitVec 16) : State := logged c logBit { s with r := { s.r with err := c, active := false } }
    raiseErr .illegalCmd s = logged 0x01 0x0002 s ∧
    raiseErr .codeTooLong s = inCb 0x02 0x0004 ∧
    raiseErr .zeroLength s = inCb 0x03 0x0008 ∧
    raiseErr .badCodeValue s = inCb 0x04 0x0010 ∧
    raiseErr .dupSymbol s = inCb 0x05 0x0020 ∧
    raiseErr .notPrefixFree s = inCb 0x06 0x0040 ∧
    raiseErr .cbLocked s = logged 0x07 0x0080 s ∧
    raiseErr .cbInvalid s = logged 0x08 0x0100 s ∧
    raiseErr .notActive s = logged 0x09 0x0200 s ∧
    raiseErr .noSymbol s = inW 0x0A 0x0400 ∧
    raiseErr .noMatch s = inR 0x0B 0x0800 ∧
    raiseErr .truncated s = inR 0x0C 0x1000 ∧
    raiseErr .overrun s = inR 0x0D 0x2000 ∧
    raiseErr (.countOverflow .writer) s = inW 0x0E 0x4000 ∧
    raiseErr (.countOverflow .reader) s = inR 0x0E 0x4000

/-- Rule R194: a unit's latched error is returned by its commands with data 0, and nothing else changes, not even `FAULT_LOG`,
whose bit is already set. -/
def Obligations.LatchedErrorIsReturned : Prop :=
  ∀ (i : Instr) (s : State), s.Inv →
    let returned (c : Byte) : Prop :=
      exec i s = .next { s with history := s.history ++ [.resp (c ++ 0#64)] } ∧ s.faultLog.getLsbD c.toNat = true
    ((∃ sym len code, i = .cbLoad sym len code) → s.cb.err ≠ 0 → returned s.cb.err) ∧
    ((∃ x, i = .encSym x) ∨ i = .encFlush → s.w.err ≠ 0 → returned s.w.err) ∧
    ((∃ b, i = .decByte b) ∨ i = .decEnd → s.r.err ≠ 0 → returned s.r.err)

/-- Rule R197: a command other than `SRESET` clears a latch only if it is the unit's own init command, and then only by
succeeding: `CB_ERR` by `CB.CLEAR`, `W_ERR` by `ENC.INIT`, `R_ERR` by `DEC.INIT`. A latched error is never replaced by
another. -/
def Obligations.LatchClearedOnlyByInit : Prop :=
  ∀ (i : Instr) (s t : State), exec i s = .next t → i ≠ .sreset →
    (s.cb.err ≠ 0 → t.cb.err = s.cb.err ∨ (i = .cbClear ∧ t.cb.err = 0 ∧ t.cb.entries = [])) ∧
    (s.w.err ≠ 0 → t.w = s.w ∨ (i = .encInit ∧ t.w.err = 0 ∧ t.w.active = true)) ∧
    (s.r.err ≠ 0 → t.r = s.r ∨ ((∃ n, i = .decInit n) ∧ t.r.err = 0 ∧ t.r.active = true))

/-- Rules R25, R202: over any command but `SRESET` no bit of `FAULT_LOG` is cleared, and a bit that becomes set is the number
of the status the command answered; a command answered with a status k ≠ 0 leaves bit k set, whether it raised k or returned a
latched k. -/
def Obligations.FaultLogRecordsStatuses : Prop :=
  ∀ (i : Instr) (s t : State), s.Inv → exec i s = .next t → i ≠ .sreset →
    ∃ (before : List Event) (status : Byte) (data : Count), t.history = before ++ [.resp (status ++ data)] ∧
      (∀ k, t.faultLog.getLsbD k = true → s.faultLog.getLsbD k = true ∨ (k = status.toNat ∧ status ≠ 0)) ∧
      (∀ k, s.faultLog.getLsbD k = true → t.faultLog.getLsbD k = true) ∧
      (status ≠ 0 → data = 0 ∧ t.faultLog.getLsbD status.toNat = true)

/-- Rule R54: while an encode or a decode is active the store does not change, whatever command but `SRESET` the host
presents, and `CB.CLEAR` and `CB.LOAD` are answered `E_CB_LOCKED`. -/
def Obligations.LockedStoreDoesNotChange : Prop :=
  ∀ (i : Instr) (s t : State), s.Inv → (s.w.active = true ∨ s.r.active = true) → exec i s = .next t → i ≠ .sreset →
    t.cb = s.cb ∧
    ((i = .cbClear ∨ ∃ sym len code, i = .cbLoad sym len code) → t.history = s.history ++ [.resp (0x07#8 ++ 0#64)])

/-- Rule R35: the life cycle of the three units. `W` and `R` move only by their own commands and `SRESET`; each move is one of
the table's. -/
def Obligations.UnitsFollowLifeCycle : Prop :=
  ∀ (i : Instr) (s t : State), s.Inv → exec i s = .next t →
    (match i with
      | .encInit => if s.cb.err = 0 then t.w.phase = .active else t.w = s.w
      | .encSym _ => if s.w.phase = .active then t.w.phase = .active ∨ t.w.phase = .failed else t.w = s.w
      | .encFlush => if s.w.phase = .active then t.w.phase = .idle else t.w = s.w
      | .sreset => t.w.phase = .idle
      | .cbClear | .cbLoad _ _ _ | .decInit _ | .decByte _ | .decEnd | .statGet _ => t.w = s.w) ∧
    (match i with
      | .decInit _ => if s.cb.err = 0 then t.r.phase = .active else t.r = s.r
      | .decByte _ =>
        if s.r.phase = .active then
          (if s.r.done then t.r.phase = .failed else t.r.phase = .active ∨ t.r.phase = .failed) else t.r = s.r
      | .decEnd =>
        if s.r.phase = .active then (if s.r.done then t.r.phase = .idle else t.r.phase = .failed) else t.r = s.r
      | .sreset => t.r.phase = .idle
      | .cbClear | .cbLoad _ _ _ | .encInit | .encSym _ | .encFlush | .statGet _ => t.r = s.r) ∧
    (match i with
      | .cbClear => if s.storePhase = .locked then t.cb = s.cb else t.storePhase = .building ∧ t.cbN = 0
      | .cbLoad _ _ _ =>
        match s.storePhase with
        | .locked => t.cb = s.cb
        | .failed => t.cb = s.cb
        | .building => (t.storePhase = .building ∧ t.cbN = s.cbN + 1) ∨ (t.storePhase = .failed ∧ t.cbN = s.cbN)
      | .sreset => t.storePhase = .building
      | .encInit | .decInit _ => t.cb = s.cb ∧ (s.cb.err = 0 → t.storePhase = .locked)
      | .encSym _ | .encFlush | .decByte _ | .decEnd | .statGet _ => t.cb = s.cb) ∧
    (s.storePhase = .locked → t.storePhase = if t.cbLocked then .locked else .building)

/-- Rules R28, R225: an encode and a decode share no bit. What a writer command does to the writer and what it emits and
answers is the same in any two states with the same store and the same writer; likewise for the reader. -/
def Obligations.UnitsDoNotInterfere : Prop :=
  ∀ (i : Instr) (s₁ s₂ t₁ t₂ : State), s₁.cb = s₂.cb → exec i s₁ = .next t₁ → exec i s₂ = .next t₂ →
    ((i = .encInit ∨ (∃ x, i = .encSym x) ∨ i = .encFlush) → s₁.w = s₂.w →
      t₁.w = t₂.w ∧ ∃ added, t₁.history = s₁.history ++ added ∧ t₂.history = s₂.history ++ added) ∧
    (((∃ n, i = .decInit n) ∨ (∃ b, i = .decByte b) ∨ i = .decEnd) → s₁.r = s₂.r →
      t₁.r = t₂.r ∧ ∃ added, t₁.history = s₁.history ++ added ∧ t₂.history = s₂.history ++ added)

/-- Rule R50: `SRESET`, `CB.CLEAR`, `ENC.INIT`, `DEC.INIT` with the same operand, `STAT.GET`, and a command that returns a
latched error change no register when presented a second time. -/
def Obligations.RepeatedCommandsChangeNothing : Prop :=
  ∀ (i : Instr) (s t u : State), exec i s = .next t → exec i t = .next u →
    (match i with
      | .sreset | .cbClear | .encInit | .decInit _ | .statGet _ => True
      | .cbLoad _ _ _ => s.cb.err ≠ 0
      | .encSym _ | .encFlush => s.w.err ≠ 0
      | .decByte _ | .decEnd => s.r.err ≠ 0) →
    u.cb = t.cb ∧ u.w = t.w ∧ u.r = t.r ∧ u.faultLog = t.faultLog ∧ u.byteOut = t.byteOut ∧ u.symOut = t.symOut

/-! ## The invariant (10_state.md rules R31 to R34) -/

/-- The invariant holds right after reset. -/
def Obligations.ResetMeetsInvariant : Prop := State.reset.Inv

/-- Rules R31 to R34: from every state that meets the invariant, reachable or not, every step, whatever the host presents,
leads to a state that meets it. -/
def Obligations.StepKeepsInvariant : Prop :=
  ∀ s t : State, s.Inv → step s = .next t → t.Inv
end

