-- ==== Sys2Proof/Laws/Codes.lean ====
section
/-! SUPPORT. Codes as bit strings and as numbers: the two views the commands and the claims use. -/

namespace Sys2Proof.Machine

@[simp] theorem bitsMsb_zero {k : Nat} (v : BitVec k) : bitsMsb 0 v = [] := rfl

@[simp] theorem bitsMsb_succ {k : Nat} (n : Nat) (v : BitVec k) : bitsMsb (n + 1) v = v.getLsbD n :: bitsMsb n v := rfl

@[simp] theorem length_bitsMsb {k : Nat} (n : Nat) (v : BitVec k) : (bitsMsb n v).length = n := by
  induction n with
  | zero => rfl
  | succ n ih => simp [ih]

@[simp] theorem length_entryBits (e : Entry) : (entryBits e).length = e.len.toNat := by simp [entryBits]

theorem bitsValue_foldl (bits : List Bool) (v : Nat) :
    bits.foldl (fun v b => 2 * v + b.toNat) v = v * 2 ^ bits.length + bitsValue bits := by
  induction bits generalizing v with
  | nil => simp [bitsValue]
  | cons b bs ih =>
    simp only [List.foldl_cons, List.length_cons, bitsValue]
    rw [ih, ih (2 * 0 + b.toNat)]
    ring

@[simp] theorem bitsValue_nil : bitsValue [] = 0 := rfl

theorem bitsValue_cons (b : Bool) (bs : List Bool) : bitsValue (b :: bs) = b.toNat * 2 ^ bs.length + bitsValue bs := by
  simp only [bitsValue, List.foldl_cons]
  rw [bitsValue_foldl]
  simp [bitsValue]

theorem bitsValue_append (xs ys : List Bool) : bitsValue (xs ++ ys) = bitsValue xs * 2 ^ ys.length + bitsValue ys := by
  simp only [bitsValue, List.foldl_append]
  rw [bitsValue_foldl]
  simp [bitsValue]

theorem bitsValue_lt (bits : List Bool) : bitsValue bits < 2 ^ bits.length := by
  induction bits with
  | nil => simp
  | cons b bs ih =>
    rw [bitsValue_cons, List.length_cons, pow_succ]
    cases b <;> simp <;> omega

/-- The number of the first `k` bits of a string, and of the rest. -/
theorem bitsValue_take_drop (bits : List Bool) (k : Nat) :
    bitsValue (bits.take k) = bitsValue bits / 2 ^ (bits.length - k) ∧
    bitsValue (bits.drop k) = bitsValue bits % 2 ^ (bits.length - k) := by
  have h := bitsValue_append (bits.take k) (bits.drop k)
  have hlt := bitsValue_lt (bits.drop k)
  rw [List.take_append_drop, List.length_drop] at h
  rw [List.length_drop] at hlt
  have hp : 0 < 2 ^ (bits.length - k) := by positivity
  constructor
  · rw [h, Nat.mul_comm, Nat.mul_add_div hp, Nat.div_eq_of_lt hlt, Nat.add_zero]
  · rw [h, Nat.mul_comm, Nat.mul_add_mod, Nat.mod_eq_of_lt hlt]

/-- The low `n` bits of a word, read first bit first, spell its value modulo 2^n. -/
theorem bitsValue_bitsMsb {k : Nat} (n : Nat) (v : BitVec k) : bitsValue (bitsMsb n v) = v.toNat % 2 ^ n := by
  induction n with
  | zero => simp [Nat.mod_one]
  | succ n ih =>
    rw [bitsMsb_succ, bitsValue_cons, length_bitsMsb, ih, Nat.mod_pow_succ]
    have : (v.getLsbD n).toNat = v.toNat / 2 ^ n % 2 := by
      rw [BitVec.getLsbD, Nat.testBit_eq_decide_div_mod_eq]
      rcases Nat.mod_two_eq_zero_or_one (v.toNat / 2 ^ n) with h | h <;> simp [h]
    rw [this]
    ring

/-- A bit string is determined by its length and its value. -/
theorem bits_ext {xs ys : List Bool} (hl : xs.length = ys.length) (hv : bitsValue xs = bitsValue ys) : xs = ys := by
  induction xs generalizing ys with
  | nil => cases ys with
    | nil => rfl
    | cons => simp at hl
  | cons x xs ih =>
    cases ys with
    | nil => simp at hl
    | cons y ys =>
      simp only [List.length_cons, Nat.add_right_cancel_iff] at hl
      rw [bitsValue_cons, bitsValue_cons, hl] at hv
      have h1 := bitsValue_lt xs
      have h2 := bitsValue_lt ys
      rw [hl] at h1
      have hxy : x = y := by
        cases x <;> cases y <;> simp at hv ⊢ <;> omega
      subst hxy
      rw [ih hl (by omega)]

/-- The bits of a word that spells `bits`. -/
theorem bitsMsb_of_value {k : Nat} (bits : List Bool) (hk : bits.length ≤ k) :
    bitsMsb bits.length (BitVec.ofNat k (bitsValue bits)) = bits := by
  apply bits_ext
  · simp
  · rw [bitsValue_bitsMsb, BitVec.toNat_ofNat]
    have h1 := bitsValue_lt bits
    have h2 : 2 ^ bits.length ≤ 2 ^ k := Nat.pow_le_pow_right (by omega) hk
    rw [Nat.mod_eq_of_lt (a := bitsValue bits) (by omega), Nat.mod_eq_of_lt h1]

/-- A word is determined by its `n` low bits when it has no others. -/
theorem eq_of_bitsMsb {k : Nat} {n : Nat} {v w : BitVec k} (hv : v.toNat < 2 ^ n) (hw : w.toNat < 2 ^ n)
    (h : bitsMsb n v = bitsMsb n w) : v = w := by
  have := congrArg bitsValue h
  rw [bitsValue_bitsMsb, bitsValue_bitsMsb, Nat.mod_eq_of_lt hv, Nat.mod_eq_of_lt hw] at this
  exact BitVec.eq_of_toNat_eq this

/-- Shifting a bit in at the low end appends it to the bit string. -/
theorem bitsMsb_shift_in {k : Nat} (n : Nat) (v w : BitVec k) (b : Bool) (hw : w.toNat = 2 * v.toNat + b.toNat)
    (hv : v.toNat < 2 ^ n) : bitsMsb (n + 1) w = bitsMsb n v ++ [b] := by
  apply bits_ext
  · simp
  · rw [bitsValue_bitsMsb, bitsValue_append, bitsValue_bitsMsb, hw, Nat.mod_eq_of_lt hv]
    have hb : b.toNat < 2 := by cases b <;> simp
    rw [Nat.mod_eq_of_lt (by rw [pow_succ]; omega)]
    simp [bitsValue_cons]
    ring

/-- The value of shifting a bit into a word that has room for it. -/
theorem toNat_shift_in {k : Nat} (v : BitVec k) (b : Bool) (hk : 1 < k) (hv : 2 * v.toNat + b.toNat < 2 ^ k) :
    ((v <<< 1) ||| (BitVec.ofBool b).setWidth k).toNat = 2 * v.toNat + b.toNat := by
  have hb : b.toNat < 2 := by cases b <;> simp
  have h2k : 2 ≤ 2 ^ k := by
    calc 2 = 2 ^ 1 := rfl
      _ ≤ 2 ^ k := Nat.pow_le_pow_right (by omega) (by omega)
  rw [BitVec.toNat_or, BitVec.toNat_shiftLeft, BitVec.toNat_setWidth, BitVec.toNat_ofBool,
    Nat.mod_eq_of_lt (a := b.toNat) (by omega), Nat.shiftLeft_eq, pow_one, Nat.mod_eq_of_lt (by omega)]
  have : v.toNat * 2 = v.toNat <<< 1 := by simp [Nat.shiftLeft_eq]
  rw [this, ← Nat.shiftLeft_add_eq_or_of_lt (by simpa using hb)]
  simp [Nat.shiftLeft_eq]
  ring

/-- `ValidEntry` as three bounds. -/
theorem validEntry_iff (len : Nat) (code : CodeWord) :
    validEntry len code = true ↔ 1 ≤ len ∧ len ≤ 32 ∧ code.toNat < 2 ^ len := by
  simp only [validEntry, Bool.and_eq_true, decide_eq_true_eq, and_assoc]
  exact Iff.rfl

/-- `IsPrefix` is the prefix relation of the bit strings. -/
theorem isPrefix_iff {c1 c2 : CodeWord} {l1 l2 : Nat} (h1 : c1.toNat < 2 ^ l1) (h2 : c2.toNat < 2 ^ l2) :
    isPrefix c1 l1 c2 l2 = true ↔ ∃ tail, bitsMsb l1 c1 ++ tail = bitsMsb l2 c2 := by
  simp only [isPrefix, Bool.and_eq_true, decide_eq_true_eq, beq_iff_eq]
  constructor
  · rintro ⟨hl, hc⟩
    refine ⟨bitsMsb (l2 - l1) c2, ?_⟩
    apply bits_ext
    · simp; omega
    · rw [bitsValue_append, bitsValue_bitsMsb, bitsValue_bitsMsb, bitsValue_bitsMsb, length_bitsMsb,
        Nat.mod_eq_of_lt h1, Nat.mod_eq_of_lt h2, ← hc, BitVec.toNat_ushiftRight, Nat.shiftRight_eq_div_pow]
      exact Nat.div_add_mod' _ _
  · rintro ⟨tail, ht⟩
    have hlen := congrArg List.length ht
    simp only [List.length_append, length_bitsMsb] at hlen
    refine ⟨by omega, ?_⟩
    have hval := congrArg bitsValue ht
    rw [bitsValue_append, bitsValue_bitsMsb, bitsValue_bitsMsb, Nat.mod_eq_of_lt h1, Nat.mod_eq_of_lt h2] at hval
    have ht' := bitsValue_lt tail
    apply BitVec.eq_of_toNat_eq
    rw [BitVec.toNat_ushiftRight, Nat.shiftRight_eq_div_pow, ← hval, ← hlen, Nat.add_sub_cancel_left, mul_comm,
      Nat.mul_add_div (by positivity), Nat.div_eq_of_lt ht', add_zero]

/-- Two valid codes conflict when one bit string begins with the other. -/
theorem codesConflict_iff {c1 c2 : CodeWord} {l1 l2 : Nat} (h1 : c1.toNat < 2 ^ l1) (h2 : c2.toNat < 2 ^ l2) :
    codesConflict c1 l1 c2 l2 = true ↔ bitsMsb l1 c1 <+: bitsMsb l2 c2 ∨ bitsMsb l2 c2 <+: bitsMsb l1 c1 := by
  simp only [codesConflict, Bool.or_eq_true, isPrefix_iff h1 h2, isPrefix_iff h2 h1]
  rfl

end Sys2Proof.Machine
end

