-- ==== Sys2Proof/Laws/State.lean ====
section
/-! SUPPORT. What each named update of the state changes, field by field, so that no proof unfolds a record update. -/

namespace Sys2Proof.Machine

/-! `record` -/

@[simp] theorem record_cb (e : Event) (s : State) : (record e s).cb = s.cb := rfl
@[simp] theorem record_w (e : Event) (s : State) : (record e s).w = s.w := rfl
@[simp] theorem record_r (e : Event) (s : State) : (record e s).r = s.r := rfl
@[simp] theorem record_faultLog (e : Event) (s : State) : (record e s).faultLog = s.faultLog := rfl
@[simp] theorem record_history (e : Event) (s : State) : (record e s).history = s.history ++ [e] := rfl
@[simp] theorem record_hostIn (e : Event) (s : State) : (record e s).hostIn = s.hostIn := rfl

/-! `emitByte` -/

@[simp] theorem emitByte_cb (b : Byte) (s : State) : (emitByte b s).cb = s.cb := rfl
@[simp] theorem emitByte_w (b : Byte) (s : State) : (emitByte b s).w = s.w := rfl
@[simp] theorem emitByte_r (b : Byte) (s : State) : (emitByte b s).r = s.r := rfl
@[simp] theorem emitByte_faultLog (b : Byte) (s : State) : (emitByte b s).faultLog = s.faultLog := rfl
@[simp] theorem emitByte_history (b : Byte) (s : State) : (emitByte b s).history = s.history ++ [.outByte b] := rfl
@[simp] theorem emitByte_hostIn (b : Byte) (s : State) : (emitByte b s).hostIn = s.hostIn := rfl

/-! `emitSym` -/

@[simp] theorem emitSym_cb (x : Byte) (s : State) : (emitSym x s).cb = s.cb := rfl
@[simp] theorem emitSym_w (x : Byte) (s : State) : (emitSym x s).w = s.w := rfl
@[simp] theorem emitSym_r (x : Byte) (s : State) : (emitSym x s).r = s.r := rfl
@[simp] theorem emitSym_faultLog (x : Byte) (s : State) : (emitSym x s).faultLog = s.faultLog := rfl
@[simp] theorem emitSym_history (x : Byte) (s : State) : (emitSym x s).history = s.history ++ [.outSym x] := rfl
@[simp] theorem emitSym_hostIn (x : Byte) (s : State) : (emitSym x s).hostIn = s.hostIn := rfl

/-! `respond` -/

@[simp] theorem respond_cb (c : Byte) (d : Count) (s : State) : (respond c d s).cb = s.cb := rfl
@[simp] theorem respond_w (c : Byte) (d : Count) (s : State) : (respond c d s).w = s.w := rfl
@[simp] theorem respond_r (c : Byte) (d : Count) (s : State) : (respond c d s).r = s.r := rfl
@[simp] theorem respond_faultLog (c : Byte) (d : Count) (s : State) : (respond c d s).faultLog = s.faultLog := rfl
@[simp] theorem respond_history (c : Byte) (d : Count) (s : State) : (respond c d s).history = s.history ++ [.resp (responseWord c d)] := rfl
@[simp] theorem respond_hostIn (c : Byte) (d : Count) (s : State) : (respond c d s).hostIn = s.hostIn := rfl

/-! `presentCommand` -/

@[simp] theorem presentCommand_cb (w : Word72) (s : State) : (presentCommand w s).cb = s.cb := rfl
@[simp] theorem presentCommand_w (w : Word72) (s : State) : (presentCommand w s).w = s.w := rfl
@[simp] theorem presentCommand_r (w : Word72) (s : State) : (presentCommand w s).r = s.r := rfl
@[simp] theorem presentCommand_faultLog (w : Word72) (s : State) : (presentCommand w s).faultLog = s.faultLog := rfl
@[simp] theorem presentCommand_history (w : Word72) (s : State) : (presentCommand w s).history = s.history := rfl
@[simp] theorem presentCommand_hostIn (w : Word72) (s : State) : (presentCommand w s).hostIn = .command w :: s.hostIn := rfl

/-! `logFault` -/

@[simp] theorem logFault_cb (e : Err) (s : State) : (logFault e s).cb = s.cb := rfl
@[simp] theorem logFault_w (e : Err) (s : State) : (logFault e s).w = s.w := rfl
@[simp] theorem logFault_r (e : Err) (s : State) : (logFault e s).r = s.r := rfl
@[simp] theorem logFault_faultLog (e : Err) (s : State) : (logFault e s).faultLog = s.faultLog ||| (1#16 <<< e.code.toNat) := rfl
@[simp] theorem logFault_history (e : Err) (s : State) : (logFault e s).history = s.history := rfl
@[simp] theorem logFault_hostIn (e : Err) (s : State) : (logFault e s).hostIn = s.hostIn := rfl

/-! `latchErr`, `raiseErr` -/

@[simp] theorem latchErr_faultLog (e : Err) (s : State) : (latchErr e s).faultLog = s.faultLog := by
  cases e <;> first | rfl | (rename_i u; cases u <;> rfl)
@[simp] theorem latchErr_history (e : Err) (s : State) : (latchErr e s).history = s.history := by
  cases e <;> first | rfl | (rename_i u; cases u <;> rfl)
@[simp] theorem latchErr_hostIn (e : Err) (s : State) : (latchErr e s).hostIn = s.hostIn := by
  cases e <;> first | rfl | (rename_i u; cases u <;> rfl)
@[simp] theorem latchErr_logFault_cb (e e' : Err) (s : State) : (latchErr e (logFault e' s)).cb = (latchErr e s).cb := by
  cases e <;> first | rfl | (rename_i u; cases u <;> rfl)
@[simp] theorem latchErr_logFault_w (e e' : Err) (s : State) : (latchErr e (logFault e' s)).w = (latchErr e s).w := by
  cases e <;> first | rfl | (rename_i u; cases u <;> rfl)
@[simp] theorem latchErr_logFault_r (e e' : Err) (s : State) : (latchErr e (logFault e' s)).r = (latchErr e s).r := by
  cases e <;> first | rfl | (rename_i u; cases u <;> rfl)
@[simp] theorem raiseErr_cb (e : Err) (s : State) : (raiseErr e s).cb = (latchErr e s).cb := by simp [raiseErr]
@[simp] theorem raiseErr_w (e : Err) (s : State) : (raiseErr e s).w = (latchErr e s).w := by simp [raiseErr]
@[simp] theorem raiseErr_r (e : Err) (s : State) : (raiseErr e s).r = (latchErr e s).r := by simp [raiseErr]
@[simp] theorem raiseErr_faultLog (e : Err) (s : State) : (raiseErr e s).faultLog = s.faultLog ||| (1#16 <<< e.code.toNat) := by simp [raiseErr]
@[simp] theorem raiseErr_history (e : Err) (s : State) : (raiseErr e s).history = s.history ++ [.resp (responseWord e.code 0)] := by simp [raiseErr]
@[simp] theorem raiseErr_hostIn (e : Err) (s : State) : (raiseErr e s).hostIn = s.hostIn := by simp [raiseErr]

/-! `hardwareReset` -/

@[simp] theorem hardwareReset_cb (s : State) : (hardwareReset s).cb = State.reset.cb := rfl
@[simp] theorem hardwareReset_w (s : State) : (hardwareReset s).w = Writer.reset := rfl
@[simp] theorem hardwareReset_r (s : State) : (hardwareReset s).r = Reader.reset := rfl
@[simp] theorem hardwareReset_faultLog (s : State) : (hardwareReset s).faultLog = 0 := rfl
@[simp] theorem hardwareReset_history (s : State) : (hardwareReset s).history = [] := rfl
@[simp] theorem hardwareReset_hostIn (s : State) : (hardwareReset s).hostIn = s.hostIn := rfl

/-! `softReset` -/

@[simp] theorem softReset_cb (s : State) : (softReset s).cb = State.reset.cb := rfl
@[simp] theorem softReset_w (s : State) : (softReset s).w = Writer.reset := rfl
@[simp] theorem softReset_r (s : State) : (softReset s).r = Reader.reset := rfl
@[simp] theorem softReset_faultLog (s : State) : (softReset s).faultLog = 0 := rfl
@[simp] theorem softReset_history (s : State) : (softReset s).history = s.history := rfl
@[simp] theorem softReset_hostIn (s : State) : (softReset s).hostIn = s.hostIn := rfl

/-! The views of the history. -/

@[simp] theorem byteOut_record (e : Event) (s : State) : (record e s).byteOut = s.byteOut ++ e.byte?.toList := by
  cases e <;> simp [State.byteOut, Event.byte?, List.filterMap_append]

@[simp] theorem symOut_record (e : Event) (s : State) : (record e s).symOut = s.symOut ++ e.sym?.toList := by
  cases e <;> simp [State.symOut, Event.sym?, List.filterMap_append]

@[simp] theorem responses_record (e : Event) (s : State) : (record e s).responses = s.responses ++ e.resp?.toList := by
  cases e <;> simp [State.responses, Event.resp?, List.filterMap_append]

/-- `BYTE_OUT` depends on the history alone. -/
theorem byteOut_congr {s t : State} (h : t.history = s.history) : t.byteOut = s.byteOut := by
  simp [State.byteOut, h]

/-- `SYM_OUT` depends on the history alone. -/
theorem symOut_congr {s t : State} (h : t.history = s.history) : t.symOut = s.symOut := by
  simp [State.symOut, h]

/-- `CB_LOCKED` is set exactly while a unit is active. -/
theorem cbLocked_eq_true (s : State) : s.cbLocked = true ↔ s.w.active = true ∨ s.r.active = true := by
  simp [State.cbLocked]

/-- `CB_LOCKED` is clear exactly while both units are inactive. -/
theorem cbLocked_eq_false (s : State) : s.cbLocked = false ↔ s.w.active = false ∧ s.r.active = false := by
  simp [State.cbLocked]

/-- `R_DONE` as an equation of the counters. -/
theorem done_eq_true (r : Reader) : r.done = true ↔ r.emitted = r.origLen := by
  simp [Reader.done]

/-- Two states are equal when their six parts are. -/
theorem State.ext_parts {s t : State} (hcb : s.cb = t.cb) (hw : s.w = t.w) (hr : s.r = t.r)
    (hl : s.faultLog = t.faultLog) (hh : s.history = t.history) (hi : s.hostIn = t.hostIn) : s = t := by
  cases s; cases t; simp_all

end Sys2Proof.Machine
end

