-- ==== Sys2Proof/Laws/Store.lean ====
section
/-! SUPPORT. What the two lookups find, and what prefix-freedom gives (10_state.md rule R33). -/

namespace Sys2Proof.Machine

theorem lookupSym_some {cb : Codebook} {x : Byte} {e : Entry} (h : lookupSym cb x = some e) :
    e ∈ cb.entries ∧ e.sym = x :=
  ⟨List.mem_of_find?_eq_some h, by simpa using List.find?_some h⟩

theorem lookupSym_none {cb : Codebook} {x : Byte} :
    lookupSym cb x = none ↔ ∀ e ∈ cb.entries, e.sym ≠ x := by
  simp [lookupSym, List.find?_eq_none]

theorem lookupCode_some {cb : Codebook} {v : CodeWord} {n : BitVec 6} {e : Entry} (h : lookupCode cb v n = some e) :
    e ∈ cb.entries ∧ e.len = n ∧ e.code = v :=
  ⟨List.mem_of_find?_eq_some h, by simpa using List.find?_some h⟩

theorem lookupCode_none {cb : Codebook} {v : CodeWord} {n : BitVec 6} :
    lookupCode cb v n = none ↔ ∀ e ∈ cb.entries, ¬ (e.len = n ∧ e.code = v) := by
  simp [lookupCode, List.find?_eq_none]

theorem codesConflict_comm (c1 : CodeWord) (l1 : Nat) (c2 : CodeWord) (l2 : Nat) :
    codesConflict c1 l1 c2 l2 = codesConflict c2 l2 c1 l1 := by
  simp [codesConflict, Bool.or_comm]

/-- What a store that satisfies rule R33 gives: entry bounds, and no stored code beginning another. -/
structure StoreOk (cb : Codebook) : Prop where
  bounds : ∀ e ∈ cb.entries, 1 ≤ e.len.toNat ∧ e.len.toNat ≤ 32 ∧ e.code.toNat < 2 ^ e.len.toNat
  unique : ∀ a ∈ cb.entries, ∀ b ∈ cb.entries, entryBits a <+: entryBits b → a = b
  syms : ∀ a ∈ cb.entries, ∀ b ∈ cb.entries, a.sym = b.sym → a = b

theorem State.Inv.storeOk {s : State} (h : s.Inv) : StoreOk s.cb where
  bounds e he := (validEntry_iff _ _).1 (h.entriesValid e he)
  unique a ha b hb hab := by
    by_contra hne
    have : Std.Symm fun a b : Entry => codesConflict a.code a.len.toNat b.code b.len.toNat = false :=
      ⟨fun a b h => by rwa [codesConflict_comm]⟩
    have hfree := h.prefixFree.forall ha hb hne
    have hA := ((validEntry_iff _ _).1 (h.entriesValid a ha)).2.2
    have hB := ((validEntry_iff _ _).1 (h.entriesValid b hb)).2.2
    have := (codesConflict_iff hA hB).2 (Or.inl hab)
    simp_all
  syms a ha b hb hab := by
    by_contra hne
    have : Std.Symm fun a b : Entry => a.sym ≠ b.sym := ⟨fun _ _ h => h.symm⟩
    exact h.symsDistinct.forall ha hb hne hab

/-- The entry with a symbol is the one the by-symbol lookup finds. -/
theorem StoreOk.lookupSym_eq {cb : Codebook} (h : StoreOk cb) {e : Entry} (he : e ∈ cb.entries) :
    lookupSym cb e.sym = some e := by
  cases hl : lookupSym cb e.sym with
  | none => exact absurd rfl (lookupSym_none.1 hl e he)
  | some e' =>
    obtain ⟨he', hs⟩ := lookupSym_some hl
    rw [h.syms e' he' e he hs]

/-- The entry with a code is the one the by-code lookup finds. -/
theorem StoreOk.lookupCode_eq {cb : Codebook} (h : StoreOk cb) {e : Entry} (he : e ∈ cb.entries) :
    lookupCode cb e.code e.len = some e := by
  cases hl : lookupCode cb e.code e.len with
  | none => exact absurd ⟨rfl, rfl⟩ (lookupCode_none.1 hl e he)
  | some e' =>
    obtain ⟨he', hn, hv⟩ := lookupCode_some hl
    rw [h.unique e' he' e he (by simp [entryBits, hn, hv])]

/-- Two stored codes that begin the same bit string are the same entry. -/
theorem StoreOk.eq_of_common {cb : Codebook} (h : StoreOk cb) {a b : Entry} (ha : a ∈ cb.entries) (hb : b ∈ cb.entries)
    {l : List Bool} (hal : entryBits a <+: l) (hbl : entryBits b <+: l) : a = b := by
  rcases List.prefix_or_prefix_of_prefix hal hbl with hab | hba
  · exact h.unique a ha b hb hab
  · exact (h.unique b hb a ha hba).symm

/-- A stored code is its number: bit string against (length, value). -/
theorem StoreOk.entryBits_eq_iff {cb : Codebook} (h : StoreOk cb) {e : Entry} (he : e ∈ cb.entries) {bits : List Bool}
    (hl : bits.length ≤ 32) :
    entryBits e = bits ↔ e.len = BitVec.ofNat 6 bits.length ∧ e.code = BitVec.ofNat 32 (bitsValue bits) := by
  obtain ⟨_, h32, hlt⟩ := h.bounds e he
  have hval : bitsValue (entryBits e) = e.code.toNat := by
    rw [entryBits, bitsValue_bitsMsb, Nat.mod_eq_of_lt hlt]
  constructor
  · rintro rfl
    refine ⟨?_, ?_⟩
    · apply BitVec.eq_of_toNat_eq; simp
    · apply BitVec.eq_of_toNat_eq; simp [hval]
  · rintro ⟨hn, hv⟩
    have hn' := congrArg BitVec.toNat hn
    have hv' := congrArg BitVec.toNat hv
    rw [BitVec.toNat_ofNat, Nat.mod_eq_of_lt (by omega)] at hn'
    have hb := bitsValue_lt bits
    have hp : 2 ^ bits.length ≤ 2 ^ 32 := Nat.pow_le_pow_right (by omega) hl
    rw [BitVec.toNat_ofNat, Nat.mod_eq_of_lt (by omega)] at hv'
    exact bits_ext (by simp [hn']) (by rw [hval, hv'])

/-- A stored code is not the empty bit string. -/
theorem StoreOk.entryBits_ne_nil {cb : Codebook} (h : StoreOk cb) {e : Entry} (he : e ∈ cb.entries) :
    entryBits e ≠ [] := by
  intro hnil
  have h0 := congrArg List.length hnil
  have h1 := (h.bounds e he).1
  simp only [length_entryBits, List.length_nil] at h0
  omega

end Sys2Proof.Machine
end

