-- ==== Sys2Proof/Laws/Commands.lean ====
section
/-! SUPPORT. What each command can do, said once per command: the cases of its answer, which later proofs cite instead of
unfolding the meaning. -/

namespace Sys2Proof.Machine

/-- The errors a codebook build can fail with (60_exceptions.md rule R193). -/
def buildErrors : List Err := [.codeTooLong, .zeroLength, .badCodeValue, .dupSymbol, .notPrefixFree]

theorem cbClear_cases {s t : State} (h : exec .cbClear s = .next t) :
    (s.cbLocked = true ∧ t = raiseErr .cbLocked s) ∨
    (s.cbLocked = false ∧ t = respond statusOk 0 { s with cb := { entries := [], err := 0 } }) := by
  simp only [exec, execCbClear, Host.Outcome.next.injEq] at h
  subst h
  cases s.cbLocked <;> simp

theorem cbLoad_cases {sym : Byte} {len : BitVec 8} {code : CodeWord} {s t : State}
    (h : exec (.cbLoad sym len code) s = .next t) :
    (s.cb.err ≠ 0 ∧ t = respond s.cb.err 0 s) ∨
    (s.cb.err = 0 ∧ s.cbLocked = true ∧ t = raiseErr .cbLocked s) ∨
    (s.cb.err = 0 ∧ s.cbLocked = false ∧ ∃ e ∈ buildErrors, t = raiseErr e s) ∨
    (s.cb.err = 0 ∧ s.cbLocked = false ∧ validEntry len.toNat code = true ∧ lookupSym s.cb sym = none ∧
      conflictsWithStore s.cb code len.toNat = false ∧
      t = respond statusOk 0
        { s with cb := { s.cb with entries := s.cb.entries ++ [{ sym := sym, len := len.setWidth 6, code := code }] } }) := by
  simp only [exec, execCbLoad, Host.Outcome.next.injEq] at h
  subst h
  split_ifs with h1 h2 h3 h4 h5 h6 h7
  · exact .inl ⟨h1, rfl⟩
  · exact .inr (.inl ⟨by simpa using h1, h2, rfl⟩)
  · exact .inr (.inr (.inl ⟨by simpa using h1, by simpa using h2, .zeroLength, by simp [buildErrors], rfl⟩))
  · exact .inr (.inr (.inl ⟨by simpa using h1, by simpa using h2, .codeTooLong, by simp [buildErrors], rfl⟩))
  · exact .inr (.inr (.inl ⟨by simpa using h1, by simpa using h2, .badCodeValue, by simp [buildErrors], rfl⟩))
  · exact .inr (.inr (.inl ⟨by simpa using h1, by simpa using h2, .dupSymbol, by simp [buildErrors], rfl⟩))
  · exact .inr (.inr (.inl ⟨by simpa using h1, by simpa using h2, .notPrefixFree, by simp [buildErrors], rfl⟩))
  · refine .inr (.inr (.inr ⟨by simpa using h1, by simpa using h2, ?_, by simpa using h6, by simpa using h7, rfl⟩))
    simp only [Config.maxLen] at h4
    rw [validEntry_iff]
    omega

theorem encInit_cases {s t : State} (h : exec .encInit s = .next t) :
    (s.cb.err ≠ 0 ∧ t = raiseErr .cbInvalid s) ∨
    (s.cb.err = 0 ∧ t = respond statusOk 0 { s with w := freshWriter }) := by
  simp only [exec, execEncInit, Host.Outcome.next.injEq] at h
  subst h
  split_ifs with hc
  · exact .inl ⟨hc, rfl⟩
  · exact .inr ⟨by simpa using hc, rfl⟩

/-- Appending bits changes nothing but the pending bits, and emits bytes only. -/
theorem appendBits_frame (bits : List Bool) (s : State) :
    (appendBits bits s).cb = s.cb ∧ (appendBits bits s).r = s.r ∧ (appendBits bits s).faultLog = s.faultLog ∧
    (appendBits bits s).hostIn = s.hostIn ∧ (appendBits bits s).w.err = s.w.err ∧
    (appendBits bits s).w.active = s.w.active ∧ (appendBits bits s).w.total = s.w.total ∧
    ∃ bytes : List Byte, (appendBits bits s).history = s.history ++ bytes.map .outByte := by
  induction bits generalizing s with
  | nil => exact ⟨rfl, rfl, rfl, rfl, rfl, rfl, rfl, [], by simp [appendBits]⟩
  | cons b bs ih =>
    have h1 : (appendBit b s).cb = s.cb ∧ (appendBit b s).r = s.r ∧ (appendBit b s).faultLog = s.faultLog ∧
        (appendBit b s).hostIn = s.hostIn ∧ (appendBit b s).w.err = s.w.err ∧ (appendBit b s).w.active = s.w.active ∧
        (appendBit b s).w.total = s.w.total ∧
        ∃ bytes : List Byte, (appendBit b s).history = s.history ++ bytes.map .outByte := by
      unfold appendBit
      dsimp only
      split
      · exact ⟨rfl, rfl, rfl, rfl, rfl, rfl, rfl, [_], rfl⟩
      · exact ⟨rfl, rfl, rfl, rfl, rfl, rfl, rfl, [], by simp⟩
    obtain ⟨a1, a2, a3, a4, a5, a6, a7, x, a8⟩ := h1
    obtain ⟨b1, b2, b3, b4, b5, b6, b7, y, b8⟩ := ih (appendBit b s)
    simp only [appendBits]
    exact ⟨by rw [b1, a1], by rw [b2, a2], by rw [b3, a3], by rw [b4, a4], by rw [b5, a5], by rw [b6, a6], by rw [b7, a7],
      x ++ y, by rw [b8, a8]; simp⟩

theorem encSym_cases {x : Byte} {s t : State} (h : exec (.encSym x) s = .next t) :
    (s.w.err ≠ 0 ∧ t = respond s.w.err 0 s) ∨
    (s.w.err = 0 ∧ s.w.active = false ∧ t = raiseErr .notActive s) ∨
    (s.w.err = 0 ∧ s.w.active = true ∧ lookupSym s.cb x = none ∧ t = raiseErr .noSymbol s) ∨
    (s.w.err = 0 ∧ s.w.active = true ∧ ∃ e ∈ s.cb.entries, e.sym = x ∧ lookupSym s.cb x = some e ∧
      ((s.w.total.toNat + e.len.toNat > 2 ^ 64 - 1 ∧ t = raiseErr (.countOverflow .writer) s) ∨
        (s.w.total.toNat + e.len.toNat ≤ 2 ^ 64 - 1 ∧ t = respond statusOk 0 (appendCode e s)))) := by
  simp only [exec, execEncSym, Host.Outcome.next.injEq] at h
  subst h
  split_ifs with h1 h2
  · exact .inl ⟨h1, rfl⟩
  · exact .inr (.inl ⟨by simpa using h1, h2, rfl⟩)
  · cases hl : lookupSym s.cb x with
    | none => exact .inr (.inr (.inl ⟨by simpa using h1, by simpa using h2, rfl, rfl⟩))
    | some e =>
      refine .inr (.inr (.inr ⟨by simpa using h1, by simpa using h2, e, (lookupSym_some hl).1, (lookupSym_some hl).2, rfl, ?_⟩))
      dsimp only
      split
      · rename_i hgt; exact .inl ⟨hgt, rfl⟩
      · rename_i hle; exact .inr ⟨by omega, rfl⟩

theorem encFlush_cases {s t : State} (h : exec .encFlush s = .next t) :
    (s.w.err ≠ 0 ∧ t = respond s.w.err 0 s) ∨
    (s.w.err = 0 ∧ s.w.active = false ∧ t = raiseErr .notActive s) ∨
    (s.w.err = 0 ∧ s.w.active = true ∧ s.w.cnt = 0 ∧
      t = respond statusOk s.w.total { s with w := { s.w with active := false } }) ∨
    (s.w.err = 0 ∧ s.w.active = true ∧ s.w.cnt ≠ 0 ∧
      t = respond statusOk s.w.total
        (emitByte (flushByte s.w) { s with w := { s.w with active := false, acc := 0, cnt := 0 } })) := by
  simp only [exec, execEncFlush, Host.Outcome.next.injEq] at h
  subst h
  split_ifs with h1 h2
  · exact .inl ⟨h1, rfl⟩
  · exact .inr (.inl ⟨by simpa using h1, h2, rfl⟩)
  · by_cases h3 : s.w.cnt = 0
    · refine .inr (.inr (.inl ⟨by simpa using h1, by simpa using h2, h3, ?_⟩))
      rw [flushPending, if_pos h3]
    · refine .inr (.inr (.inr ⟨by simpa using h1, by simpa using h2, h3, ?_⟩))
      rw [flushPending, if_neg h3]
      rfl

theorem decInit_cases {n : Count} {s t : State} (h : exec (.decInit n) s = .next t) :
    (s.cb.err ≠ 0 ∧ t = raiseErr .cbInvalid s) ∨
    (s.cb.err = 0 ∧ t = respond statusOk (flagData (n == 0)) { s with r := freshReader n }) := by
  simp only [exec, execDecInit, Host.Outcome.next.injEq] at h
  subst h
  split_ifs with hc
  · exact .inl ⟨hc, rfl⟩
  · exact .inr ⟨by simpa using hc, rfl⟩

/-- What folding bits leaves alone: all but the reader's held bits and counters; it emits symbols only, at most one a bit. -/
theorem foldBits_frame (bits : List Bool) (s : State) :
    (foldBits bits s).1.cb = s.cb ∧ (foldBits bits s).1.w = s.w ∧ (foldBits bits s).1.faultLog = s.faultLog ∧
    (foldBits bits s).1.hostIn = s.hostIn ∧ (foldBits bits s).1.r.err = s.r.err ∧
    (foldBits bits s).1.r.active = s.r.active ∧ (foldBits bits s).1.r.origLen = s.r.origLen ∧
    (∀ e, (foldBits bits s).2 = some e → e = .noMatch ∨ e = .countOverflow .reader) ∧
    ∃ syms : List Byte, syms.length ≤ bits.length ∧ (foldBits bits s).1.history = s.history ++ syms.map .outSym := by
  induction bits generalizing s with
  | nil => exact ⟨rfl, rfl, rfl, rfl, rfl, rfl, rfl, by simp [foldBits], [], by simp, by simp [foldBits]⟩
  | cons b bs ih =>
    have h1 : (foldBit b s).1.cb = s.cb ∧ (foldBit b s).1.w = s.w ∧ (foldBit b s).1.faultLog = s.faultLog ∧
        (foldBit b s).1.hostIn = s.hostIn ∧ (foldBit b s).1.r.err = s.r.err ∧ (foldBit b s).1.r.active = s.r.active ∧
        (foldBit b s).1.r.origLen = s.r.origLen ∧
        (∀ e, (foldBit b s).2 = some e → e = .noMatch ∨ e = .countOverflow .reader) ∧
        ∃ syms : List Byte, syms.length ≤ 1 ∧ (foldBit b s).1.history = s.history ++ syms.map .outSym := by
      unfold foldBit
      split
      · exact ⟨rfl, rfl, rfl, rfl, rfl, rfl, rfl, by simp, [], by simp, by simp⟩
      · dsimp only
        split
        · rename_i e _
          exact ⟨rfl, rfl, rfl, rfl, rfl, rfl, rfl, by simp, [e.sym], by simp, by simp⟩
        · split
          · exact ⟨rfl, rfl, rfl, rfl, rfl, rfl, rfl, by simp, [], by simp, by simp⟩
          · exact ⟨rfl, rfl, rfl, rfl, rfl, rfl, rfl, by simp, [], by simp, by simp⟩
    simp only [foldBits]
    split
    · exact ⟨rfl, rfl, rfl, rfl, rfl, rfl, rfl, by simp, [], by simp, by simp⟩
    · rcases hf : foldBit b s with ⟨s1, _ | e1⟩
      · rw [hf] at h1
        obtain ⟨a1, a2, a3, a4, a5, a6, a7, _, x, hx, a9⟩ := h1
        obtain ⟨b1, b2, b3, b4, b5, b6, b7, b8, y, hy, b9⟩ := ih s1
        simp only at a1 a2 a3 a4 a5 a6 a7 a9 ⊢
        exact ⟨by rw [b1, a1], by rw [b2, a2], by rw [b3, a3], by rw [b4, a4], by rw [b5, a5], by rw [b6, a6], by rw [b7, a7],
          b8, x ++ y, by simp; omega, by rw [b9, a9]; simp⟩
      · rw [hf] at h1
        obtain ⟨a1, a2, a3, a4, a5, a6, a7, a8, x, hx, a9⟩ := h1
        exact ⟨a1, a2, a3, a4, a5, a6, a7, a8, x, by simp; omega, a9⟩

theorem decByte_cases {b : Byte} {s t : State} (h : exec (.decByte b) s = .next t) :
    (s.r.err ≠ 0 ∧ t = respond s.r.err 0 s) ∨
    (s.r.err = 0 ∧ s.r.active = false ∧ t = raiseErr .notActive s) ∨
    (s.r.err = 0 ∧ s.r.active = true ∧ s.r.done = true ∧ t = raiseErr .overrun s) ∨
    (s.r.err = 0 ∧ s.r.active = true ∧ s.r.done = false ∧ ∃ s', foldBits (bitsMsb 8 b) s = (s', none) ∧
      t = respond statusOk (flagData s'.r.done) s') ∨
    (s.r.err = 0 ∧ s.r.active = true ∧ s.r.done = false ∧ ∃ s' e, foldBits (bitsMsb 8 b) s = (s', some e) ∧
      (e = .noMatch ∨ e = .countOverflow .reader) ∧ t = raiseErr e s') := by
  simp only [exec, execDecByte, Host.Outcome.next.injEq] at h
  subst h
  split_ifs with h1 h2 h3
  · exact .inl ⟨h1, rfl⟩
  · exact .inr (.inl ⟨by simpa using h1, h2, rfl⟩)
  · exact .inr (.inr (.inl ⟨by simpa using h1, by simpa using h2, h3, rfl⟩))
  · have herr := (foldBits_frame (bitsMsb 8 b) s).2.2.2.2.2.2.2.1
    rcases hf : foldBits (bitsMsb 8 b) s with ⟨s', _ | e⟩
    · exact .inr (.inr (.inr (.inl ⟨by simpa using h1, by simpa using h2, by simpa using h3, s', rfl, rfl⟩)))
    · rw [hf] at herr
      exact .inr (.inr (.inr (.inr ⟨by simpa using h1, by simpa using h2, by simpa using h3, s', e, rfl, herr e rfl, rfl⟩)))

theorem decEnd_cases {s t : State} (h : exec .decEnd s = .next t) :
    (s.r.err ≠ 0 ∧ t = respond s.r.err 0 s) ∨
    (s.r.err = 0 ∧ s.r.active = false ∧ t = raiseErr .notActive s) ∨
    (s.r.err = 0 ∧ s.r.active = true ∧ s.r.done = false ∧ t = raiseErr .truncated s) ∨
    (s.r.err = 0 ∧ s.r.active = true ∧ s.r.done = true ∧
      t = respond statusOk s.r.bits { s with r := { s.r with active := false } }) := by
  simp only [exec, execDecEnd, Host.Outcome.next.injEq] at h
  subst h
  split_ifs with h1 h2 h3
  · exact .inl ⟨h1, rfl⟩
  · exact .inr (.inl ⟨by simpa using h1, h2, rfl⟩)
  · exact .inr (.inr (.inl ⟨by simpa using h1, by simpa using h2, h3, rfl⟩))
  · exact .inr (.inr (.inr ⟨by simpa using h1, by simpa using h2, by simpa using h3, rfl⟩))

theorem statGet_cases {reg : BitVec 4} {s t : State} (h : exec (.statGet reg) s = .next t) :
    (reg.toNat ≤ 9 ∧ t = respond statusOk (statusRegister s reg) s) ∨
    (9 < reg.toNat ∧ t = raiseErr .illegalCmd s) := by
  simp only [exec, execStatGet, Host.Outcome.next.injEq] at h
  subst h
  split_ifs with h1
  · exact .inl ⟨h1, rfl⟩
  · exact .inr ⟨by omega, rfl⟩

theorem sreset_cases {s t : State} (h : exec .sreset s = .next t) : t = respond statusOk 0 (softReset s) := by
  simpa [exec, execSreset] using h.symm

end Sys2Proof.Machine
end

