-- ==== Sys2Proof/Laws/Decode.lean ====
section
/-! SUPPORT. The command word's two fields: reading them off a packed word, and a word as its two fields. -/

namespace Sys2Proof

theorem opField_commandWord (op : Byte) (arg : Count) : opField (commandWord op arg) = op := by
  apply BitVec.eq_of_getLsbD_eq
  intro i hi
  simp only [opField, commandWord, BitVec.getLsbD_extractLsb', BitVec.getLsbD_append]
  simp [hi]

theorem argField_commandWord (op : Byte) (arg : Count) : argField (commandWord op arg) = arg := by
  apply BitVec.eq_of_getLsbD_eq
  intro i hi
  simp only [argField, commandWord, BitVec.getLsbD_extractLsb', BitVec.getLsbD_append]
  simp [hi]

theorem commandWord_fields (w : Word72) : commandWord (opField w) (argField w) = w := by
  apply BitVec.eq_of_getLsbD_eq
  intro i hi
  simp only [opField, argField, commandWord, BitVec.getLsbD_extractLsb', BitVec.getLsbD_append]
  by_cases h : i < 64
  · simp [h]
  · have h8 : i - 64 < 8 := by omega
    have : 64 + (i - 64) = i := by omega
    simp [h, h8, this]

/-- The low and the high part of a packed field pair. -/
theorem extract_append_low {a b : Nat} (x : BitVec a) (y : BitVec b) : (x ++ y).extractLsb' 0 b = y := by
  apply BitVec.eq_of_getLsbD_eq
  intro i hi
  simp [BitVec.getLsbD_append, hi]

theorem extract_append_high {a b : Nat} (x : BitVec a) (y : BitVec b) : (x ++ y).extractLsb' b a = x := by
  apply BitVec.eq_of_getLsbD_eq
  intro i hi
  simp [BitVec.getLsbD_append, hi]

/-- A word is its high part packed above its low part. -/
theorem append_extract {a b : Nat} (x : BitVec (a + b)) : x.extractLsb' b a ++ x.extractLsb' 0 b = x := by
  apply BitVec.eq_of_getLsbD_eq
  intro i hi
  simp only [BitVec.getLsbD_append, BitVec.getLsbD_extractLsb']
  by_cases h : i < b
  · simp [h]
  · have h1 : i - b < a := by omega
    have h2 : b + (i - b) = i := by omega
    simp [h, h1, h2]

/-- What the reserved-bits check answers. -/
theorem reservedZero_ok {n : Nat} (v : BitVec n) (i j : Instr) :
    reservedZero v i = .ok j ↔ v = 0#n ∧ i = j := by
  unfold reservedZero
  split <;> simp_all

/-- The four fields of a packed `CB.LOAD` operand. -/
theorem load_fields (sym len : BitVec 8) (code : BitVec 32) :
    (0#16 ++ sym ++ len ++ code : BitVec 64).extractLsb' 48 16 = 0 ∧
    (0#16 ++ sym ++ len ++ code : BitVec 64).extractLsb' 40 8 = sym ∧
    (0#16 ++ sym ++ len ++ code : BitVec 64).extractLsb' 32 8 = len ∧
    (0#16 ++ sym ++ len ++ code : BitVec 64).extractLsb' 0 32 = code := by
  refine ⟨?_, ?_, ?_, ?_⟩ <;> apply BitVec.eq_of_getLsbD_eq <;> intro i hi <;>
    simp only [BitVec.getLsbD_extractLsb', BitVec.getLsbD_append]
  · have h1 : ¬ 48 + i < 32 := by omega
    have h2 : ¬ 48 + i - 32 < 8 := by omega
    have h3 : ¬ 48 + i - 32 - 8 < 8 := by omega
    simp [h1, h2, h3]
  · have h1 : ¬ 40 + i < 32 := by omega
    have h2 : ¬ 40 + i - 32 < 8 := by omega
    have h3 : 40 + i - 32 - 8 = i := by omega
    simp [hi, h1, h2, h3]
  · have h1 : ¬ 32 + i < 32 := by omega
    have h3 : 32 + i - 32 = i := by omega
    simp [hi]
  · simp [hi]

/-- A `CB.LOAD` operand whose reserved bits are 0 is its three fields packed. -/
theorem load_packed (a : BitVec 64) (h : a.extractLsb' 48 16 = 0#16) :
   (0#16 ++ a.extractLsb' 40 8 ++ a.extractLsb' 32 8 ++ a.extractLsb' 0 32 : BitVec 64) = a := by
  apply BitVec.eq_of_getLsbD_eq; intro i hi
  simp only [BitVec.getLsbD_extractLsb', BitVec.getLsbD_append]
  by_cases h1 : i < 32
  · simp [h1]
  by_cases h2 : i - 32 < 8
  · have : 32 + (i-32) = i := by omega
    simp [h1, h2, this]
  by_cases h3 : i - 32 - 8 < 8
  · have : 40 + (i-32-8) = i := by omega
    simp [h1, h2, h3, this]
  · have h4 := congrArg (fun v => v.getLsbD (i - 48)) h
    have h5 : i - 48 < 16 := by omega
    have h6 : 48 + (i - 48) = i := by omega
    simp [h5, h6] at h4
    simp [h1, h2, h3, h4]

/-- The one operand check of a legal command. -/
theorem wellFormed_statGet (reg : BitVec 4) : (Instr.statGet reg).WellFormed ↔ reg.toNat ≤ 9 := by
  simp [Instr.WellFormed, Instr.wellFormed]

end Sys2Proof
end

