-- ==== Sys2Proof/Laws/PerInstr.lean ====
section
/-! SUPPORT. The per-instruction family `RowFits`: every command's word fits its own row of the opcode table. -/

namespace Sys2Proof.Laws.RowFits

/-- A command's row of spec/opcode_table.json (the rows stand in `opcodeTable`). -/
def rowIndex : Instr → Nat
  | .cbClear => 0
  | .cbLoad _ _ _ => 1
  | .encInit => 2
  | .encSym _ => 3
  | .encFlush => 4
  | .decInit _ => 5
  | .decByte _ => 6
  | .decEnd => 7
  | .statGet _ => 8
  | .sreset => 9

/-- The command's word, whatever its operands, has the fixed bits of the command's row (30_encoding.md rules R61, R62, R72). -/
def Statement (i : Instr) : Prop := ∃ row, opcodeTable[rowIndex i]? = some row ∧ row.fits (encode i) = true

/-- A word with the opcode `op` masked by `{0xFF, argMask}`. -/
theorem masked_word (op : Byte) (arg argMask : Count) (h : arg &&& argMask = 0) :
    commandWord op arg &&& (0xFF#8 ++ argMask) = commandWord op 0 := by
  refine (BitVec.and_append (x₁ := op) (x₂ := BitVec.allOnes 8) (y₁ := arg) (y₂ := argMask)).trans ?_
  rw [BitVec.and_allOnes, h]
  rfl

theorem cbClear : Statement .cbClear := ⟨_, rfl, by decide⟩

theorem cbLoad (sym : Byte) (len : BitVec 8) (code : CodeWord) : Statement (.cbLoad sym len code) := by
  refine ⟨_, rfl, ?_⟩
  have h : (0#16 ++ sym ++ len ++ code : BitVec 64) &&& (0xFFFF#16 ++ 0#8 ++ 0#8 ++ 0#32) = 0#64 := by
    simp only [BitVec.and_append, BitVec.and_zero, BitVec.zero_and]
    decide
  exact beq_iff_eq.2 (masked_word 0x02 _ _ h)

theorem encInit : Statement .encInit := ⟨_, rfl, by decide⟩

theorem encSym (sym : Byte) : Statement (.encSym sym) := by
  refine ⟨_, rfl, ?_⟩
  have h : (0#56 ++ sym : BitVec 64) &&& (0xFFFFFFFFFFFFFF#56 ++ 0#8) = 0#64 := by
    simp only [BitVec.and_append, BitVec.and_zero, BitVec.zero_and]
    decide
  exact beq_iff_eq.2 (masked_word 0x11 _ _ h)

theorem encFlush : Statement .encFlush := ⟨_, rfl, by decide⟩

theorem decInit (origLen : Count) : Statement (.decInit origLen) :=
  ⟨_, rfl, beq_iff_eq.2 (masked_word 0x20 _ 0 BitVec.and_zero)⟩

theorem decByte (byte : Byte) : Statement (.decByte byte) := by
  refine ⟨_, rfl, ?_⟩
  have h : (0#56 ++ byte : BitVec 64) &&& (0xFFFFFFFFFFFFFF#56 ++ 0#8) = 0#64 := by
    simp only [BitVec.and_append, BitVec.and_zero, BitVec.zero_and]
    decide
  exact beq_iff_eq.2 (masked_word 0x21 _ _ h)

theorem decEnd : Statement .decEnd := ⟨_, rfl, by decide⟩

theorem statGet (reg : BitVec 4) : Statement (.statGet reg) := by
  refine ⟨_, rfl, ?_⟩
  have h : (0#60 ++ reg : BitVec 64) &&& (0xFFFFFFFFFFFFFFF#60 ++ 0#4) = 0#64 := by
    simp only [BitVec.and_append, BitVec.and_zero, BitVec.zero_and]
    decide
  exact beq_iff_eq.2 (masked_word 0x30 _ _ h)

theorem sreset : Statement .sreset := ⟨_, rfl, by decide⟩

end Sys2Proof.Laws.RowFits
end

