-- ==== Sys2Proof/Laws/Reader.lean ====
section
/-! SUPPORT. What the reader's operations do, on bit strings: one fold, and the greedy parse of many (42_reader_commands.md rules
R131, R133, R135). -/

namespace Sys2Proof.Machine

/-- The bits the reader holds, first-consumed first (10_state.md rule R21). -/
def heldBits (r : Reader) : List Bool := bitsMsb r.cnt.toNat r.acc

@[simp] theorem length_heldBits (r : Reader) : (heldBits r).length = r.cnt.toNat := by simp [heldBits]

/-- The reader with the held bits `bits`. -/
def withHeld (r : Reader) (bits : List Bool) : Reader :=
  { r with acc := BitVec.ofNat 32 (bitsValue bits), cnt := BitVec.ofNat 6 bits.length }

theorem heldBits_withHeld (r : Reader) {bits : List Bool} (h : bits.length ≤ 32) :
    heldBits (withHeld r bits) = bits := by
  have hm : (BitVec.ofNat 6 bits.length).toNat = bits.length := by
    rw [BitVec.toNat_ofNat]; omega
  simp only [heldBits, withHeld, hm]
  exact bitsMsb_of_value bits h

theorem withHeld_heldBits {r : Reader} (h : r.acc.toNat < 2 ^ r.cnt.toNat) : withHeld r (heldBits r) = r := by
  simp only [withHeld, length_heldBits]
  have h1 : BitVec.ofNat 32 (bitsValue (heldBits r)) = r.acc := by
    rw [heldBits, bitsValue_bitsMsb, Nat.mod_eq_of_lt h]; simp
  rw [h1]
  simp

theorem withHeld_fits (r : Reader) {bits : List Bool} (h : bits.length ≤ 32) :
    (withHeld r bits).acc.toNat < 2 ^ (withHeld r bits).cnt.toNat := by
  simp only [withHeld]
  rw [BitVec.toNat_ofNat, BitVec.toNat_ofNat, Nat.mod_eq_of_lt (a := bits.length) (by omega)]
  exact lt_of_le_of_lt (Nat.mod_le _ _) (bitsValue_lt _)

/-- What a fold needs to behave as rule R131 has it. -/
structure FoldReady (s : State) : Prop where
  store : StoreOk s.cb
  fits : s.r.acc.toNat < 2 ^ s.r.cnt.toNat
  room : s.r.cnt.toNat < 32

/-- The shifted accumulator and count of a fold are the held bits with the new one. -/
theorem fold_key {s : State} (h : FoldReady s) (b : Bool) :
    (s.r.acc <<< 1) ||| (BitVec.ofBool b).setWidth 32 = BitVec.ofNat 32 (bitsValue (heldBits s.r ++ [b])) ∧
      s.r.cnt + 1 = BitVec.ofNat 6 (heldBits s.r ++ [b]).length := by
  have hb : b.toNat < 2 := by cases b <;> simp
  have hroom := h.room
  have hfits := h.fits
  have hpow : 2 ^ s.r.cnt.toNat ≤ 2 ^ 31 := Nat.pow_le_pow_right (by omega) (by omega)
  have hshift := toNat_shift_in (k := 32) s.r.acc b (by omega) (by omega)
  have hval : bitsValue (heldBits s.r ++ [b]) = 2 * s.r.acc.toNat + b.toNat := by
    rw [bitsValue_append, heldBits, bitsValue_bitsMsb, Nat.mod_eq_of_lt h.fits]
    simp [bitsValue_cons]; ring
  constructor
  · apply BitVec.eq_of_toNat_eq
    rw [hshift, hval, BitVec.toNat_ofNat, Nat.mod_eq_of_lt (by omega)]
  · apply BitVec.eq_of_toNat_eq
    simp [BitVec.toNat_add]

/-- A fold at a full bit count raises and folds nothing. -/
theorem foldBit_overflow {s : State} (h : s.r.bits.toNat = 2 ^ 64 - 1) (b : Bool) :
    foldBit b s = (s, some (.countOverflow .reader)) := by
  rw [foldBit, if_pos h]

/-- A fold that completes a stored code emits its symbol. -/
theorem foldBit_match {s : State} (h : FoldReady s) (hb : s.r.bits.toNat ≠ 2 ^ 64 - 1) {b : Bool} {e : Entry}
    (he : e ∈ s.cb.entries) (heq : entryBits e = heldBits s.r ++ [b]) :
    foldBit b s = ({ s with
      r := { s.r with acc := 0, cnt := 0, bits := s.r.bits + 1, emitted := s.r.emitted + 1 }
      history := s.history ++ [.outSym e.sym] }, none) := by
  have hroom := h.room
  obtain ⟨hacc, hcnt⟩ := fold_key h b
  have hl : (heldBits s.r ++ [b]).length ≤ 32 := by simp; omega
  obtain ⟨hn, hv⟩ := (h.store.entryBits_eq_iff he hl).1 heq
  have hfound := h.store.lookupCode_eq he
  simp only [foldBit, if_neg hb, hacc, hcnt, ← hn, ← hv, hfound]
  rfl

/-- A fold that completes no stored code holds the bit, and raises when the accumulator is full. -/
theorem foldBit_hold {s : State} (h : FoldReady s) (hb : s.r.bits.toNat ≠ 2 ^ 64 - 1) {b : Bool}
    (hno : ∀ e ∈ s.cb.entries, entryBits e ≠ heldBits s.r ++ [b]) :
    foldBit b s = ({ s with r := { withHeld s.r (heldBits s.r ++ [b]) with bits := s.r.bits + 1 } },
      if (heldBits s.r ++ [b]).length = 32 then some .noMatch else none) := by
  have hroom := h.room
  obtain ⟨hacc, hcnt⟩ := fold_key h b
  have hl : (heldBits s.r ++ [b]).length ≤ 32 := by simp; omega
  have hnone : lookupCode s.cb (BitVec.ofNat 32 (bitsValue (heldBits s.r ++ [b])))
      (BitVec.ofNat 6 (heldBits s.r ++ [b]).length) = none := by
    rw [lookupCode_none]
    intro e he hk
    exact hno e he ((h.store.entryBits_eq_iff he hl).2 hk)
  have hm : (BitVec.ofNat 6 (heldBits s.r ++ [b]).length).toNat = (heldBits s.r ++ [b]).length := by
    rw [BitVec.toNat_ofNat]; omega
  simp only [foldBit, if_neg hb, hacc, hcnt, hnone, hm, Config.maxLen]
  split <;> simp [withHeld]

/-- What the greedy loop of `DEC.BYTE` starts from: a decode not done, its held bits begun by no stored code. -/
structure ParseReady (s : State) : Prop extends FoldReady s where
  unmatched : ∀ e ∈ s.cb.entries, ¬ entryBits e <+: heldBits s.r
  notDone : s.r.emitted.toNat < s.r.origLen.toNat

theorem toNat_succ_count (v : Count) (h : v.toNat ≠ 2 ^ 64 - 1) : (v + 1).toNat = v.toNat + 1 := by
  have := v.isLt
  rw [BitVec.toNat_add]
  simp
  omega

theorem count_ext {v : Count} {n : Nat} (h : v.toNat = n) : v = BitVec.ofNat 64 n := by
  subst h; simp

/-- A done reader takes no further bit. -/
theorem foldBits_done {s : State} (h : s.r.done = true) (bits : List Bool) : foldBits bits s = (s, none) := by
  cases bits <;> simp [foldBits, h]

/-- One round of the loop of a reader that is not done. -/
theorem foldBits_cons {s : State} (h : s.r.emitted.toNat < s.r.origLen.toNat) (b : Bool) (bs : List Bool) :
    foldBits (b :: bs) s =
      match foldBit b s with
      | (s', some e) => (s', some e)
      | (s', none) => foldBits bs s' := by
  have : s.r.done = false := by
    rw [Bool.eq_false_iff, Ne, done_eq_true]
    intro heq
    rw [heq] at h
    omega
  simp only [foldBits, this]
  rcases foldBit b s with ⟨s', _ | e⟩ <;> rfl

/-- Folding a string of bits is folding its parts in turn, unless the first part ends the command. -/
theorem foldBits_append (xs ys : List Bool) (s : State) :
    foldBits (xs ++ ys) s =
      match foldBits xs s with
      | (s', some e) => (s', some e)
      | (s', none) => foldBits ys s' := by
  induction xs generalizing s with
  | nil => rfl
  | cons b bs ih =>
    cases hd : s.r.done with
    | true => simp [foldBits, hd, foldBits_done hd]
    | false =>
      simp only [List.cons_append, foldBits, hd]
      rcases foldBit b s with ⟨s', _ | e⟩
      · exact ih s'
      · rfl

/-- The state after the reader has matched the codes `es` and taken `taken` bits, holding `held`. -/
def afterParse (s : State) (es : List Entry) (taken : Nat) (held : List Bool) : State :=
  { s with
    r := { withHeld s.r held with
      emitted := BitVec.ofNat 64 (s.r.emitted.toNat + es.length)
      bits := BitVec.ofNat 64 (s.r.bits.toNat + taken) }
    history := s.history ++ es.map fun e => .outSym e.sym }

theorem afterParse_match (s : State) (e : Entry) (es : List Entry) (n : Nat) (held : List Bool)
    (hb : s.r.bits.toNat ≠ 2 ^ 64 - 1) (hd : s.r.emitted.toNat < s.r.origLen.toNat) :
    afterParse { s with
        r := { s.r with acc := 0, cnt := 0, bits := s.r.bits + 1, emitted := s.r.emitted + 1 }
        history := s.history ++ [.outSym e.sym] } es n held = afterParse s (e :: es) (n + 1) held := by
  have h1 := toNat_succ_count _ hb
  have hlt := s.r.origLen.isLt
  have h2 := toNat_succ_count s.r.emitted (by omega)
  have e1 : s.r.emitted.toNat + 1 + es.length = s.r.emitted.toNat + (es.length + 1) := by omega
  have e2 : s.r.bits.toNat + 1 + n = s.r.bits.toNat + (n + 1) := by omega
  simp only [afterParse, withHeld, h1, h2, e1, e2, List.map_cons, List.length_cons, List.append_assoc,
    List.singleton_append]

theorem afterParse_hold (s : State) (bits : List Bool) (es : List Entry) (n : Nat) (held : List Bool)
    (hb : s.r.bits.toNat ≠ 2 ^ 64 - 1) :
    afterParse { s with r := { withHeld s.r bits with bits := s.r.bits + 1 } } es n held = afterParse s es (n + 1) held := by
  have h1 := toNat_succ_count _ hb
  have e2 : s.r.bits.toNat + 1 + n = s.r.bits.toNat + (n + 1) := by omega
  simp only [afterParse, withHeld, h1, e2]

/-- A reader that has just matched is ready again unless it is done. -/
theorem ParseReady.afterMatch {s : State} (h : ParseReady s) (e : Entry)
    (hd : s.r.emitted.toNat + 1 < s.r.origLen.toNat) :
    ParseReady { s with
        r := { s.r with acc := 0, cnt := 0, bits := s.r.bits + 1, emitted := s.r.emitted + 1 }
        history := s.history ++ [.outSym e.sym] } where
  store := h.store
  fits := by simp
  room := by simp
  unmatched a ha := by
    have hne := h.store.entryBits_ne_nil ha
    simpa [heldBits] using hne
  notDone := by
    have hlt := s.r.origLen.isLt
    have := toNat_succ_count s.r.emitted (by omega)
    simp only [this]
    exact hd

/-- A reader that holds one more unmatched bit is ready while it has room. -/
theorem ParseReady.afterHold {s : State} (h : ParseReady s) {b : Bool}
    (hno : ∀ e ∈ s.cb.entries, entryBits e ≠ heldBits s.r ++ [b]) (hroom : (heldBits s.r ++ [b]).length < 32) :
    ParseReady { s with r := { withHeld s.r (heldBits s.r ++ [b]) with bits := s.r.bits + 1 } } where
  store := h.store
  fits := withHeld_fits s.r (by omega)
  room := by
    simp only [withHeld]
    rw [BitVec.toNat_ofNat]
    omega
  unmatched e he := by
    have : heldBits { withHeld s.r (heldBits s.r ++ [b]) with bits := s.r.bits + 1 } = heldBits s.r ++ [b] :=
      heldBits_withHeld s.r (by omega)
    simp only [this]
    intro hp
    rcases List.prefix_concat_iff.1 hp with hp' | hp'
    · exact hno e he hp'
    · exact h.unmatched e he hp'
  notDone := h.notDone

/-- The greedy loop when the parse completes the decode: the rest of the bits is padding. -/
theorem foldBits_completes {s : State} (h : ParseReady s) (bits : List Bool) (es : List Entry) (rest : List Bool)
    (hes : ∀ e ∈ es, e ∈ s.cb.entries) (hparse : heldBits s.r ++ bits = es.flatMap entryBits ++ rest)
    (hcount : s.r.bits.toNat + bits.length ≤ 2 ^ 64 - 1) (hn : s.r.emitted.toNat + es.length = s.r.origLen.toNat) :
    foldBits bits s = (afterParse s es ((es.flatMap entryBits).length - s.r.cnt.toNat) [], none) := by
  induction bits generalizing s es with
  | nil =>
    have hnd := h.notDone
    cases es with
    | nil => simp at hn; omega
    | cons e es =>
      exfalso
      apply h.unmatched e (hes e (by simp))
      simp only [List.append_nil, List.flatMap_cons, List.append_assoc] at hparse
      exact ⟨_, hparse.symm⟩
  | cons b bs ih =>
    have hnd := h.notDone
    have hlen : (b :: bs).length = bs.length + 1 := rfl
    have hb : s.r.bits.toNat ≠ 2 ^ 64 - 1 := by omega
    have hparse' : (heldBits s.r ++ [b]) ++ bs = es.flatMap entryBits ++ rest := by rw [← hparse]; simp
    rw [foldBits_cons hnd]
    cases es with
    | nil => simp at hn; omega
    | cons e es =>
      have he : e ∈ s.cb.entries := hes e (by simp)
      have hpre : entryBits e <+: (heldBits s.r ++ [b]) ++ bs := by
        rw [hparse', List.flatMap_cons, List.append_assoc]; exact List.prefix_append _ _
      by_cases hm : ∃ a ∈ s.cb.entries, entryBits a = heldBits s.r ++ [b]
      · obtain ⟨a, ha, haeq⟩ := hm
        have hae : a = e := h.store.eq_of_common ha he (haeq ▸ List.prefix_append _ _) hpre
        subst hae
        have hbs : bs = es.flatMap entryBits ++ rest := by
          rw [List.flatMap_cons, haeq, List.append_assoc (heldBits s.r ++ [b])] at hparse'
          exact List.append_cancel_left hparse'
        have htaken : ((a :: es).flatMap entryBits).length - s.r.cnt.toNat = (es.flatMap entryBits).length + 1 := by
          rw [List.flatMap_cons, List.length_append, haeq]; simp; omega
        rw [foldBit_match h.toFoldReady hb ha haeq, htaken, ← afterParse_match s a es _ [] hb hnd]
        have hlt := s.r.origLen.isLt
        have hsucc := toNat_succ_count s.r.emitted (by omega)
        simp only [List.length_cons] at hn
        cases es with
        | nil =>
          simp only
          rw [foldBits_done]
          · rw [count_ext hsucc, count_ext (toNat_succ_count _ hb)]
            simp only [afterParse, withHeld]
            simp
            constructor <;> (apply BitVec.eq_of_toNat_eq; simp)
          · rw [done_eq_true]
            apply BitVec.eq_of_toNat_eq
            simp only [hsucc]
            simpa using hn
        | cons e' es' =>
          simp only [List.length_cons] at hn
          have hready := h.afterMatch a (by omega)
          have := ih hready (e' :: es') (fun x hx => hes x (by simp_all)) (by simpa [heldBits] using hbs)
            (by simp only [toNat_succ_count _ hb]; omega) (by simp only [hsucc, List.length_cons]; omega)
          simpa using this
      · have hno : ∀ a ∈ s.cb.entries, entryBits a ≠ heldBits s.r ++ [b] := fun a ha heq => hm ⟨a, ha, heq⟩
        have hne := h.unmatched e he
        have hlt : (heldBits s.r ++ [b]).length < (entryBits e).length := by
          by_contra hge
          have hp : entryBits e <+: heldBits s.r ++ [b] :=
            List.prefix_of_prefix_length_le hpre (List.prefix_append _ _) (by omega)
          rcases List.prefix_concat_iff.1 hp with hp' | hp'
          · exact hno e he hp'
          · exact hne hp'
        have h32 := (h.store.bounds e he).2.1
        have hroom : (heldBits s.r ++ [b]).length < 32 := by
          rw [length_entryBits] at hlt; omega
        have hheld := heldBits_withHeld s.r (bits := heldBits s.r ++ [b]) (by omega)
        rw [foldBit_hold h.toFoldReady hb hno, if_neg (by omega)]
        simp only
        have hready := h.afterHold hno hroom
        have := ih hready (e :: es) hes (by rw [← hparse']; congr 1)
          (by simp only [toNat_succ_count _ hb]; omega) hn
        rw [this, afterParse_hold s _ _ _ _ hb]
        congr 2
        have hc : (withHeld s.r (heldBits s.r ++ [b])).cnt.toNat = s.r.cnt.toNat + 1 := by
          simp only [withHeld, List.length_append, length_heldBits, List.length_singleton]
          rw [BitVec.toNat_ofNat]
          have := h.room
          omega
        simp only [hc]
        have : ((e :: es).flatMap entryBits).length = (entryBits e).length + (es.flatMap entryBits).length := by simp
        simp at hlt
        have h2 : (entryBits e).length = e.len.toNat := by simp
        omega

/-- The greedy loop when the parse does not complete the decode: the rest is held, or is too long to be one. -/
theorem foldBits_continues {s : State} (h : ParseReady s) (bits : List Bool) (es : List Entry) (rest : List Bool)
    (hes : ∀ e ∈ es, e ∈ s.cb.entries) (hparse : heldBits s.r ++ bits = es.flatMap entryBits ++ rest)
    (hcount : s.r.bits.toNat + bits.length ≤ 2 ^ 64 - 1) (hn : s.r.emitted.toNat + es.length < s.r.origLen.toNat)
    (hrest : ∀ e ∈ s.cb.entries, ¬ entryBits e <+: rest) :
    foldBits bits s =
      if rest.length < 32 then (afterParse s es bits.length rest, none)
      else (afterParse s es ((es.flatMap entryBits).length + 32 - s.r.cnt.toNat) (rest.take 32), some .noMatch) := by
  induction bits generalizing s es with
  | nil =>
    cases es with
    | nil =>
      have hr : rest = heldBits s.r := by simpa using hparse.symm
      have hl : rest.length < 32 := by rw [hr, length_heldBits]; exact h.room
      rw [if_pos hl]
      have := withHeld_heldBits h.fits
      simp [foldBits, afterParse, hr, this]
    | cons e es =>
      exfalso
      apply h.unmatched e (hes e (by simp))
      simp only [List.append_nil, List.flatMap_cons, List.append_assoc] at hparse
      exact ⟨_, hparse.symm⟩
  | cons b bs ih =>
    have hnd := h.notDone
    have hlen : (b :: bs).length = bs.length + 1 := rfl
    have hb : s.r.bits.toNat ≠ 2 ^ 64 - 1 := by omega
    have hparse' : (heldBits s.r ++ [b]) ++ bs = es.flatMap entryBits ++ rest := by rw [← hparse]; simp
    rw [foldBits_cons hnd]
    by_cases hm : ∃ a ∈ s.cb.entries, entryBits a = heldBits s.r ++ [b]
    · obtain ⟨a, ha, haeq⟩ := hm
      have hapre : entryBits a <+: (heldBits s.r ++ [b]) ++ bs := haeq ▸ List.prefix_append _ _
      cases es with
      | nil =>
        exfalso
        apply hrest a ha
        rwa [hparse', List.flatMap_nil, List.nil_append] at hapre
      | cons e es =>
        have he : e ∈ s.cb.entries := hes e (by simp)
        have hpre : entryBits e <+: (heldBits s.r ++ [b]) ++ bs := by
          rw [hparse', List.flatMap_cons, List.append_assoc]; exact List.prefix_append _ _
        have hae : a = e := h.store.eq_of_common ha he hapre hpre
        subst hae
        have hbs : bs = es.flatMap entryBits ++ rest := by
          rw [List.flatMap_cons, haeq, List.append_assoc (heldBits s.r ++ [b])] at hparse'
          exact List.append_cancel_left hparse'
        have hlt := s.r.origLen.isLt
        have hsucc := toNat_succ_count s.r.emitted (by omega)
        simp only [List.length_cons] at hn
        rw [foldBit_match h.toFoldReady hb ha haeq]
        have hready := h.afterMatch a (by omega)
        have := ih hready es (fun x hx => hes x (by simp_all)) (by simpa [heldBits] using hbs)
          (by simp only [toNat_succ_count _ hb]; omega) (by simp only [hsucc]; omega) hrest
        simp only
        rw [this, afterParse_match s a es _ rest hb hnd, afterParse_match s a es _ (rest.take 32) hb hnd]
        have htaken : ((a :: es).flatMap entryBits).length + 32 - s.r.cnt.toNat =
            (es.flatMap entryBits).length + 32 - (0 : BitVec 6).toNat + 1 := by
          rw [List.flatMap_cons, List.length_append, haeq]; simp; omega
        rw [htaken, hlen]
    · have hno : ∀ a ∈ s.cb.entries, entryBits a ≠ heldBits s.r ++ [b] := fun a ha heq => hm ⟨a, ha, heq⟩
      have hroom := h.room
      rw [foldBit_hold h.toFoldReady hb hno]
      by_cases hfull : (heldBits s.r ++ [b]).length = 32
      · have hesnil : es = [] := by
          cases es with
          | nil => rfl
          | cons e es =>
            exfalso
            have he : e ∈ s.cb.entries := hes e (by simp)
            have hpre : entryBits e <+: (heldBits s.r ++ [b]) ++ bs := by
              rw [hparse', List.flatMap_cons, List.append_assoc]; exact List.prefix_append _ _
            have h32 := (h.store.bounds e he).2.1
            have hp : entryBits e <+: heldBits s.r ++ [b] :=
              List.prefix_of_prefix_length_le hpre (List.prefix_append _ _) (by rw [hfull]; simpa using h32)
            rcases List.prefix_concat_iff.1 hp with hp' | hp'
            · exact hno e he hp'
            · exact h.unmatched e he hp'
        subst hesnil
        have hr : rest = (heldBits s.r ++ [b]) ++ bs := by simpa using hparse'.symm
        have hl : ¬ rest.length < 32 := by rw [hr, List.length_append, hfull]; omega
        have htake : rest.take 32 = heldBits s.r ++ [b] := by rw [hr, ← hfull, List.take_left]
        have hcnt : s.r.cnt.toNat = 31 := by simpa using hfull
        have hbits : s.r.bits + 1 = BitVec.ofNat 64 (s.r.bits.toNat + 1) := count_ext (toNat_succ_count _ hb)
        rw [if_pos hfull, if_neg hl, htake]
        rw [hbits]
        simp [afterParse, hcnt, withHeld]
      · rw [if_neg hfull]
        have hlt : (heldBits s.r ++ [b]).length < 32 := by
          have : (heldBits s.r ++ [b]).length = s.r.cnt.toNat + 1 := by simp
          omega
        have hheld := heldBits_withHeld s.r (bits := heldBits s.r ++ [b]) (by omega)
        have hready := h.afterHold hno hlt
        have := ih hready es hes (by rw [← hparse']; congr 1)
          (by simp only [toNat_succ_count _ hb]; omega) hn hrest
        simp only
        rw [this, afterParse_hold s _ _ _ rest hb, afterParse_hold s _ _ _ (rest.take 32) hb, hlen]
        have hc : (withHeld s.r (heldBits s.r ++ [b])).cnt.toNat = s.r.cnt.toNat + 1 := by
          simp only [withHeld, List.length_append, length_heldBits, List.length_singleton]
          rw [BitVec.toNat_ofNat]
          omega
        have htaken : (es.flatMap entryBits).length + 32 - (withHeld s.r (heldBits s.r ++ [b])).cnt.toNat + 1 =
            (es.flatMap entryBits).length + 32 - s.r.cnt.toNat := by
          rw [hc]; omega
        simp only [htaken]

end Sys2Proof.Machine
end

