-- ==== Sys2Proof/Laws/Run.lean ====
section
/-! SUPPORT. Runs of presented commands: a command does not look at what the host will present next, so a run is its commands
one after the other. -/

namespace Sys2Proof.Machine

/-- The state `s` with the host about to present `h`. -/
def withHost (h : List HostEvent) (s : State) : State := { s with hostIn := h }

theorem record_withHost (h : List HostEvent) (e : Event) (s : State) :
    record e (withHost h s) = withHost h (record e s) := rfl

theorem respond_withHost (h : List HostEvent) (c : Byte) (d : Count) (s : State) :
    respond c d (withHost h s) = withHost h (respond c d s) := rfl

theorem raiseErr_withHost (h : List HostEvent) (e : Err) (s : State) :
    raiseErr e (withHost h s) = withHost h (raiseErr e s) := by
  cases e <;> first | rfl | (rename_i u; cases u <;> rfl)

theorem appendBit_withHost (h : List HostEvent) (b : Bool) (s : State) :
    appendBit b (withHost h s) = withHost h (appendBit b s) := by
  by_cases hc : s.w.cnt = 7
  · have hc' : (withHost h s).w.cnt = 7 := hc
    rw [appendBit, appendBit, if_pos hc, if_pos hc']
    rfl
  · have hc' : ¬ (withHost h s).w.cnt = 7 := hc
    rw [appendBit, appendBit, if_neg hc, if_neg hc']
    rfl

theorem appendBits_withHost (h : List HostEvent) (bits : List Bool) (s : State) :
    appendBits bits (withHost h s) = withHost h (appendBits bits s) := by
  induction bits generalizing s with
  | nil => rfl
  | cons b bs ih => rw [appendBits, appendBits, appendBit_withHost, ih]

theorem flushPending_withHost (h : List HostEvent) (s : State) :
    flushPending (withHost h s) = withHost h (flushPending s) := by
  by_cases hc : s.w.cnt = 0
  · have hc' : (withHost h s).w.cnt = 0 := hc
    rw [flushPending, flushPending, if_pos hc, if_pos hc']
  · have hc' : ¬ (withHost h s).w.cnt = 0 := hc
    rw [flushPending, flushPending, if_neg hc, if_neg hc']
    rfl

theorem foldBit_withHost (h : List HostEvent) (b : Bool) (s : State) :
    foldBit b (withHost h s) = (withHost h (foldBit b s).1, (foldBit b s).2) := by
  by_cases hb : s.r.bits.toNat = 2 ^ 64 - 1
  · simp only [foldBit, withHost, hb, if_true]
  · cases hl : lookupCode s.cb ((s.r.acc <<< 1) ||| (BitVec.ofBool b).setWidth 32) (s.r.cnt + 1) with
    | some e =>
      simp only [foldBit, withHost, hb, if_false, hl]
      rfl
    | none =>
      by_cases hc : (s.r.cnt + 1).toNat = Config.maxLen
      · simp only [foldBit, withHost, hb, if_false, hl, hc, if_true]
      · simp only [foldBit, withHost, hb, if_false, hl, hc]

theorem foldBits_withHost (h : List HostEvent) (bits : List Bool) (s : State) :
    foldBits bits (withHost h s) = (withHost h (foldBits bits s).1, (foldBits bits s).2) := by
  induction bits generalizing s with
  | nil => rfl
  | cons b bs ih =>
    have hd : (withHost h s).r = s.r := rfl
    simp only [foldBits, hd, foldBit_withHost]
    split
    · rfl
    · rcases foldBit b s with ⟨s', _ | e⟩
      · exact ih s'
      · rfl

/-- What a command answers, with the host about to present something else. -/
def Result.withHost (h : List HostEvent) : Result → Result
  | .next t => .next (Machine.withHost h t)
  | .fault f => .fault f
  | .refused r => .refused r

/-- A command does not look at the rest of the command stream. -/
theorem exec_withHost (h : List HostEvent) (i : Instr) (s : State) :
    exec i (withHost h s) = Result.withHost h (exec i s) := by
  have hl : (withHost h s).cbLocked = s.cbLocked := rfl
  have hcb : (withHost h s).cb = s.cb := rfl
  have hw : (withHost h s).w = s.w := rfl
  have hr : (withHost h s).r = s.r := rfl
  cases i with
  | cbClear =>
    simp only [exec, execCbClear, Result.withHost, hl]
    split
    · rw [raiseErr_withHost]
    · rfl
  | cbLoad sym len code =>
    simp only [exec, execCbLoad, Result.withHost, hl, hcb]
    repeat' (split; first | rw [raiseErr_withHost] | rfl)
    rfl
  | encInit =>
    simp only [exec, execEncInit, Result.withHost, hcb]
    split
    · rw [raiseErr_withHost]
    · rfl
  | encSym x =>
    simp only [exec, execEncSym, Result.withHost, hcb, hw]
    split
    · rfl
    · split
      · rw [raiseErr_withHost]
      · split
        · rw [raiseErr_withHost]
        · split
          · rw [raiseErr_withHost]
          · simp only [appendCode, appendBits_withHost]
            rfl
  | encFlush =>
    simp only [exec, execEncFlush, Result.withHost, hw]
    split
    · rfl
    · split
      · rw [raiseErr_withHost]
      · rw [flushPending_withHost]
        rfl
  | decInit n =>
    simp only [exec, execDecInit, Result.withHost, hcb]
    split
    · rw [raiseErr_withHost]
    · rfl
  | decByte b =>
    simp only [exec, execDecByte, Result.withHost, hr]
    split
    · rfl
    · split
      · rw [raiseErr_withHost]
      · split
        · rw [raiseErr_withHost]
        · rw [foldBits_withHost]
          rcases foldBits (bitsMsb 8 b) s with ⟨s', _ | e⟩
          · rfl
          · simp only [raiseErr_withHost]
  | decEnd =>
    simp only [exec, execDecEnd, Result.withHost, hr]
    split
    · rfl
    · split
      · rw [raiseErr_withHost]
      · split
        · rw [raiseErr_withHost]
        · rfl
  | statGet reg =>
    simp only [exec, execStatGet, Result.withHost, illegalCommand]
    split
    · rfl
    · rw [raiseErr_withHost]
  | sreset => rfl

/-- No command takes anything off the command stream. -/
theorem exec_hostIn {i : Instr} {s t : State} (h : exec i s = .next t) : t.hostIn = s.hostIn := by
  have h1 := exec_withHost s.hostIn i s
  have h2 : withHost s.hostIn s = s := rfl
  rw [h2, h] at h1
  simp only [Result.withHost, Host.Outcome.next.injEq] at h1
  rw [h1]
  rfl

/-- The step of a presented command that the decoder reads back. -/
theorem step_command {s : State} {w : Word72} {rest : List HostEvent} {i : Instr} (hs : s.hostIn = .command w :: rest)
    (hd : decode w = .ok i) : step s = exec i (record (.cmd w) (withHost rest s)) := by
  simp only [step, takeHostEvent, hs, runCommand, hd]
  rfl

theorem runCommands_nil (s : State) : runCommands [] s = .next s := rfl

/-- A run is its first command and then the run of the rest. -/
theorem runCommands_cons {i : Instr} (is : List Instr) {s t : State} (hd : decode (encode i) = .ok i)
    (he : exec i (record (.cmd (encode i)) s) = .next t) : runCommands (i :: is) s = runCommands is t := by
  let rest : List HostEvent := is.map (fun i => HostEvent.command (encode i)) ++ s.hostIn
  have hin : (presentAll (i :: is) s).hostIn = .command (encode i) :: rest := rfl
  have hstep : step (presentAll (i :: is) s) = .next (withHost rest t) := by
    rw [step_command hin hd]
    change exec i (withHost rest (record (.cmd (encode i)) s)) = _
    rw [exec_withHost, he]
    rfl
  have hh : t.hostIn = s.hostIn := (exec_hostIn he).trans rfl
  have hpresent : presentAll is t = withHost rest t := by
    simp [presentAll, withHost, rest, hh]
  simp only [runCommands, List.length_cons, Host.Core.run, hpresent]
  have hcore : core.step (presentAll (i :: is) s) = .next (withHost rest t) := hstep
  rw [hcore]

/-- A run of two lists is the run of the first and then of the second. -/
theorem runCommands_append {is js : List Instr} {s t : State} (hwf : ∀ i ∈ is, decode (encode i) = .ok i)
    (h : runCommands is s = .next t) : runCommands (is ++ js) s = runCommands js t := by
  induction is generalizing s with
  | nil =>
    rw [runCommands_nil] at h
    cases h
    rfl
  | cons i is ih =>
    have hd := hwf i (by simp)
    obtain ⟨u, hu⟩ : ∃ u, exec i (record (.cmd (encode i)) s) = .next u := by
      cases i <;> exact ⟨_, rfl⟩
    rw [List.cons_append, runCommands_cons _ hd hu]
    rw [runCommands_cons _ hd hu] at h
    exact ih (fun j hj => hwf j (by simp [hj])) h

end Sys2Proof.Machine
end

