-- ==== Sys2Proof/Laws/Writer.lean ====
section
/-! SUPPORT. What the writer's operations do, on bit strings: the whole bytes that leave and the bits that stay. -/

namespace Sys2Proof.Machine

/-- The whole bytes at the front of a bit string. -/
def wholeBytes (bits : List Bool) : List Byte :=
  (List.range (bits.length / 8)).map fun j => BitVec.ofNat 8 (bitsValue ((bits.drop (8 * j)).take 8))

/-- The bits past the last whole byte. -/
def leftover (bits : List Bool) : List Bool := bits.drop (8 * (bits.length / 8))

theorem length_leftover (bits : List Bool) : (leftover bits).length = bits.length % 8 := by
  simp only [leftover, List.length_drop]; omega

theorem length_wholeBytes (bits : List Bool) : (wholeBytes bits).length = bits.length / 8 := by simp [wholeBytes]

theorem wholeBytes_of_short {bits : List Bool} (h : bits.length < 8) : wholeBytes bits = [] := by
  simp [wholeBytes, Nat.div_eq_of_lt h]

theorem leftover_of_short {bits : List Bool} (h : bits.length < 8) : leftover bits = bits := by
  simp [leftover, Nat.div_eq_of_lt h]

theorem wholeBytes_chunk {chunk : List Bool} (hc : chunk.length = 8) (bits : List Bool) :
    wholeBytes (chunk ++ bits) = BitVec.ofNat 8 (bitsValue chunk) :: wholeBytes bits := by
  have hl : (chunk ++ bits).length / 8 = bits.length / 8 + 1 := by
    rw [List.length_append, hc]; omega
  simp only [wholeBytes, hl, List.range_succ_eq_map, List.map_cons, List.map_map]
  congr 1
  · simp [← hc]
  · apply List.map_congr_left
    intro j _
    have : 8 * (j + 1) = chunk.length + 8 * j := by omega
    simp [this]

theorem leftover_chunk {chunk : List Bool} (hc : chunk.length = 8) (bits : List Bool) :
    leftover (chunk ++ bits) = leftover bits := by
  have hl : 8 * ((chunk ++ bits).length / 8) = chunk.length + 8 * (bits.length / 8) := by
    rw [List.length_append, hc]; omega
  rw [leftover, hl, List.drop_append]
  simp [leftover]

theorem wholeBytes_append (xs ys : List Bool) :
    wholeBytes (xs ++ ys) = wholeBytes xs ++ wholeBytes (leftover xs ++ ys) ∧
      leftover (xs ++ ys) = leftover (leftover xs ++ ys) := by
  generalize hn : xs.length = n
  induction n using Nat.strong_induction_on generalizing xs with
  | _ n ih =>
    by_cases h : xs.length < 8
    · simp [wholeBytes_of_short h, leftover_of_short h]
    · have hsplit : xs = xs.take 8 ++ xs.drop 8 := (List.take_append_drop 8 xs).symm
      have hc : (xs.take 8).length = 8 := by rw [List.length_take]; omega
      have hd : (xs.drop 8).length < n := by rw [List.length_drop]; omega
      obtain ⟨h1, h2⟩ := ih _ hd (xs.drop 8) rfl
      rw [hsplit, List.append_assoc, wholeBytes_chunk hc, wholeBytes_chunk hc, leftover_chunk hc, leftover_chunk hc]
      exact ⟨by rw [h1]; rfl, h2⟩

/-- The leftover bits as a number: the closed form of rule R113. -/
theorem leftover_value (bits : List Bool) : bitsValue (leftover bits) = bitsValue bits % 2 ^ (bits.length % 8) := by
  rw [leftover, (bitsValue_take_drop bits _).2]
  congr 2
  omega

/-- The whole bytes as slices of one number: the closed form of rule R113. -/
theorem wholeBytes_value (bits : List Bool) :
    wholeBytes bits =
      (List.range (bits.length / 8)).map fun j => BitVec.ofNat 8 (bitsValue bits >>> (bits.length - 8 * (j + 1))) := by
  rw [wholeBytes]
  apply List.map_congr_left
  intro j hj
  rw [List.mem_range] at hj
  have h : ((bits.drop (8 * j)).take 8) = (bits.take (8 * (j + 1))).drop (8 * j) := by
    rw [List.drop_take]; congr 1; omega
  rw [h, (bitsValue_take_drop _ _).2, (bitsValue_take_drop bits _).1, List.length_take, Nat.shiftRight_eq_div_pow]
  have : min (8 * (j + 1)) bits.length - 8 * j = 8 := by omega
  rw [this]
  apply BitVec.eq_of_toNat_eq
  simp
/-- The writer's pending bits, oldest first (10_state.md rule R16). -/
def pendingBits (w : Writer) : List Bool := bitsMsb w.cnt.toNat w.acc

@[simp] theorem length_pendingBits (w : Writer) : (pendingBits w).length = w.cnt.toNat := by simp [pendingBits]

/-- The writer with the pending bits `bits`. -/
def withPending (w : Writer) (bits : List Bool) : Writer :=
  { w with acc := BitVec.ofNat 8 (bitsValue bits), cnt := BitVec.ofNat 3 bits.length }

theorem pendingBits_withPending (w : Writer) {bits : List Bool} (h : bits.length < 8) :
    pendingBits (withPending w bits) = bits := by
  have hm : (BitVec.ofNat 3 bits.length).toNat = bits.length := by
    rw [BitVec.toNat_ofNat]; omega
  simp only [pendingBits, withPending, hm]
  exact bitsMsb_of_value bits (by omega)

theorem withPending_pendingBits {w : Writer} (h : w.acc.toNat < 2 ^ w.cnt.toNat) :
    withPending w (pendingBits w) = w := by
  simp only [withPending, length_pendingBits]
  have h1 : BitVec.ofNat 8 (bitsValue (pendingBits w)) = w.acc := by
    rw [pendingBits, bitsValue_bitsMsb, Nat.mod_eq_of_lt h]; simp
  rw [h1]
  simp

/-- One `AppendBit` on bit strings: the eighth pending bit emits the byte. -/
theorem appendBit_eq {s : State} (h : s.w.acc.toNat < 2 ^ s.w.cnt.toNat) (b : Bool) :
    appendBit b s = { s with
      w := withPending s.w (leftover (pendingBits s.w ++ [b]))
      history := s.history ++ (wholeBytes (pendingBits s.w ++ [b])).map .outByte } := by
  have hc := s.w.cnt.isLt
  have hb : b.toNat < 2 := by cases b <;> simp
  have hpow : 2 ^ s.w.cnt.toNat ≤ 2 ^ 7 := Nat.pow_le_pow_right (by omega) (by omega)
  have hshift := toNat_shift_in (k := 8) s.w.acc b (by omega) (by omega)
  have hval : bitsValue (pendingBits s.w ++ [b]) = 2 * s.w.acc.toNat + b.toNat := by
    rw [bitsValue_append, pendingBits, bitsValue_bitsMsb, Nat.mod_eq_of_lt h]
    simp [bitsValue_cons]; ring
  have hacc : (s.w.acc <<< 1) ||| (BitVec.ofBool b).setWidth 8 = BitVec.ofNat 8 (2 * s.w.acc.toNat + b.toNat) := by
    apply BitVec.eq_of_toNat_eq
    rw [hshift, BitVec.toNat_ofNat, Nat.mod_eq_of_lt (by omega)]
  have hlen : (pendingBits s.w ++ [b]).length = s.w.cnt.toNat + 1 := by simp
  unfold appendBit
  rw [hacc]
  by_cases h7 : s.w.cnt = 7
  · have h8 : (pendingBits s.w ++ [b]).length = 8 := by rw [hlen, h7]; rfl
    have hw := wholeBytes_chunk h8 []
    have hl := leftover_chunk h8 []
    simp only [List.append_nil] at hw hl
    rw [hw, hl, hval]
    simp [h7, emitByte, record, withPending, leftover, wholeBytes]
  · have h7' : s.w.cnt.toNat ≠ 7 := fun hh => h7 (BitVec.eq_of_toNat_eq (by simpa using hh))
    have h8 : (pendingBits s.w ++ [b]).length < 8 := by omega
    rw [wholeBytes_of_short h8, leftover_of_short h8]
    have hcnt : s.w.cnt + 1 = BitVec.ofNat 3 (s.w.cnt.toNat + 1) := by
      apply BitVec.eq_of_toNat_eq; simp [BitVec.toNat_add]
    rw [if_neg h7, hcnt]
    simp only [withPending, hval, hlen, List.map_nil, List.append_nil]

/-- `AppendBit` of each bit in turn: the whole bytes leave, the rest stays pending. -/
theorem appendBits_eq {s : State} (h : s.w.acc.toNat < 2 ^ s.w.cnt.toNat) (bits : List Bool) :
    appendBits bits s = { s with
      w := withPending s.w (leftover (pendingBits s.w ++ bits))
      history := s.history ++ (wholeBytes (pendingBits s.w ++ bits)).map .outByte } := by
  have hc := s.w.cnt.isLt
  induction bits generalizing s with
  | nil =>
    have hs : (pendingBits s.w).length < 8 := by simpa using hc
    simp [appendBits, leftover_of_short hs, wholeBytes_of_short hs, withPending_pendingBits h]
  | cons b bs ih =>
    have hl : (leftover (pendingBits s.w ++ [b])).length < 8 := by rw [length_leftover]; omega
    have hp := pendingBits_withPending s.w hl
    rw [appendBits, appendBit_eq h]
    rw [ih]
    · have happ := wholeBytes_append (pendingBits s.w ++ [b]) bs
      simp only [hp]
      rw [List.append_assoc, List.singleton_append] at happ
      rw [happ.1, happ.2]
      simp [withPending]
    · simp only [withPending]
      rw [BitVec.toNat_ofNat, BitVec.toNat_ofNat, Nat.mod_eq_of_lt (a := (leftover _).length) (by omega)]
      exact lt_of_le_of_lt (Nat.mod_le _ _) (bitsValue_lt _)
    · exact (BitVec.isLt _)

/-- The accumulator holds only its pending bits after any append. -/
theorem withPending_fits (w : Writer) {bits : List Bool} (h : bits.length < 8) :
    (withPending w bits).acc.toNat < 2 ^ (withPending w bits).cnt.toNat := by
  simp only [withPending]
  rw [BitVec.toNat_ofNat, BitVec.toNat_ofNat, Nat.mod_eq_of_lt (a := bits.length) (by omega)]
  exact lt_of_le_of_lt (Nat.mod_le _ _) (bitsValue_lt _)

/-- The success path of `ENC.SYM` on bit strings. -/
theorem appendCode_eq {s : State} (h : s.w.acc.toNat < 2 ^ s.w.cnt.toNat) (e : Entry) :
    appendCode e s = { s with
      w := { withPending s.w (leftover (pendingBits s.w ++ entryBits e)) with total := s.w.total + e.len.setWidth 64 }
      history := s.history ++ (wholeBytes (pendingBits s.w ++ entryBits e)).map .outByte } := by
  simp only [appendCode, appendBits_eq h]

/-- Whole bytes are the bytes of the stream as rule R66 of 30_encoding.md sums them. -/
theorem sum_chunk (xs : List Bool) :
    ((List.range 8).map fun i => (xs.getD i false).toNat <<< (7 - i)).sum =
      bitsValue (xs.take 8) * 2 ^ (8 - (xs.take 8).length) := by
  simp only [List.range, List.range.loop]
  match xs with
  | [] => simp [bitsValue]
  | [a] => simp [bitsValue, Nat.shiftLeft_eq]
  | [a, b] => simp [bitsValue, Nat.shiftLeft_eq]; ring
  | [a, b, c] => simp [bitsValue, Nat.shiftLeft_eq]; ring
  | [a, b, c, d] => simp [bitsValue, Nat.shiftLeft_eq]; ring
  | [a, b, c, d, e] => simp [bitsValue, Nat.shiftLeft_eq]; ring
  | [a, b, c, d, e, f] => simp [bitsValue, Nat.shiftLeft_eq]; ring
  | [a, b, c, d, e, f, g] => simp [bitsValue, Nat.shiftLeft_eq]; ring
  | a :: b :: c :: d :: e :: f :: g :: h :: _ => simp [bitsValue, Nat.shiftLeft_eq]; ring

theorem streamByte_eq (bits : List Bool) (j : Nat) :
    streamByte bits j = BitVec.ofNat 8
      (bitsValue ((bits.drop (8 * j)).take 8) * 2 ^ (8 - ((bits.drop (8 * j)).take 8).length)) := by
  rw [← sum_chunk]
  simp only [streamByte, streamBit, List.getD_eq_getElem?_getD, List.getElem?_drop]

/-- The bitstream of rule R66 is its whole bytes and, if bits are left over, one byte padded with zeros. -/
theorem bitstream_eq (bits : List Bool) :
    bitstream bits = wholeBytes bits ++
      if leftover bits = [] then [] else [BitVec.ofNat 8 (bitsValue (leftover bits) * 2 ^ (8 - (leftover bits).length))] := by
  have hl := length_leftover bits
  have hwhole : (List.range (bits.length / 8)).map (streamByte bits) = wholeBytes bits := by
    apply List.map_congr_left
    intro j hj
    have hj' : j < bits.length / 8 := List.mem_range.1 hj
    have : ((bits.drop (8 * j)).take 8).length = 8 := by rw [List.length_take, List.length_drop]; omega
    rw [streamByte_eq, this]
    simp
  by_cases h : leftover bits = []
  · have : (bits.length + 7) / 8 = bits.length / 8 := by
      rw [h] at hl; simp at hl; omega
    simp [bitstream, this, hwhole, h]
  · have hne : (leftover bits).length ≠ 0 := by simpa using h
    have : (bits.length + 7) / 8 = bits.length / 8 + 1 := by omega
    have htake : (bits.drop (8 * (bits.length / 8))).take 8 = leftover bits := by
      apply List.take_of_length_le
      change (leftover bits).length ≤ 8
      omega
    simp only [bitstream, this, List.range_succ, List.map_append, hwhole, h, if_false, List.map_cons, List.map_nil]
    rw [streamByte_eq, htake]

end Sys2Proof.Machine
end

