-- ==== Sys2Proof/Tests/Slice0.lean ====
section
/-! SUPPORT. Tests: expected results are the spec's worked examples and vectors (95_test_vectors.md, named in each comment), never
the model's own answers; then one witness theorem per obligation that has hypotheses. -/

namespace Sys2Proof.Tests

open Sys2Proof Sys2Proof.Machine Sys2Proof.HostEnv

/-! ## Small states -/

/-- The store of vector V1: D "00", B "010", E "011", C "10", A "11". -/
def storeV1 : List Entry := [⟨0x44, 2, 0⟩, ⟨0x42, 3, 2⟩, ⟨0x45, 3, 3⟩, ⟨0x43, 2, 2⟩, ⟨0x41, 2, 3⟩]

/-- The store of vectors V10 and V17: 0x00 "0", 0x01 the 32-bit code 0x80000001. -/
def storeWide : List Entry := [⟨0x00, 1, 0⟩, ⟨0x01, 32, 0x80000001⟩]

/-- The store of vector V22: A "11", B "0". -/
def storeV22 : List Entry := [⟨0x41, 2, 3⟩, ⟨0x42, 1, 0⟩]

/-- The reset state with a loaded store. -/
def loaded (es : List Entry) : State := { State.reset with cb := { entries := es, err := 0 } }

/-- A loaded store with an encode active, `total` bits in, the last of them pending in `acc`. -/
def encoding (es : List Entry) (acc : BitVec 8) (cnt : BitVec 3) (total : Count) : State :=
  { loaded es with w := { active := true, err := 0, acc := acc, cnt := cnt, total := total } }

/-- A loaded store with a decode active. -/
def decoding (es : List Entry) (acc : CodeWord) (cnt : BitVec 6) (origLen emitted bits : Count) : State :=
  { loaded es with
    r := { active := true, err := 0, acc := acc, cnt := cnt, origLen := origLen, emitted := emitted, bits := bits } }

/-- Vector V8, first line: a codebook build that failed with `E_ZERO_LENGTH`. -/
def buildFailed : State := { State.reset with cb := { entries := [], err := 0x03 }, faultLog := 0x0008 }

/-- Program P5, line 21, on V1's store: an encode that died with `E_NO_SYMBOL`, two bits pending. -/
def encodeFailed : State :=
  { loaded storeV1 with w := { active := false, err := 0x0A, acc := 1, cnt := 2, total := 2 }, faultLog := 0x0400 }

/-- Vector V17: a decode that died with `E_NO_MATCH`. -/
def decodeFailed : State :=
  { loaded storeWide with
    r := { active := false, err := 0x0B, acc := 0x81800000, cnt := 32, origLen := 5, emitted := 1, bits := 33 }
    faultLog := 0x0800 }

/-- Vector V3 after three symbols, but with zero bits: six bits pending. -/
def midEncode : State := encoding storeV1 0 6 6

/-- Vector V10: seven bits pending. -/
def sevenPending : State := encoding storeWide 0 7 7

/-- Vector V22: a count that leaves room for one bit. -/
def nearFull : State := encoding storeV22 0 6 0xFFFFFFFFFFFFFFFE

/-- Vector V3 before its flush: no bit pending. -/
def aligned : State := encoding storeV1 0 0 24

/-- Vector V4 after its first byte. -/
def afterFirstByte : State := decoding storeV1 0 0 11 4 8

/-- Vector V4 after its second byte: one bit held. -/
def midDecode : State := decoding storeV1 1 1 11 7 16

/-- Vector V4 after its third byte: done. -/
def decodeDone : State := decoding storeV1 0 0 11 11 24

/-- A decode whose bit count is full. -/
def bitsFull : State := decoding storeV1 0 0 11 10 0xFFFFFFFFFFFFFFFF

/-- Vector V17 before its last byte: 31 bits held. -/
def thirtyOneHeld : State := decoding storeWide 0x40C00000 31 5 1 32

/-- An empty store after an encode that emitted 0xD0 and an illegal word. -/
def emptied : State := { State.reset with faultLog := 0x0002, history := [.outByte 0xD0, .resp 5] }

/-- The state a meaning answers, for reading fields off it. -/
def next (r : Result) : State :=
  match r with
  | .next t => t
  | .fault _ | .refused _ => State.reset

/-! ## Well-formedness and decoding -/

/-- Rule R65 (c): register 10 does not exist, register 9 does. -/
theorem test_wellFormed_statGet : ¬ (Instr.statGet 10).WellFormed ∧ (Instr.statGet 9).WellFormed := by decide

/-- Rule R62: every other operand value is legal, `CB.LOAD` with length 255 too. -/
theorem test_wellFormed_extremes :
    (Instr.cbLoad 0xFF 0xFF 0xFFFFFFFF).WellFormed ∧ (Instr.decInit 0xFFFFFFFFFFFFFFFF).WellFormed := by decide

/-- Rule R72: `op` 0x02, `arg` 0x0000_4102_0000_0003; both directions. -/
theorem test_decode_cbLoad :
    decode 0x020000410200000003 = .ok (.cbLoad 0x41 2 3) ∧ encode (.cbLoad 0x41 2 3) = 0x020000410200000003 := by decide

/-- Rule R61: the opcodes of the commands without operand. -/
theorem test_decode_no_operand :
    decode 0x010000000000000000 = .ok .cbClear ∧ decode 0x100000000000000000 = .ok .encInit ∧
    decode 0x120000000000000000 = .ok .encFlush ∧ decode 0x220000000000000000 = .ok .decEnd ∧
    decode 0x3F0000000000000000 = .ok .sreset := by decide

/-- Rule R72 and program P2, P1: the commands with one operand. -/
theorem test_decode_one_operand :
    decode 0x110000000000000041 = .ok (.encSym 0x41) ∧ decode 0x20000000000000000B = .ok (.decInit 11) ∧
    decode 0x210000000000000055 = .ok (.decByte 0x55) ∧ decode 0x300000000000000004 = .ok (.statGet 4) := by decide

/-- Vector V24: undefined opcodes. -/
theorem test_decode_undefined_opcode :
    decode 0x000000000000000000 = .error (.undefinedOpcode 0x00) ∧
    decode 0x130000000000000000 = .error (.undefinedOpcode 0x13) ∧
    decode 0xFFFFFFFFFFFFFFFFFF = .error (.undefinedOpcode 0xFF) := by decide

/-- Vector V24: reserved bits. -/
theorem test_decode_reserved_bits :
    decode 0x010000000000000001 = .error .reservedBits ∧ decode 0x020001000000000000 = .error .reservedBits ∧
    decode 0x108000000000000000 = .error .reservedBits ∧ decode 0x110000000000000100 = .error .reservedBits ∧
    decode 0x120000000000000001 = .error .reservedBits ∧ decode 0x2100000000000001FF = .error .reservedBits ∧
    decode 0x220000000000000002 = .error .reservedBits ∧ decode 0x300000000000000019 = .error .reservedBits ∧
    decode 0x3F0000000000000001 = .error .reservedBits := by decide

/-- Vector V24: register 10, and the nearest legal neighbours. -/
theorem test_decode_neighbours :
    decode 0x30000000000000000A = .error (.noSuchRegister 10) ∧ decode 0x300000000000000009 = .ok (.statGet 9) ∧
    decode 0x020000FFFFFFFFFFFF = .ok (.cbLoad 0xFF 0xFF 0xFFFFFFFF) ∧
    decode 0x1100000000000000FF = .ok (.encSym 0xFF) ∧
    decode 0x20FFFFFFFFFFFFFFFF = .ok (.decInit 0xFFFFFFFFFFFFFFFF) := by decide

/-- No word fits two rows of the opcode table: two rows differ in a bit both fix. -/
theorem test_rows_disjoint :
    opcodeTable.Pairwise fun a b => a.value &&& (a.mask &&& b.mask) ≠ b.value &&& (a.mask &&& b.mask) := by decide

/-- Every row's `match` word decodes, by the host's numbering of its bits; a word above the row's bits is cut off. -/
theorem test_decodeTableWord :
    (opcodeTable.map fun row => (decodeTableWord 72 row.value.toNat).isSome) = List.replicate 10 true ∧
    decodeTableWord 72 (2 ^ 72 + 0x3F0000000000000000) = some .sreset := by decide

/-- The host's way in: the first word of row `STAT.GET` is the very next command. -/
theorem test_withFetchWord :
    (next (step (State.reset.withFetchWord 72 0x300000000000000000))).responses = [0x000000004001000820] := by decide

/-! ## The codebook commands -/

/-- Rule R94, its example: five entries before, none after. -/
theorem test_cbClear : (next (exec .cbClear (loaded storeV1))).cbN = 0 := by decide

/-- Vector V25: the lock. -/
theorem test_cbClear_locked :
    (next (exec .cbClear (decoding [⟨0x41, 1, 0⟩] 0 0 1 0 0))).cbN = 1 ∧
    (next (exec .cbClear (decoding [⟨0x41, 1, 0⟩] 0 0 1 0 0))).faultLog = 0x0080 := by decide

/-- Vector V8, the widest legal entry: the bound is the mathematical power 2^32. -/
theorem test_cbLoad_widest :
    (next (exec (.cbLoad 0x41 32 0xFFFFFFFF) State.reset)).cb = { entries := [⟨0x41, 32, 0xFFFFFFFF⟩], err := 0 } := by decide

/-- Vector V8: "1" is a prefix of "10". -/
theorem test_cbLoad_prefix :
    (next (exec (.cbLoad 0x43 2 2) (loaded [⟨0x41, 1, 1⟩, ⟨0x42, 2, 1⟩]))).cb.err = 0x06 ∧
    (next (exec (.cbLoad 0x42 1 1) (loaded [⟨0x41, 2, 2⟩]))).cb.err = 0x06 := by decide

/-- Vector V2: the lookups in V1's store; (0, 3) is none, the length is part of the key. -/
theorem test_lookups :
    (lookupSym (loaded storeV1).cb 0x41).map (·.code) = some 3 ∧ lookupSym (loaded storeV1).cb 0x5A = none ∧
    (lookupCode (loaded storeV1).cb 2 3).map (·.sym) = some 0x42 ∧ (lookupCode (loaded storeV1).cb 2 2).map (·.sym) = some 0x43 ∧
    lookupCode (loaded storeV1).cb 0 3 = none := by decide

/-! ## The writer commands -/

/-- Vector V13: a second `ENC.INIT` drops the pending bits and clears the latch. -/
theorem test_encInit :
    (next (exec .encInit encodeFailed)).w = { active := true, err := 0, acc := 0, cnt := 0, total := 0 } := by decide

/-- Vector V10: 39 bits in play, four bytes leave, seven bits stay. -/
theorem test_encSym_widest :
    (next (exec (.encSym 0x01) sevenPending)).byteOut = [0x01, 0x00, 0x00, 0x00] ∧
    (next (exec (.encSym 0x01) sevenPending)).w = { active := true, err := 0, acc := 1, cnt := 7, total := 39 } := by
  decide

/-- Vector V22: the count overflow, and the last count that fits. -/
theorem test_encSym_overflow :
    (next (exec (.encSym 0x41) nearFull)).w =
      { active := false, err := 0x0E, acc := 0, cnt := 6, total := 0xFFFFFFFFFFFFFFFE } ∧
    (next (exec (.encSym 0x42) nearFull)).w =
      { active := true, err := 0, acc := 0, cnt := 7, total := 0xFFFFFFFFFFFFFFFF } := by decide

/-- Vector V12: the padding is at the low end. -/
theorem test_encFlush_pads :
    (next (exec .encFlush (encoding storeV1 0b11010 5 5))).byteOut = [0xD0] ∧
    (next (exec .encFlush (encoding storeV1 0b11010 5 5))).responses = [0x000000000000000005] := by decide

/-- Vector V3, last line: with no pending bit the flush emits nothing. -/
theorem test_encFlush_aligned :
    (next (exec .encFlush aligned)).byteOut = [] ∧
    (next (exec .encFlush aligned)).responses = [0x000000000000000018] := by decide

/-! ## The reader commands -/

/-- Rule R132, corner case: length 0 is done at once. -/
theorem test_decInit :
    (next (exec (.decInit 0) State.reset)).responses = [0x000000000000000001] ∧
    (next (exec (.decInit 11) (loaded storeV1))).responses = [0x000000000000000000] := by decide

/-- Vector V4, second line: a code completed, two more, and one bit held. -/
theorem test_decByte :
    (next (exec (.decByte 0x55) afterFirstByte)).symOut = [0x42, 0x43, 0x43] ∧
    (next (exec (.decByte 0x55) afterFirstByte)).r =
      { active := true, err := 0, acc := 1, cnt := 1, origLen := 11, emitted := 7, bits := 16 } := by decide

/-- Vector V14: padding is not checked; vector V17: the 32nd unmatched bit. -/
theorem test_decByte_padding_and_no_match :
    (next (exec (.decByte 0xD7) (decoding storeV1 0 0 2 0 0))).r =
      { active := true, err := 0, acc := 0, cnt := 0, origLen := 2, emitted := 2, bits := 5 } ∧
    (next (exec (.decByte 0x00) thirtyOneHeld)).r = decodeFailed.r := by decide

/-- Vector V15: a decode that ends early keeps its dangling bit. -/
theorem test_decEnd_truncated :
    (next (exec .decEnd midDecode)).r =
      { active := false, err := 0x0C, acc := 1, cnt := 1, origLen := 11, emitted := 7, bits := 16 } ∧
    (next (exec .decEnd midDecode)).faultLog = 0x1000 := by decide

/-- Vector V4, last line. -/
theorem test_decEnd :
    (next (exec .decEnd decodeDone)).responses = [0x000000000000000018] ∧
    (next (exec .decEnd decodeDone)).r.active = false := by decide

/-! ## The system commands -/

/-- Vector V23: an encode and a decode on one store. -/
def bothActive : State :=
  { midDecode with w := { active := true, err := 0, acc := 2, cnt := 3, total := 11 } }

theorem test_statGet :
    statusRegister bothActive 0 = 0x4001000820 ∧ statusRegister bothActive 1 = 0x0B ∧ statusRegister bothActive 3 = 5 ∧
    statusRegister bothActive 4 = 0x0B ∧ statusRegister bothActive 5 = 0x302 ∧ statusRegister bothActive 7 = 7 ∧
    statusRegister bothActive 8 = 0x10 ∧ statusRegister bothActive 9 = 0x100000001 := by decide

/-- Program P4, lines 10, 13 and 14. -/
theorem test_statGet_failed :
    statusRegister decodeFailed 9 = 0x2081800000 ∧ statusRegister decodeFailed 1 = 0x0B000000 ∧
    statusRegister decodeFailed 2 = 0x0800 := by decide

/-- Rule R152: after `SRESET` `STATUS` is 0x4 and `CB_N` 0. -/
theorem test_sreset :
    statusRegister (next (exec .sreset bothActive)) 1 = 4 ∧ statusRegister (next (exec .sreset bothActive)) 3 = 0 := by decide

/-! ## The host environment -/

/-- Vector V1: the codebook of "AAAABCCCDDE". -/
theorem test_codebook_v1 :
    (huffmanTree [0x41, 0x41, 0x41, 0x41, 0x42, 0x43, 0x43, 0x43, 0x44, 0x44, 0x45]).map HTree.codebook =
      some [⟨0x44, 2, 0⟩, ⟨0x42, 3, 2⟩, ⟨0x45, 3, 3⟩, ⟨0x43, 2, 2⟩, ⟨0x41, 2, 3⟩] := by decide

/-- Vector V3: the bitstream of the scenario's message, cut by rule R66's sum. -/
theorem test_bitstream_v3 :
    bitstream (messageBits (loaded storeV1).cb [0x41, 0x41, 0x41, 0x41, 0x42, 0x43, 0x43, 0x43, 0x44, 0x44, 0x45]) =
      [0xFF, 0x55, 0x03] := by decide

/-! ## Witnesses: a state and operands that meet each obligation's hypotheses, one per clause -/

/-- The host presents `w` to `s`. -/
def presenting (w : Word72) (s : State) : State := { s with hostIn := [.command w] }

theorem inv_empty : emptied.Inv := by constructor <;> decide
theorem inv_loaded : (loaded storeV1).Inv := by constructor <;> decide
theorem inv_encoding : midEncode.Inv := by constructor <;> decide
theorem inv_encoding_wide : sevenPending.Inv := by constructor <;> decide
theorem inv_encoding_full : nearFull.Inv := by constructor <;> decide
theorem inv_decoding : midDecode.Inv := by constructor <;> decide
theorem inv_decoding_wide : thirtyOneHeld.Inv := by constructor <;> decide
theorem inv_decoding_full : bitsFull.Inv := by constructor <;> decide
theorem inv_buildFailed : buildFailed.Inv := by constructor <;> decide
theorem inv_encodeFailed : encodeFailed.Inv := by constructor <;> decide
theorem inv_decodeFailed : decodeFailed.Inv := by constructor <;> decide

theorem test_witness_DecodeEncodeRoundTrip : (Instr.statGet 9).WellFormed ∧ (Instr.cbLoad 0xFF 0 0).WellFormed := by decide

theorem test_witness_DecodedWordIsTheEncoding : decode 0x300000000000000009 = .ok (.statGet 9) := by decide

theorem test_witness_IllegalWordAnswered :
    (presenting 0x300000000000000009 encodeFailed).hostIn = .command 0x300000000000000009 :: [] ∧
    legalWord 0x300000000000000009 = true ∧
    (presenting 0x30000000000000000A encodeFailed).hostIn = .command 0x30000000000000000A :: [] ∧
    legalWord 0x30000000000000000A = false ∧ legalWord 0x110000000000000100 = false ∧ legalWord 0x000000000000000000 = false := by
  decide

theorem test_witness_StepRunsPresentedCommand :
    (presenting 0x110000000000000041 midEncode).hostIn = .command 0x110000000000000041 :: [] ∧
    decode 0x110000000000000041 = .ok (.encSym 0x41) ∧ State.reset.hostIn = [] := by decide

theorem test_witness_EmissionsPerCommand :
    (sevenPending.Inv ∧ ∃ t, exec (.encSym 0x01) sevenPending = .next t) ∧
    (midEncode.Inv ∧ ∃ t, exec .encFlush midEncode = .next t) ∧
    (midDecode.Inv ∧ ∃ t, exec (.decByte 0x03) midDecode = .next t) ∧
    ((loaded storeV1).Inv ∧ ∃ t, exec (.statGet 3) (loaded storeV1) = .next t) :=
  ⟨⟨inv_encoding_wide, _, rfl⟩, ⟨inv_encoding, _, rfl⟩, ⟨inv_decoding, _, rfl⟩, ⟨inv_loaded, _, rfl⟩⟩

theorem test_witness_BothResetsLeaveResetValues :
    ({ decodeFailed with hostIn := [.hardwareReset] } : State).hostIn = .hardwareReset :: [] := by decide

theorem test_witness_CbClearEmptiesOrIsLocked :
    (buildFailed.w.active = false ∧ buildFailed.r.active = false) ∧
    (midEncode.w.active = true ∨ midEncode.r.active = true) := by decide

/-- Each check of `CB.LOAD` at its boundary: lengths 0, 33, 2 with code 4, 32 with the largest code. -/
theorem test_witness_CbLoadChecksThenAppends :
    (buildFailed.Inv ∧ buildFailed.cb.err ≠ 0) ∧
    (midEncode.Inv ∧ midEncode.cb.err = 0 ∧ midEncode.w.active = true) ∧
    ((loaded storeV1).Inv ∧ (loaded storeV1).cb.err = 0 ∧ (loaded storeV1).w.active = false ∧ (loaded storeV1).r.active = false) ∧
    (0x00#8).toNat = 0 ∧ (0x21#8).toNat > 32 ∧ (1 ≤ (0x02#8).toNat ∧ (0x02#8).toNat ≤ 32 ∧ (4#32).toNat ≥ 2 ^ (0x02#8).toNat) ∧
    (1 ≤ (0x20#8).toNat ∧ (0x20#8).toNat ≤ 32 ∧ (0xFFFFFFFF#32).toNat < 2 ^ (0x20#8).toNat) ∧
    (∃ e ∈ (loaded storeV1).cb.entries, e.sym = 0x41) ∧
    ((¬ ∃ e ∈ (loaded storeV1).cb.entries, e.sym = 0x5A) ∧
      ∃ e ∈ (loaded storeV1).cb.entries, entryBits e <+: bitsMsb 32 (0xFFFFFFFF#32) ∨ bitsMsb 32 (0xFFFFFFFF#32) <+: entryBits e) ∧
    ((¬ ∃ e ∈ State.reset.cb.entries, e.sym = 0x5A) ∧
      ¬ ∃ e ∈ State.reset.cb.entries, entryBits e <+: bitsMsb 32 (0xFFFFFFFF#32) ∨ bitsMsb 32 (0xFFFFFFFF#32) <+: entryBits e) :=
  ⟨⟨inv_buildFailed, by decide⟩, ⟨inv_encoding, by decide⟩, ⟨inv_loaded, by decide⟩, by decide, by decide, by decide, by decide,
    by decide, by decide, by decide⟩

theorem test_witness_StoreOrderHasNoEffect :
    midEncode.Inv ∧ storeV1.reverse.Perm midEncode.cb.entries ∧
    (∃ t, exec (.encSym 0x41) midEncode = .next t) ∧
    ∃ u, exec (.encSym 0x41)
      { midEncode with cb := { midEncode.cb with entries := storeV1.reverse } } = .next u :=
  ⟨inv_encoding, List.reverse_perm _, ⟨_, rfl⟩, ⟨_, rfl⟩⟩

theorem test_witness_LookupSymFindsTheEntry :
    (loaded storeV1).Inv ∧ (loaded storeV1).cb.entries[4]? = some ⟨0x41, 2, 3⟩ ∧ (⟨0x41, 2, 3⟩ : Entry).sym = 0x41 :=
  ⟨inv_loaded, by decide, by decide⟩

theorem test_witness_LookupCodeFindsTheEntry :
    (loaded storeV1).Inv ∧ (loaded storeV1).cb.entries[1]? = some ⟨0x42, 3, 2⟩ ∧
    (⟨0x42, 3, 2⟩ : Entry).len = 3 ∧ (⟨0x42, 3, 2⟩ : Entry).code = 2 :=
  ⟨inv_loaded, by decide, by decide, by decide⟩

theorem test_witness_StoreIsPrefixFreeAndBounded :
    (loaded storeV1).Inv ∧ (loaded storeV1).cb.entries[0]? = some ⟨0x44, 2, 0⟩ ∧
    (loaded storeV1).cb.entries[4]? = some ⟨0x41, 2, 3⟩ ∧ (0 : Nat) ≠ 4 :=
  ⟨inv_loaded, by decide, by decide, by decide⟩

/-- A codebook of two entries, all answers `OK`. -/
theorem test_witness_LoadedCodebookIsHeld :
    buildFailed.Inv ∧ ∃ t, runCommands (.cbClear :: storeV22.map fun e => .cbLoad e.sym (e.len.setWidth 8) e.code) buildFailed = .next t ∧
      t.responses = buildFailed.responses ++ List.replicate (storeV22.length + 1) 0 :=
  ⟨inv_buildFailed, _, rfl, by decide⟩

/-- The deepest tree allowed: a chain of 33 leaves, depth 32. -/
def chain : Nat → HTree
  | 0 => .leaf 0 1
  | n + 1 => .node (.leaf (BitVec.ofNat 8 (n + 1)) 1) (chain n)

theorem test_witness_TreeCodebookLoads :
    buildFailed.Inv ∧ buildFailed.w.active = false ∧ buildFailed.r.active = false ∧ (chain 32).syms.Nodup ∧
    (chain 32).depth ≤ 32 ∧ (chain 32).codebook.reverse.Perm (chain 32).codebook :=
  ⟨inv_buildFailed, by decide, by decide, by decide, by decide, List.reverse_perm _⟩

theorem test_witness_EmptyCodebookIsValid :
    emptied.Inv ∧ emptied.cb.entries = [] ∧ emptied.cb.err = 0 ∧ (1#64 : Count) ≠ 0 :=
  ⟨inv_empty, by decide, by decide, by decide⟩

theorem test_witness_CodebookCommandsFrame :
    (∃ t, exec .cbClear (loaded storeV1) = .next t) ∧ ∃ t, exec (.cbLoad 0x5A 2 0) (loaded storeV1) = .next t :=
  ⟨⟨_, rfl⟩, ⟨_, rfl⟩⟩

theorem test_witness_AppendBitShiftsIn :
    (sevenPending.w.acc.toNat < 2 ^ sevenPending.w.cnt.toNat ∧ sevenPending.w.cnt = 7) ∧
    (midEncode.w.acc.toNat < 2 ^ midEncode.w.cnt.toNat ∧ midEncode.w.cnt ≠ 7) := by
  decide

theorem test_witness_EncInitMakesFreshWriter : encodeFailed.cb.err = 0 ∧ buildFailed.cb.err ≠ 0 := by decide

/-- The count overflow by one bit, and the count that just fits (vector V22). -/
theorem test_witness_EncSymPacksTheCode :
    (encodeFailed.Inv ∧ encodeFailed.w.err ≠ 0) ∧
    ((loaded storeV1).Inv ∧ (loaded storeV1).w.err = 0 ∧ (loaded storeV1).w.active = false) ∧
    (midEncode.Inv ∧ midEncode.w.err = 0 ∧ midEncode.w.active = true ∧
      ∀ e ∈ midEncode.cb.entries, e.sym ≠ 0x5A) ∧
    (nearFull.Inv ∧
      (⟨0x41, 2, 3⟩ : Entry) ∈ nearFull.cb.entries ∧
      (0xFFFFFFFFFFFFFFFE#64).toNat + (2#6).toNat > 2 ^ 64 - 1 ∧
      (⟨0x42, 1, 0⟩ : Entry) ∈ nearFull.cb.entries ∧
      (0xFFFFFFFFFFFFFFFE#64).toNat + (1#6).toNat ≤ 2 ^ 64 - 1) :=
  ⟨⟨inv_encodeFailed, by decide⟩, ⟨inv_loaded, by decide⟩, ⟨inv_encoding, by decide⟩, ⟨inv_encoding_full, by decide⟩⟩

theorem test_witness_EncFlushPadsAndEnds :
    encodeFailed.w.err ≠ 0 ∧ ((loaded storeV1).w.err = 0 ∧ (loaded storeV1).w.active = false) ∧
    (aligned.w.err = 0 ∧ aligned.w.active = true ∧ aligned.w.cnt = 0) ∧
    (sevenPending.w.err = 0 ∧ sevenPending.w.active = true ∧ sevenPending.w.cnt ≠ 0) := by
  decide

theorem test_witness_EncodeProducesBitstream :
    (loaded storeV1).Inv ∧ (loaded storeV1).cb.err = 0 ∧
    (∀ x ∈ [0x41#8, 0x42#8], ∃ e ∈ (loaded storeV1).cb.entries, e.sym = x) ∧
    (messageBits (loaded storeV1).cb [0x41, 0x42]).length ≤ 2 ^ 64 - 1 :=
  ⟨inv_loaded, by decide, by decide, by decide⟩

/-- Right after `ENC.INIT` no byte has left, and the next command keeps the encode active. -/
theorem test_witness_StepKeepsWriterByteCount :
    (presenting 0x110000000000000041 midEncode).Inv ∧
    (midEncode.w.active = true →
      bytesSinceInit midEncode.history = midEncode.w.total.toNat / 8) ∧
    ∃ t, step (presenting 0x110000000000000041 midEncode) = .next t ∧ t.w.active = true :=
  ⟨by constructor <;> decide, by decide, _, rfl, by decide⟩

theorem test_witness_WriterCommandsFrame :
    (∃ t, exec .encInit encodeFailed = .next t) ∧ (∃ t, exec (.encSym 0x41) midEncode = .next t) ∧
    ∃ t, exec .encFlush midEncode = .next t :=
  ⟨⟨_, rfl⟩, ⟨_, rfl⟩, ⟨_, rfl⟩⟩

/-- A full bit count; a fold that completes C "10"; a fold that completes nothing; the 32nd bit. -/
theorem test_witness_FoldBitFoldsAndLooksUp :
    (bitsFull.Inv ∧ bitsFull.r.emitted ≠ 11 ∧
      bitsFull.r.bits.toNat = 2 ^ 64 - 1) ∧
    (midDecode.Inv ∧ midDecode.r.active = true ∧ midDecode.r.err = 0 ∧
      midDecode.r.emitted ≠ midDecode.r.origLen ∧
      (⟨0x43, 2, 2⟩ : Entry) ∈ midDecode.cb.entries ∧ (2#6).toNat = 1 + 1 ∧ (2#32).toNat = 2 * 1 + false.toNat) ∧
    (thirtyOneHeld.Inv ∧ thirtyOneHeld.r.emitted ≠ 5 ∧
      ∀ e ∈ thirtyOneHeld.cb.entries,
        ¬ (e.len.toNat = 31 + 1 ∧ e.code.toNat = 2 * (0x40C00000#32).toNat + false.toNat)) :=
  ⟨⟨inv_decoding_full, by decide⟩, ⟨inv_decoding, by decide⟩, ⟨inv_decoding_wide, by decide⟩⟩

theorem test_witness_DecInitMakesFreshReader : decodeFailed.cb.err = 0 ∧ buildFailed.cb.err ≠ 0 := by decide

theorem test_witness_DecByteTakesNoBit :
    decodeFailed.r.err ≠ 0 ∧ ((loaded storeV1).r.err = 0 ∧ (loaded storeV1).r.active = false) ∧
    (decodeDone.r.err = 0 ∧ decodeDone.r.active = true ∧
      decodeDone.r.emitted = decodeDone.r.origLen) ∧
    (bitsFull.r.err = 0 ∧ bitsFull.r.active = true ∧
      bitsFull.r.emitted ≠ bitsFull.r.origLen ∧
      bitsFull.r.bits.toNat = 2 ^ 64 - 1) := by decide

/-- The three parses: the byte that completes a decode (vector V4, third byte), one that leaves a bit (second byte), and the
32 unmatched bits (vector V17). -/
theorem test_witness_DecByteParsesGreedily :
    (midDecode.Inv ∧ midDecode.r.active = true ∧ midDecode.r.err = 0 ∧
      midDecode.r.emitted ≠ midDecode.r.origLen ∧
      midDecode.r.bits.toNat + 8 ≤ 2 ^ 64 - 1 ∧
      (∀ e ∈ [⟨0x43, 2, 2⟩, ⟨0x44, 2, 0⟩, ⟨0x44, 2, 0⟩, ⟨0x45, 3, 3⟩], e ∈ midDecode.cb.entries) ∧
      bitsMsb 1 (1#32) ++ bitsMsb 8 (0x03#8) =
        ([⟨0x43, 2, 2⟩, ⟨0x44, 2, 0⟩, ⟨0x44, 2, 0⟩, ⟨0x45, 3, 3⟩] : List Entry).flatMap entryBits ++ [] ∧
      (7#64).toNat + 4 = (11#64).toNat) ∧
    (afterFirstByte.Inv ∧ afterFirstByte.r.emitted ≠ afterFirstByte.r.origLen ∧
      (∀ e ∈ [⟨0x42, 3, 2⟩, ⟨0x43, 2, 2⟩, ⟨0x43, 2, 2⟩], e ∈ afterFirstByte.cb.entries) ∧
      bitsMsb 0 (0#32) ++ bitsMsb 8 (0x55#8) =
        ([⟨0x42, 3, 2⟩, ⟨0x43, 2, 2⟩, ⟨0x43, 2, 2⟩] : List Entry).flatMap entryBits ++ [true] ∧
      (4#64).toNat + 3 < (11#64).toNat ∧ (∀ e ∈ afterFirstByte.cb.entries, ¬ entryBits e <+: [true]) ∧
      [true].length < 32) ∧
    (thirtyOneHeld.Inv ∧
      thirtyOneHeld.r.emitted ≠ thirtyOneHeld.r.origLen ∧
      bitsMsb 31 (0x40C00000#32) ++ bitsMsb 8 (0x00#8) =
        ([] : List Entry).flatMap entryBits ++ (bitsMsb 31 (0x40C00000#32) ++ bitsMsb 8 (0x00#8)) ∧
      (∀ e ∈ thirtyOneHeld.cb.entries,
        ¬ entryBits e <+: bitsMsb 31 (0x40C00000#32) ++ bitsMsb 8 (0x00#8)) ∧
      32 ≤ (bitsMsb 31 (0x40C00000#32) ++ bitsMsb 8 (0x00#8)).length) :=
  ⟨⟨inv_decoding, by decide⟩, ⟨by constructor <;> decide, by decide⟩, ⟨inv_decoding_wide, by decide⟩⟩

/-- Room for one bit, which completes C "10" and the decode; room for seven bits, whose codes leave no bit; room for one bit, the
32nd without a match. -/
theorem test_witness_DecByteOverflowsInMidByte :
    ((decoding storeV1 1 1 8 7 0xFFFFFFFFFFFFFFFE).Inv ∧
      (let s := decoding storeV1 1 1 8 7 0xFFFFFFFFFFFFFFFE
       let es : List Entry := [⟨0x43, 2, 2⟩]
       s.r.active = true ∧ s.r.err = 0 ∧ s.r.emitted ≠ s.r.origLen ∧ 2 ^ 64 - 1 < s.r.bits.toNat + 8 ∧
       (∀ e ∈ es, e ∈ s.cb.entries) ∧
       bitsMsb s.r.cnt.toNat s.r.acc ++ (bitsMsb 8 (0x03#8)).take (2 ^ 64 - 1 - s.r.bits.toNat) =
         es.flatMap entryBits ++ [] ∧
       s.r.emitted.toNat + es.length = s.r.origLen.toNat)) ∧
    ((decoding storeV1 0 0 11 4 0xFFFFFFFFFFFFFFF8).Inv ∧
      (let s := decoding storeV1 0 0 11 4 0xFFFFFFFFFFFFFFF8
       let es : List Entry := [⟨0x42, 3, 2⟩, ⟨0x43, 2, 2⟩, ⟨0x43, 2, 2⟩]
       s.r.active = true ∧ s.r.err = 0 ∧ s.r.emitted ≠ s.r.origLen ∧ 2 ^ 64 - 1 < s.r.bits.toNat + 8 ∧
       (∀ e ∈ es, e ∈ s.cb.entries) ∧
       bitsMsb s.r.cnt.toNat s.r.acc ++ (bitsMsb 8 (0x55#8)).take (2 ^ 64 - 1 - s.r.bits.toNat) = es.flatMap entryBits ++ [] ∧
       s.r.emitted.toNat + es.length < s.r.origLen.toNat ∧ (∀ e ∈ s.cb.entries, ¬ entryBits e <+: []) ∧
       ([] : List Bool).length < 32)) ∧
    ((decoding storeWide 0x40C00000 31 5 1 0xFFFFFFFFFFFFFFFE).Inv ∧
      (let s := decoding storeWide 0x40C00000 31 5 1 0xFFFFFFFFFFFFFFFE
       let rest := bitsMsb 31 (0x40C00000#32) ++ [false]
       s.r.active = true ∧ s.r.err = 0 ∧ s.r.emitted ≠ s.r.origLen ∧ 2 ^ 64 - 1 < s.r.bits.toNat + 8 ∧
       bitsMsb s.r.cnt.toNat s.r.acc ++ (bitsMsb 8 (0x00#8)).take (2 ^ 64 - 1 - s.r.bits.toNat) = rest ∧
       s.r.emitted.toNat < s.r.origLen.toNat ∧ (∀ e ∈ s.cb.entries, ¬ entryBits e <+: rest) ∧ 32 ≤ rest.length)) :=
  ⟨⟨by constructor <;> decide, by decide⟩, ⟨by constructor <;> decide, by decide⟩, ⟨by constructor <;> decide, by decide⟩⟩

theorem test_witness_DecEndChecksComplete :
    decodeFailed.r.err ≠ 0 ∧ ((loaded storeV1).r.err = 0 ∧ (loaded storeV1).r.active = false) ∧
    (midDecode.r.err = 0 ∧ midDecode.r.active = true ∧
      midDecode.r.emitted ≠ midDecode.r.origLen) ∧
    (decodeDone.r.err = 0 ∧ decodeDone.r.active = true ∧
      decodeDone.r.emitted = decodeDone.r.origLen) := by decide

/-- Vector V14: the message A, B as 0xD7, its padding not 0; vector V7: the empty message, no byte. -/
theorem test_witness_DecodeRecoversMessage :
    (loaded storeV1).Inv ∧ (loaded storeV1).cb.err = 0 ∧
    (∀ x ∈ [0x41#8, 0x42#8], ∃ e ∈ (loaded storeV1).cb.entries, e.sym = x) ∧
    (messageBits (loaded storeV1).cb [0x41, 0x42]).length ≤ 2 ^ 64 - 1 ∧
    [0xD7#8].length = ((messageBits (loaded storeV1).cb [0x41, 0x42]).length + 7) / 8 ∧
    (byteBits [0xD7]).take (messageBits (loaded storeV1).cb [0x41, 0x42]).length = messageBits (loaded storeV1).cb [0x41, 0x42] ∧
    (∀ x ∈ ([] : List Byte), ∃ e ∈ (loaded storeV1).cb.entries, e.sym = x) ∧
    (messageBits (loaded storeV1).cb []).length ≤ 2 ^ 64 - 1 ∧
    ([] : List Byte).length = ((messageBits (loaded storeV1).cb []).length + 7) / 8 ∧
    (byteBits []).take (messageBits (loaded storeV1).cb []).length = messageBits (loaded storeV1).cb [] :=
  ⟨inv_loaded, by decide, by decide, by decide, by decide, by decide, by decide, by decide, by decide, by decide⟩

theorem test_witness_EncodeThenDecodeIsIdentity :
    (loaded storeV1).Inv ∧ (loaded storeV1).cb.err = 0 ∧
    (∀ x ∈ [0x41#8, 0x42#8], ∃ e ∈ (loaded storeV1).cb.entries, e.sym = x) ∧
    (messageBits (loaded storeV1).cb [0x41, 0x42]).length ≤ 2 ^ 64 - 1 :=
  ⟨inv_loaded, by decide, by decide, by decide⟩

theorem test_witness_ReaderCommandsFrame :
    (∃ t, exec (.decInit 3) decodeFailed = .next t) ∧ (∃ t, exec (.decByte 0x03) midDecode = .next t) ∧
    ∃ t, exec .decEnd midDecode = .next t :=
  ⟨⟨_, rfl⟩, ⟨_, rfl⟩, ⟨_, rfl⟩⟩

theorem test_witness_StatGetReadsTheRegister :
    (9#4).toNat ≤ 9 ∧ 10 ≤ (10#4).toNat ∧ (loaded storeV1).cb.entries.length ≤ 256 := by decide

theorem test_witness_LatchedErrorIsReturned :
    (buildFailed.Inv ∧ buildFailed.cb.err ≠ 0) ∧ (encodeFailed.Inv ∧ encodeFailed.w.err ≠ 0) ∧
    (decodeFailed.Inv ∧ decodeFailed.r.err ≠ 0) :=
  ⟨⟨inv_buildFailed, by decide⟩, ⟨inv_encodeFailed, by decide⟩, ⟨inv_decodeFailed, by decide⟩⟩

theorem test_witness_LatchClearedOnlyByInit :
    (buildFailed.cb.err ≠ 0 ∧ ∃ t, exec .cbClear buildFailed = .next t) ∧
    (encodeFailed.w.err ≠ 0 ∧ ∃ t, exec .encInit encodeFailed = .next t) ∧
    (decodeFailed.r.err ≠ 0 ∧ ∃ t, exec .decEnd decodeFailed = .next t) ∧ Instr.decEnd ≠ Instr.sreset :=
  ⟨⟨by decide, _, rfl⟩, ⟨by decide, _, rfl⟩, ⟨by decide, _, rfl⟩, by decide⟩

theorem test_witness_FaultLogRecordsStatuses :
    decodeFailed.Inv ∧ (∃ t, exec (.decByte 0x00) decodeFailed = .next t) ∧ Instr.decByte 0x00 ≠ Instr.sreset :=
  ⟨inv_decodeFailed, ⟨_, rfl⟩, by decide⟩

theorem test_witness_LockedStoreDoesNotChange :
    midEncode.Inv ∧ midEncode.w.active = true ∧
    (∃ t, exec (.cbLoad 0x5A 1 0) midEncode = .next t) ∧ Instr.cbLoad 0x5A 1 0 ≠ Instr.sreset :=
  ⟨inv_encoding, by decide, ⟨_, rfl⟩, by decide⟩

theorem test_witness_UnitsFollowLifeCycle :
    (midEncode.Inv ∧ midEncode.w.phase = .active ∧
      ∃ t, exec .encFlush midEncode = .next t) ∧
    (midDecode.Inv ∧ midDecode.r.phase = .active ∧
      midDecode.r.done = false ∧ ∃ t, exec .decEnd midDecode = .next t) ∧
    ((loaded storeV1).Inv ∧ (loaded storeV1).storePhase = .building ∧ ∃ t, exec (.cbLoad 0x5A 1 0) (loaded storeV1) = .next t) :=
  ⟨⟨inv_encoding, by decide, _, rfl⟩, ⟨inv_decoding, by decide, by decide, _, rfl⟩, ⟨inv_loaded, by decide, _, rfl⟩⟩

/-- Two states with the same store and writer, one with a decode in progress. -/
theorem test_witness_UnitsDoNotInterfere :
    bothActive.cb = (encoding storeV1 2 3 11).cb ∧ bothActive.w = (encoding storeV1 2 3 11).w ∧
    (∃ t, exec (.encSym 0x41) bothActive = .next t) ∧ (∃ t, exec (.encSym 0x41) (encoding storeV1 2 3 11) = .next t) ∧
    bothActive.cb = midDecode.cb ∧ bothActive.r = midDecode.r ∧
    (∃ t, exec (.decByte 0x03) bothActive = .next t) ∧ ∃ t, exec (.decByte 0x03) midDecode = .next t :=
  ⟨by decide, by decide, ⟨_, rfl⟩, ⟨_, rfl⟩, by decide, by decide, ⟨_, rfl⟩, ⟨_, rfl⟩⟩

theorem test_witness_RepeatedCommandsChangeNothing :
    (∃ t, exec .encInit encodeFailed = .next t ∧ ∃ u, exec .encInit t = .next u) ∧
    (encodeFailed.w.err ≠ 0 ∧ ∃ t, exec .encFlush encodeFailed = .next t ∧ ∃ u, exec .encFlush t = .next u) ∧
    (decodeFailed.r.err ≠ 0 ∧ ∃ t, exec .decEnd decodeFailed = .next t ∧ ∃ u, exec .decEnd t = .next u) ∧
    (buildFailed.cb.err ≠ 0 ∧ ∃ t, exec (.cbLoad 0x5A 1 0) buildFailed = .next t ∧ ∃ u, exec (.cbLoad 0x5A 1 0) t = .next u) :=
  ⟨⟨_, rfl, _, rfl⟩, ⟨by decide, _, rfl, _, rfl⟩, ⟨by decide, _, rfl, _, rfl⟩, ⟨by decide, _, rfl, _, rfl⟩⟩

theorem test_witness_StepKeepsInvariant :
    (presenting 0x210000000000000003 midDecode).Inv ∧
    ∃ t, step (presenting 0x210000000000000003 midDecode) = .next t :=
  ⟨by constructor <;> decide, _, rfl⟩

end Sys2Proof.Tests
end

section
/-! SUPPORT. What a step can do, said once: wait, reset, run a decoded command, or answer an illegal word. -/

namespace Sys2Proof.Machine

/-- Every command is answered by a next state. -/
theorem exec_total (i : Instr) (s : State) : ∃ t, exec i s = .next t := by
  cases i <;> exact ⟨_, rfl⟩

theorem step_of_waiting {s : State} (hs : s.hostIn = []) : step s = .next s := by
  simp only [step, takeHostEvent, hs]

theorem step_hardwareReset {s : State} {rest : List HostEvent} (hs : s.hostIn = .hardwareReset :: rest) :
    step s = .next (hardwareReset (withHost rest s)) := by
  simp only [step, takeHostEvent, hs]
  rfl

theorem step_illegal {s : State} {w : Word72} {rest : List HostEvent} {e : IllegalWord}
    (hs : s.hostIn = .command w :: rest) (hd : decode w = .error e) :
    step s = .next (raiseErr .illegalCmd (record (.cmd w) (withHost rest s))) := by
  simp only [step, takeHostEvent, hs, runCommand, hd]
  rfl

/-- The four things a step can do. -/
theorem step_cases {s t : State} (h : step s = .next t) :
    t = s ∨
    (∃ rest, t = hardwareReset (withHost rest s)) ∨
    (∃ w rest i, decode w = .ok i ∧ exec i (record (.cmd w) (withHost rest s)) = .next t) ∨
    (∃ w rest e, decode w = .error e ∧ t = raiseErr .illegalCmd (record (.cmd w) (withHost rest s))) := by
  match hs : s.hostIn with
  | [] =>
    rw [step_of_waiting hs] at h
    cases h
    exact .inl rfl
  | .hardwareReset :: rest =>
    rw [step_hardwareReset hs] at h
    cases h
    exact .inr (.inl ⟨rest, rfl⟩)
  | .command w :: rest =>
    cases hd : decode w with
    | ok i =>
      rw [step_command hs hd] at h
      exact .inr (.inr (.inl ⟨w, rest, i, hd, h⟩))
    | error e =>
      rw [step_illegal hs hd] at h
      cases h
      exact .inr (.inr (.inr ⟨w, rest, e, hd, rfl⟩))

/-- Settles O5: a presented word that decodes is run by `exec`; with nothing presented the step waits. -/
theorem stepRunsPresentedCommand : Obligations.StepRunsPresentedCommand :=
  ⟨fun _ _ _ _ hs hd => step_command hs hd, fun _ hs => step_of_waiting hs⟩

/-- Settles O6, by the host's next event. -/
theorem everyCommandIsAnswered : Obligations.EveryCommandIsAnswered := by
  refine ⟨fun s => ?_, exec_total⟩
  match hs : s.hostIn with
  | [] => exact ⟨_, step_of_waiting hs⟩
  | .hardwareReset :: rest => exact ⟨_, step_hardwareReset hs⟩
  | .command w :: rest =>
    cases hd : decode w with
    | ok i => rw [step_command hs hd]; exact exec_total i _
    | error e => exact ⟨_, step_illegal hs hd⟩

end Sys2Proof.Machine
end

section
/-! SUPPORT. The reset values (10_state.md rule R30). -/

namespace Sys2Proof.Machine

/-- Settles O8: every register of `State.reset` is a literal. -/
theorem resetStateValues : Obligations.ResetStateValues := by
  unfold Obligations.ResetStateValues AtResetValues
  decide

/-- The reset values are a matter of the registers alone, not of the histories or the host. -/
theorem AtResetValues.of_registers {s : State} (hcb : s.cb = State.reset.cb) (hw : s.w = Writer.reset)
    (hr : s.r = Reader.reset) (hl : s.faultLog = 0) : AtResetValues s := by
  have hlocked : s.cbLocked = State.reset.cbLocked := by rw [State.cbLocked, hw, hr]; rfl
  rw [AtResetValues, hcb, hw, hr, hl, hlocked]
  exact resetStateValues.1

/-- Settles O9: each reset by the registers it leaves and the history it keeps. -/
theorem bothResetsLeaveResetValues : Obligations.BothResetsLeaveResetValues := by
  constructor
  · intro s rest hs
    exact ⟨_, step_hardwareReset hs, .of_registers rfl rfl rfl rfl, rfl, rfl, rfl, rfl⟩
  · intro s
    refine ⟨_, rfl, .of_registers rfl rfl rfl rfl, ?_, ?_, rfl, rfl⟩
    · simp [respond, Event.byte?, byteOut_congr (softReset_history s)]
    · simp [respond, Event.sym?, symOut_congr (softReset_history s)]

/-- Settles O44: each clause of the invariant, on the literal reset state. -/
theorem resetMeetsInvariant : Obligations.ResetMeetsInvariant := by
  unfold Obligations.ResetMeetsInvariant
  constructor <;> decide

end Sys2Proof.Machine
end

section
/-! SUPPORT. The fault log under a raise, and the rules by which the shared operations keep the invariant (10_state.md rules R25,
R31 to R34; 60_exceptions.md rules R193, R202). -/

namespace Sys2Proof.Machine

/-- An error's number is one of 1 to 14. -/
theorem Err.code_range (e : Err) : 1 ≤ e.code.toNat ∧ e.code.toNat ≤ 14 := by
  cases e <;> simp [Err.code]

theorem Err.code_ne_zero (e : Err) : e.code ≠ 0 := by
  cases e <;> simp [Err.code]

/-- A raise sets the bit of its own number and no other. -/
theorem getLsbD_log (log : BitVec 16) (e : Err) (k : Nat) :
    (log ||| (1#16 <<< e.code.toNat)).getLsbD k = (log.getLsbD k || decide (k = e.code.toNat)) := by
  obtain ⟨-, hle⟩ := e.code_range
  rw [BitVec.getLsbD_or, BitVec.getLsbD_shiftLeft, BitVec.getLsbD_one]
  congr 1
  rw [Bool.eq_iff_iff]
  simp
  omega

namespace State.Inv

variable {s t : State}

/-- The invariant speaks of the registers only, not of the history or the host. -/
theorem of_registers (h : s.Inv) (hcb : t.cb = s.cb) (hw : t.w = s.w) (hr : t.r = s.r) (hl : t.faultLog = s.faultLog) :
    t.Inv := by
  obtain ⟨cb, w, r, log, history, hostIn⟩ := t
  dsimp only at hcb hw hr hl
  subst hcb hw hr hl
  exact { h with }

theorem respond (h : s.Inv) (c : Byte) (d : Count) : (respond c d s).Inv := h.of_registers rfl rfl rfl rfl

/-- A failed codebook build leaves both units idle. -/
theorem units_idle (h : s.Inv) (hne : s.cb.err ≠ 0) : s.w.active = false ∧ s.r.active = false :=
  (cbLocked_eq_false s).1 (h.cbLatchUnlocked hne)

theorem cbErr_logged (h : s.Inv) (hne : s.cb.err ≠ 0) : s.faultLog.getLsbD s.cb.err.toNat = true := h.latchesLogged.1 hne

theorem wErr_logged (h : s.Inv) (hne : s.w.err ≠ 0) : s.faultLog.getLsbD s.w.err.toNat = true := h.latchesLogged.2.1 hne

theorem rErr_logged (h : s.Inv) (hne : s.r.err ≠ 0) : s.faultLog.getLsbD s.r.err.toNat = true := h.latchesLogged.2.2 hne

theorem logFault (h : s.Inv) (e : Err) : (logFault e s).Inv := by
  obtain ⟨h1, h14⟩ := e.code_range
  obtain ⟨l0, l15⟩ := h.logReserved
  have hkeep {k : Nat} (hk : s.faultLog.getLsbD k = true) : (Machine.logFault e s).faultLog.getLsbD k = true := by
    rw [logFault_faultLog, getLsbD_log, hk, Bool.true_or]
  exact { h with
    logReserved := by
      rw [logFault_faultLog, getLsbD_log, getLsbD_log, l0, l15, Bool.false_or, Bool.false_or,
        decide_eq_false_iff_not, decide_eq_false_iff_not]
      omega
    latchesLogged := ⟨fun hne => hkeep (h.cbErr_logged hne), fun hne => hkeep (h.wErr_logged hne),
      fun hne => hkeep (h.rErr_logged hne)⟩ }

/-- The bit of a raised error is set when its latch is written. -/
theorem logFault_self (e : Err) (s : State) : (Machine.logFault e s).faultLog.getLsbD e.code.toNat = true := by
  rw [logFault_faultLog, getLsbD_log, decide_eq_true rfl, Bool.or_true]

/-- A precondition error latches nothing. -/
theorem raiseErr_precondition (h : s.Inv) {e : Err} (he : e ∈ [.illegalCmd, .cbLocked, .cbInvalid, .notActive]) :
    (raiseErr e s).Inv := by
  fin_cases he <;> exact (h.logFault _).respond _ _

/-- A latched build error keeps the invariant while the store is unlocked. -/
theorem failBuild (h : s.Inv) (hl : s.cbLocked = false) {c : Byte} (hc : 2 ≤ c.toNat ∧ c.toNat ≤ 6)
    (hlog : s.faultLog.getLsbD c.toNat = true) : State.Inv { s with cb := { s.cb with err := c } } :=
  { h with
    cbErrRange := .inr hc
    cbLatchUnlocked := fun _ => hl
    latchesLogged := ⟨fun _ => hlog, h.wErr_logged, h.rErr_logged⟩ }

theorem raiseErr_build (h : s.Inv) (hl : s.cbLocked = false) {e : Err} (he : e ∈ buildErrors) : (raiseErr e s).Inv := by
  fin_cases he <;> exact ((h.logFault _).failBuild hl (by decide) (logFault_self _ s)).respond _ _

/-- A latched encode error ends the encode. -/
theorem failEncode (h : s.Inv) {c : Byte} (hc : c = 0x0A ∨ c = 0x0E) (hlog : s.faultLog.getLsbD c.toNat = true) :
    State.Inv { s with w := { s.w with err := c, active := false } } :=
  { h with
    wErrRange := .inr hc
    wCntIsTotal := nofun
    wLatchIdle := fun _ => rfl
    cbLatchUnlocked := fun hne => (cbLocked_eq_false _).2 ⟨rfl, (h.units_idle hne).2⟩
    latchesLogged := ⟨h.cbErr_logged, fun _ => hlog, h.rErr_logged⟩ }

theorem raiseErr_encode (h : s.Inv) {e : Err} (he : e ∈ [.noSymbol, .countOverflow .writer]) : (raiseErr e s).Inv := by
  fin_cases he <;> exact ((h.logFault _).failEncode (by decide) (logFault_self _ s)).respond _ _

/-- A latched decode error but `E_NO_MATCH` ends a decode that held fewer than `MAXLEN` bits. -/
theorem failDecode (h : s.Inv) (herr : s.r.err = 0) {c : Byte} (hc : 0x0B ≤ c.toNat ∧ c.toNat ≤ 0x0E)
    (hlog : s.faultLog.getLsbD c.toNat = true) : State.Inv { s with r := { s.r with err := c, active := false } } :=
  { h with
    rErrRange := .inr hc
    rCntFull := fun hfull => absurd (h.rCntFull hfull) (by simp [herr])
    rDoneEmpty := fun hd _ => h.rDoneEmpty hd (.inl herr)
    rHeldUnmatched := nofun
    rLatchIdle := fun _ => rfl
    cbLatchUnlocked := fun hne => (cbLocked_eq_false _).2 ⟨(h.units_idle hne).1, rfl⟩
    latchesLogged := ⟨h.cbErr_logged, h.wErr_logged, fun _ => hlog⟩ }

theorem raiseErr_decode (h : s.Inv) (herr : s.r.err = 0) {e : Err} (he : e ∈ [.truncated, .overrun, .countOverflow .reader]) :
    (raiseErr e s).Inv := by
  fin_cases he <;> exact ((h.logFault _).failDecode herr (by decide) (logFault_self _ s)).respond _ _

end State.Inv
end Sys2Proof.Machine
end

section
/-! SUPPORT. The codebook and the writer commands keep the invariant (10_state.md rules R31, R33, R34). -/

namespace Sys2Proof.Machine

/-- No stored code conflicts with one that passes the last check of `CB.LOAD` (40_codebook_commands.md rule R95). -/
theorem conflictsWithStore_false {cb : Codebook} {code : CodeWord} {len : Nat}
    (h : conflictsWithStore cb code len = false) : ∀ e ∈ cb.entries, codesConflict e.code e.len.toNat code len = false := by
  simpa [conflictsWithStore] using h

/-- The pending bits of an append are those past the last whole byte of the new total. -/
theorem appendCode_count {s : State} (h : s.w.acc.toNat < 2 ^ s.w.cnt.toNat) (e : Entry) :
    (appendCode e s).w.cnt.toNat = (s.w.cnt.toNat + e.len.toNat) % 8 := by
  have hlt : (leftover (pendingBits s.w ++ entryBits e)).length < 8 := by rw [length_leftover]; omega
  have hl := length_leftover (pendingBits s.w ++ entryBits e)
  simp only [List.length_append, length_pendingBits, length_entryBits] at hl
  simp only [appendCode_eq h, withPending, BitVec.toNat_ofNat, hl]
  omega

/-- The total after an append that passed the check of rule R113. -/
theorem appendCode_total {s : State} {e : Entry} (h : s.w.total.toNat + e.len.toNat ≤ 2 ^ 64 - 1) :
    (appendCode e s).w.total.toNat = s.w.total.toNat + e.len.toNat := by
  simp only [appendCode, BitVec.toNat_add, BitVec.toNat_setWidth]
  omega

namespace State.Inv

variable {s t : State}

theorem cbClear (h : s.Inv) (hx : exec .cbClear s = .next t) : t.Inv := by
  obtain ⟨-, rfl⟩ | ⟨-, rfl⟩ := cbClear_cases hx
  · exact h.raiseErr_precondition (by simp)
  · exact State.Inv.respond (s := { s with cb := { entries := [], err := 0 } }) { h with
      entriesValid := nofun
      symsDistinct := .nil
      prefixFree := .nil
      cbErrRange := .inl rfl
      rHeldUnmatched := nofun
      cbLatchUnlocked := nofun
      latchesLogged := ⟨nofun, h.wErr_logged, h.rErr_logged⟩ } _ _

/-- An entry that passes the checks of `CB.LOAD` keeps the store valid and free of conflicts. -/
theorem appendEntry (h : s.Inv) (hl : s.cbLocked = false) {e : Entry} (hv : validEntry e.len.toNat e.code = true)
    (hsym : lookupSym s.cb e.sym = none) (hfree : conflictsWithStore s.cb e.code e.len.toNat = false) :
    State.Inv { s with cb := { s.cb with entries := s.cb.entries ++ [e] } } :=
  { h with
    entriesValid := by
      intro a ha
      rcases List.mem_append.1 ha with ha | ha
      · exact h.entriesValid a ha
      · rw [List.mem_singleton.1 ha]; exact hv
    symsDistinct := by
      simpa [List.pairwise_append, h.symsDistinct] using lookupSym_none.1 hsym
    prefixFree := by
      simpa [List.pairwise_append, h.prefixFree] using conflictsWithStore_false hfree
    rHeldUnmatched := fun ha => by
      have hr : s.r.active = false := ((cbLocked_eq_false s).1 hl).2
      exact absurd ha (by simp [hr]) }

theorem cbLoad (h : s.Inv) {sym : Byte} {len : BitVec 8} {code : CodeWord} (hx : exec (.cbLoad sym len code) s = .next t) :
    t.Inv := by
  obtain ⟨-, rfl⟩ | ⟨-, -, rfl⟩ | ⟨-, hl, e, he, rfl⟩ | ⟨-, hl, hv, hsym, hfree, rfl⟩ := cbLoad_cases hx
  · exact h.respond _ _
  · exact h.raiseErr_precondition (by simp)
  · exact h.raiseErr_build hl he
  · have hlen : (len.setWidth 6).toNat = len.toNat := by
      obtain ⟨-, h32, -⟩ := (validEntry_iff _ _).1 hv
      rw [BitVec.toNat_setWidth]
      omega
    exact (h.appendEntry (e := ⟨sym, len.setWidth 6, code⟩) hl (by rwa [hlen]) hsym (by rwa [hlen])).respond _ _

theorem encInit (h : s.Inv) (hx : exec .encInit s = .next t) : t.Inv := by
  obtain ⟨-, rfl⟩ | ⟨hok, rfl⟩ := encInit_cases hx
  · exact h.raiseErr_precondition (by simp)
  · exact State.Inv.respond (s := { s with w := freshWriter }) { h with
      wErrRange := .inl rfl
      wAccFits := by simp [freshWriter]
      wCntIsTotal := fun _ => by simp [freshWriter]
      wLatchIdle := nofun
      cbLatchUnlocked := fun hne => absurd hok hne
      latchesLogged := ⟨h.cbErr_logged, nofun, h.rErr_logged⟩ } _ _

/-- Appending a code within the count keeps the invariant of an active encode. -/
theorem appendCode (h : s.Inv) (ha : s.w.active = true) {e : Entry} (hle : s.w.total.toNat + e.len.toNat ≤ 2 ^ 64 - 1) :
    (appendCode e s).Inv := by
  have hcnt := appendCode_count h.wAccFits e
  have htotal := appendCode_total hle
  have hpending := h.wCntIsTotal ha
  rw [appendCode_eq h.wAccFits] at hcnt htotal ⊢
  exact { h with
    wAccFits := withPending_fits s.w (by rw [length_leftover]; omega)
    wCntIsTotal := fun _ => by rw [hcnt, htotal]; omega }

theorem encSym (h : s.Inv) {x : Byte} (hx : exec (.encSym x) s = .next t) : t.Inv := by
  obtain ⟨-, rfl⟩ | ⟨-, -, rfl⟩ | ⟨-, -, -, rfl⟩ | ⟨-, ha, e, -, -, -, ⟨-, rfl⟩ | ⟨hle, rfl⟩⟩ := encSym_cases hx
  · exact h.respond _ _
  · exact h.raiseErr_precondition (by simp)
  · exact h.raiseErr_encode (by simp)
  · exact h.raiseErr_encode (by simp)
  · exact (h.appendCode ha hle).respond _ _

/-- An encode that has ended without an error is idle, whatever bits that fit it keeps. -/
theorem endEncode (h : s.Inv) {acc : BitVec 8} {cnt : BitVec 3} (hfits : acc.toNat < 2 ^ cnt.toNat) :
    State.Inv { s with w := { s.w with active := false, acc := acc, cnt := cnt } } :=
  { h with
    wAccFits := hfits
    wCntIsTotal := nofun
    wLatchIdle := fun _ => rfl
    cbLatchUnlocked := fun hne => (cbLocked_eq_false _).2 ⟨rfl, (h.units_idle hne).2⟩ }

theorem encFlush (h : s.Inv) (hx : exec .encFlush s = .next t) : t.Inv := by
  obtain ⟨-, rfl⟩ | ⟨-, -, rfl⟩ | ⟨-, -, -, rfl⟩ | ⟨-, -, -, rfl⟩ := encFlush_cases hx
  · exact h.respond _ _
  · exact h.raiseErr_precondition (by simp)
  · exact (h.endEncode h.wAccFits).respond _ _
  · exact (h.endEncode (acc := 0) (cnt := 0) (by decide)).of_registers rfl rfl rfl rfl

end State.Inv
end Sys2Proof.Machine
end

section
/-! SUPPORT. The reader and the system commands keep the invariant (10_state.md rules R32, R34). -/

namespace Sys2Proof.Machine

/-- The three things one fold can do (42_reader_commands.md rule R131). -/
theorem foldBit_cases {s : State} (h : FoldReady s) (b : Bool) :
    foldBit b s = (s, some (.countOverflow .reader)) ∨
    (s.r.bits.toNat ≠ 2 ^ 64 - 1 ∧ ∃ e ∈ s.cb.entries,
      foldBit b s = ({ s with
        r := { s.r with acc := 0, cnt := 0, bits := s.r.bits + 1, emitted := s.r.emitted + 1 }
        history := s.history ++ [.outSym e.sym] }, none)) ∨
    (s.r.bits.toNat ≠ 2 ^ 64 - 1 ∧ (∀ e ∈ s.cb.entries, entryBits e ≠ heldBits s.r ++ [b]) ∧
      foldBit b s = ({ s with r := { withHeld s.r (heldBits s.r ++ [b]) with bits := s.r.bits + 1 } },
        if (heldBits s.r ++ [b]).length = 32 then some .noMatch else none)) := by
  by_cases hb : s.r.bits.toNat = 2 ^ 64 - 1
  · exact .inl (foldBit_overflow hb b)
  by_cases hm : ∃ e ∈ s.cb.entries, entryBits e = heldBits s.r ++ [b]
  · obtain ⟨e, he, heq⟩ := hm
    exact .inr (.inl ⟨hb, e, he, foldBit_match h hb he heq⟩)
  · push Not at hm
    exact .inr (.inr ⟨hb, hm, foldBit_hold h hb hm⟩)

/-- A reader ready to parse is not done. -/
theorem ParseReady.not_done {s : State} (h : ParseReady s) : ¬ s.r.done = true := by
  intro hd
  have hlt := h.notDone
  rw [(done_eq_true _).1 hd] at hlt
  exact absurd hlt (lt_irrefl _)

/-- The state a fold or a loop of folds ends in once the error it raises, if any, is taken. -/
def afterFold : State × Option Err → State
  | (s, none) => s
  | (s, some e) => raiseErr e s

namespace State.Inv

variable {s t : State}

/-- A decode in progress is ready to parse. -/
theorem parseReady (h : s.Inv) (ha : s.r.active = true) (herr : s.r.err = 0) (hd : s.r.done = false) : ParseReady s where
  store := h.storeOk
  fits := h.rAccFits
  room := lt_of_le_of_ne h.rCntLe fun hfull => absurd (h.rCntFull hfull) (by simp [herr])
  unmatched := h.rHeldUnmatched ha
  notDone := by
    refine lt_of_le_of_ne h.rEmittedLe fun heq => ?_
    have hdone := (done_eq_true s.r).2 (BitVec.eq_of_toNat_eq heq)
    simp [hd] at hdone

/-- A matched code empties the reader and counts a symbol. -/
theorem foldMatch (h : s.Inv) (hp : ParseReady s) {x : Byte} :
    State.Inv { s with
      r := { s.r with acc := 0, cnt := 0, bits := s.r.bits + 1, emitted := s.r.emitted + 1 }
      history := s.history ++ [.outSym x] } := by
  have hlt := s.r.origLen.isLt
  have hnot := hp.notDone
  have hemitted : (s.r.emitted + 1).toNat ≤ s.r.origLen.toNat := by
    rw [toNat_succ_count _ (by omega)]
    omega
  exact { h with
    rAccFits := by simp
    rEmittedLe := hemitted
    rCntLe := by simp
    rCntFull := by simp [Config.maxLen]
    rDoneEmpty := fun _ _ => ⟨rfl, rfl⟩
    rCntLeBits := by simp
    rHeldUnmatched := fun _ e he => by simpa using hp.store.entryBits_ne_nil he }

/-- One more held bit is one more folded bit. -/
theorem held_succ_le (h : s.Inv) (hb : s.r.bits.toNat ≠ 2 ^ 64 - 1) (b : Bool) :
    (withHeld s.r (heldBits s.r ++ [b])).cnt.toNat ≤ (s.r.bits + 1).toNat := by
  have hheld := h.rCntLeBits
  rw [toNat_succ_count _ hb, withHeld, BitVec.toNat_ofNat, List.length_append, length_heldBits, List.length_singleton]
  exact (Nat.mod_le _ _).trans (by omega)

/-- A held bit that completes no code and does not fill the accumulator. -/
theorem foldHold (h : s.Inv) (hp : ParseReady s) (hb : s.r.bits.toNat ≠ 2 ^ 64 - 1) {b : Bool}
    (hno : ∀ e ∈ s.cb.entries, entryBits e ≠ heldBits s.r ++ [b]) (hroom : (heldBits s.r ++ [b]).length < 32) :
    State.Inv { s with r := { withHeld s.r (heldBits s.r ++ [b]) with bits := s.r.bits + 1 } } := by
  have hp' := hp.afterHold hno hroom
  exact { h with
    rAccFits := hp'.fits
    rCntLe := hp'.room.le
    rCntFull := fun hfull => absurd hfull hp'.room.ne
    rDoneEmpty := fun hd => absurd hd hp.not_done
    rCntLeBits := held_succ_le h hb b
    rHeldUnmatched := fun _ => hp'.unmatched }

/-- The fold that fills the accumulator without a match, once `E_NO_MATCH` is taken. -/
theorem foldNoMatch (h : s.Inv) (hp : ParseReady s) (hb : s.r.bits.toNat ≠ 2 ^ 64 - 1) {b : Bool}
    (hfull : (heldBits s.r ++ [b]).length = 32) :
    (raiseErr .noMatch { s with r := { withHeld s.r (heldBits s.r ++ [b]) with bits := s.r.bits + 1 } }).Inv := by
  have hlog := h.logFault .noMatch
  have hcnt : (withHeld s.r (heldBits s.r ++ [b])).cnt = 32 := by rw [withHeld, hfull]; rfl
  exact State.Inv.respond
    (s := { Machine.logFault .noMatch s with
      r := { withHeld s.r (heldBits s.r ++ [b]) with bits := s.r.bits + 1, err := 0x0B, active := false } })
    { hlog with
      rErrRange := .inr (by simp)
      rAccFits := withHeld_fits s.r (by omega)
      rCntLe := by rw [hcnt]; decide
      rCntFull := fun _ => rfl
      rDoneEmpty := fun hd => absurd hd hp.not_done
      rCntLeBits := held_succ_le h hb b
      rHeldUnmatched := nofun
      rLatchIdle := fun _ => rfl
      cbLatchUnlocked := fun hne => (cbLocked_eq_false _).2 ⟨(h.units_idle hne).1, rfl⟩
      latchesLogged := ⟨hlog.cbErr_logged, hlog.wErr_logged, fun _ => logFault_self .noMatch s⟩ } _ _

/-- One fold of a decode in progress keeps the invariant, the error it raises taken, and leaves the unit in progress. -/
theorem foldBit_keeps (h : s.Inv) (herr : s.r.err = 0) (hp : ParseReady s) (b : Bool) :
    (afterFold (foldBit b s)).Inv ∧ (foldBit b s).1.r.active = s.r.active ∧ (foldBit b s).1.r.err = s.r.err := by
  obtain hf | ⟨hb, e, -, hf⟩ | ⟨hb, hno, hf⟩ := foldBit_cases hp.toFoldReady b
  · rw [hf]
    exact ⟨h.raiseErr_decode herr (by simp), rfl, rfl⟩
  · rw [hf]
    exact ⟨h.foldMatch hp, rfl, rfl⟩
  · rw [hf]
    by_cases hfull : (heldBits s.r ++ [b]).length = 32
    · rw [if_pos hfull]
      exact ⟨h.foldNoMatch hp hb hfull, rfl, rfl⟩
    · rw [if_neg hfull]
      have hroom := hp.room
      exact ⟨h.foldHold hp hb hno (by simp at hfull ⊢; omega), rfl, rfl⟩

/-- The loop of `DEC.BYTE` keeps the invariant, the error it raises taken. -/
theorem foldBits_keeps (bits : List Bool) {s : State} (h : s.Inv) (ha : s.r.active = true) (herr : s.r.err = 0) :
    (afterFold (foldBits bits s)).Inv := by
  induction bits generalizing s with
  | nil => exact h
  | cons b bs ih =>
    cases hd : s.r.done with
    | true => rw [foldBits_done hd]; exact h
    | false =>
      have hp := h.parseReady ha herr hd
      obtain ⟨hinv, hact, herr'⟩ := h.foldBit_keeps herr hp b
      rw [foldBits_cons hp.notDone]
      rcases hf : foldBit b s with ⟨s', _ | e⟩
      · rw [hf] at hinv hact herr'
        exact ih hinv (hact.trans ha) (herr'.trans herr)
      · rw [hf] at hinv
        exact hinv

theorem decInit (h : s.Inv) {n : Count} (hx : exec (.decInit n) s = .next t) : t.Inv := by
  obtain ⟨-, rfl⟩ | ⟨hok, rfl⟩ := decInit_cases hx
  · exact h.raiseErr_precondition (by simp)
  · exact State.Inv.respond (s := { s with r := freshReader n }) { h with
      rErrRange := .inl rfl
      rAccFits := by simp [freshReader]
      rEmittedLe := by simp [freshReader]
      rCntLe := by simp [freshReader]
      rCntFull := by simp [freshReader, Config.maxLen]
      rDoneEmpty := fun _ _ => ⟨rfl, rfl⟩
      rCntLeBits := by simp [freshReader]
      rHeldUnmatched := fun _ e he => by simpa [freshReader] using h.storeOk.entryBits_ne_nil he
      rLatchIdle := nofun
      cbLatchUnlocked := fun hne => absurd hok hne
      latchesLogged := ⟨h.cbErr_logged, h.wErr_logged, nofun⟩ } _ _

theorem decByte (h : s.Inv) {b : Byte} (hx : exec (.decByte b) s = .next t) : t.Inv := by
  obtain ⟨-, rfl⟩ | ⟨-, -, rfl⟩ | ⟨herr, -, -, rfl⟩ | ⟨herr, ha, -, s', hf, rfl⟩ | ⟨herr, ha, -, s', e, hf, -, rfl⟩ :=
    decByte_cases hx
  · exact h.respond _ _
  · exact h.raiseErr_precondition (by simp)
  · exact h.raiseErr_decode herr (by simp)
  · have hloop := h.foldBits_keeps (bitsMsb 8 b) ha herr
    rw [hf] at hloop
    exact hloop.respond _ _
  · have hloop := h.foldBits_keeps (bitsMsb 8 b) ha herr
    rwa [hf] at hloop

theorem decEnd (h : s.Inv) (hx : exec .decEnd s = .next t) : t.Inv := by
  obtain ⟨-, rfl⟩ | ⟨-, -, rfl⟩ | ⟨herr, -, -, rfl⟩ | ⟨-, -, -, rfl⟩ := decEnd_cases hx
  · exact h.respond _ _
  · exact h.raiseErr_precondition (by simp)
  · exact h.raiseErr_decode herr (by simp)
  · exact State.Inv.respond (s := { s with r := { s.r with active := false } }) { h with
      rHeldUnmatched := nofun
      rLatchIdle := fun _ => rfl
      cbLatchUnlocked := fun hne =>
        (cbLocked_eq_false _).2 ⟨(h.units_idle hne).1, rfl⟩ } _ _

theorem statGet (h : s.Inv) {reg : BitVec 4} (hx : exec (.statGet reg) s = .next t) : t.Inv := by
  obtain ⟨-, rfl⟩ | ⟨-, rfl⟩ := statGet_cases hx
  · exact h.respond _ _
  · exact h.raiseErr_precondition (by simp)

theorem sreset (hx : exec .sreset s = .next t) : t.Inv := by
  rw [sreset_cases hx]
  exact resetMeetsInvariant.of_registers rfl rfl rfl rfl

/-- Every command keeps the invariant. -/
theorem exec (h : s.Inv) {i : Instr} (hx : exec i s = .next t) : t.Inv := by
  cases i with
  | cbClear => exact h.cbClear hx
  | cbLoad => exact h.cbLoad hx
  | encInit => exact h.encInit hx
  | encSym => exact h.encSym hx
  | encFlush => exact h.encFlush hx
  | decInit => exact h.decInit hx
  | decByte => exact h.decByte hx
  | decEnd => exact h.decEnd hx
  | statGet => exact h.statGet hx
  | sreset => exact sreset hx

end State.Inv

/-- Settles O45: the invariant does not see the presented word, and every command and both resets keep it. -/
theorem stepKeepsInvariant : Obligations.StepKeepsInvariant := by
  intro s t h hstep
  have hseen (w : Word72) (rest : List HostEvent) : (record (.cmd w) (withHost rest s)).Inv :=
    h.of_registers rfl rfl rfl rfl
  obtain rfl | ⟨rest, rfl⟩ | ⟨w, rest, i, -, hx⟩ | ⟨w, rest, e, -, rfl⟩ := step_cases hstep
  · exact h
  · exact resetMeetsInvariant.of_registers rfl rfl rfl rfl
  · exact (hseen w rest).exec hx
  · exact (hseen w rest).raiseErr_precondition (by simp)

end Sys2Proof.Machine
end

section
/-! SUPPORT. The frames of the three families of commands: the units they leave alone, and the shape of what they add to the
history (40_codebook_commands.md, 41_writer_commands.md, 42_reader_commands.md). -/

namespace Sys2Proof.Machine

variable {i : Instr} {s t : State}

/-- A failed codebook build latches in the store and nowhere else. -/
theorem latchErr_build {e : Err} (he : e ∈ buildErrors) (s : State) :
    latchErr e s = { s with cb := { s.cb with err := e.code } } := by
  fin_cases he <;> rfl

theorem codebook_frame (hi : i = .cbClear ∨ ∃ sym len code, i = .cbLoad sym len code) (hx : exec i s = .next t) :
    t.w = s.w ∧ t.r = s.r ∧ ∃ r, t.history = s.history ++ [.resp r] := by
  obtain rfl | ⟨sym, len, code, rfl⟩ := hi
  · obtain ⟨-, rfl⟩ | ⟨-, rfl⟩ := cbClear_cases hx
    · exact ⟨rfl, rfl, _, rfl⟩
    · exact ⟨rfl, rfl, _, rfl⟩
  · obtain ⟨-, rfl⟩ | ⟨-, -, rfl⟩ | ⟨-, -, e, he, rfl⟩ | ⟨-, -, -, -, -, rfl⟩ := cbLoad_cases hx
    · exact ⟨rfl, rfl, _, rfl⟩
    · exact ⟨rfl, rfl, _, rfl⟩
    · exact ⟨by simp [latchErr_build he], by simp [latchErr_build he], _, raiseErr_history e s⟩
    · exact ⟨rfl, rfl, _, rfl⟩

theorem writer_frame (hi : i = .encInit ∨ (∃ x, i = .encSym x) ∨ i = .encFlush) (hx : exec i s = .next t) :
    t.cb = s.cb ∧ t.r = s.r ∧ ∃ (bytes : List Byte) (r : Word72), t.history = s.history ++ (bytes.map .outByte ++ [.resp r]) := by
  obtain rfl | ⟨x, rfl⟩ | rfl := hi
  · obtain ⟨-, rfl⟩ | ⟨-, rfl⟩ := encInit_cases hx
    · exact ⟨rfl, rfl, [], _, rfl⟩
    · exact ⟨rfl, rfl, [], _, rfl⟩
  · obtain ⟨-, rfl⟩ | ⟨-, -, rfl⟩ | ⟨-, -, -, rfl⟩ | ⟨-, -, e, -, -, -, ⟨-, rfl⟩ | ⟨-, rfl⟩⟩ := encSym_cases hx
    · exact ⟨rfl, rfl, [], _, rfl⟩
    · exact ⟨rfl, rfl, [], _, rfl⟩
    · exact ⟨rfl, rfl, [], _, rfl⟩
    · exact ⟨rfl, rfl, [], _, rfl⟩
    · obtain ⟨hcb, hr, -, -, -, -, -, bytes, hh⟩ := appendBits_frame (entryBits e) s
      exact ⟨hcb, hr, bytes, _, (congrArg (· ++ _) hh).trans (List.append_assoc _ _ _)⟩
  · obtain ⟨-, rfl⟩ | ⟨-, -, rfl⟩ | ⟨-, -, -, rfl⟩ | ⟨-, -, -, rfl⟩ := encFlush_cases hx
    · exact ⟨rfl, rfl, [], _, rfl⟩
    · exact ⟨rfl, rfl, [], _, rfl⟩
    · exact ⟨rfl, rfl, [], _, rfl⟩
    · exact ⟨rfl, rfl, [flushByte s.w], _, List.append_assoc _ _ _⟩

theorem reader_frame (hi : (∃ n, i = .decInit n) ∨ (∃ b, i = .decByte b) ∨ i = .decEnd) (hx : exec i s = .next t) :
    t.cb = s.cb ∧ t.w = s.w ∧ ∃ (syms : List Byte) (r : Word72), t.history = s.history ++ (syms.map .outSym ++ [.resp r]) := by
  obtain ⟨n, rfl⟩ | ⟨b, rfl⟩ | rfl := hi
  · obtain ⟨-, rfl⟩ | ⟨-, rfl⟩ := decInit_cases hx
    · exact ⟨rfl, rfl, [], _, rfl⟩
    · exact ⟨rfl, rfl, [], _, rfl⟩
  · obtain ⟨hcb, hw, -, -, -, -, -, -, syms, -, hh⟩ := foldBits_frame (bitsMsb 8 b) s
    obtain ⟨-, rfl⟩ | ⟨-, -, rfl⟩ | ⟨-, -, -, rfl⟩ | ⟨-, -, -, s', hf, rfl⟩ | ⟨-, -, -, s', e, hf, rfl | rfl, rfl⟩ :=
      decByte_cases hx
    · exact ⟨rfl, rfl, [], _, rfl⟩
    · exact ⟨rfl, rfl, [], _, rfl⟩
    · exact ⟨rfl, rfl, [], _, rfl⟩
    all_goals
      rw [hf] at hcb hw hh
      exact ⟨hcb, hw, syms, _, (congrArg (· ++ _) hh).trans (List.append_assoc _ _ _)⟩
  · obtain ⟨-, rfl⟩ | ⟨-, -, rfl⟩ | ⟨-, -, -, rfl⟩ | ⟨-, -, -, rfl⟩ := decEnd_cases hx
    · exact ⟨rfl, rfl, [], _, rfl⟩
    · exact ⟨rfl, rfl, [], _, rfl⟩
    · exact ⟨rfl, rfl, [], _, rfl⟩
    · exact ⟨rfl, rfl, [], _, rfl⟩

theorem statGet_frame {reg : BitVec 4} (hx : exec (.statGet reg) s = .next t) :
    t.cb = s.cb ∧ t.w = s.w ∧ t.r = s.r ∧ ∃ r, t.history = s.history ++ [.resp r] := by
  obtain ⟨-, rfl⟩ | ⟨-, rfl⟩ := statGet_cases hx
  · exact ⟨rfl, rfl, rfl, _, rfl⟩
  · exact ⟨rfl, rfl, rfl, _, rfl⟩

/-- The writer moves only by its own commands and `SRESET`, and no other command emits a byte. -/
theorem writer_untouched (hx : exec i s = .next t) (hinit : i ≠ .encInit) (hsym : ∀ x, i ≠ .encSym x) (hflush : i ≠ .encFlush)
    (hreset : i ≠ .sreset) :
    t.w = s.w ∧ ∃ (syms : List Byte) (r : Word72), t.history = s.history ++ (syms.map .outSym ++ [.resp r]) := by
  cases i with
  | cbClear | cbLoad =>
    obtain ⟨hw, -, r, hh⟩ := codebook_frame (by simp) hx
    exact ⟨hw, [], r, hh⟩
  | decInit | decByte | decEnd => exact (reader_frame (by simp) hx).2
  | statGet =>
    obtain ⟨-, hw, -, r, hh⟩ := statGet_frame hx
    exact ⟨hw, [], r, hh⟩
  | encInit => exact absurd rfl hinit
  | encSym x => exact absurd rfl (hsym x)
  | encFlush => exact absurd rfl hflush
  | sreset => exact absurd rfl hreset

end Sys2Proof.Machine
end

section
/-! SUPPORT. The byte count of a running encode, read off the event history (10_state.md rule R31). -/

namespace Sys2Proof

theorem decode_encInit : decode (encode .encInit) = .ok .encInit := by decide

/-- `ENC.INIT` has one word. -/
theorem eq_encode_encInit {w : Word72} (h : decode w = .ok .encInit) : w = encode .encInit := by
  have hfields : opField w = 0x10#8 ∧ argField w = 0#64 := by
    unfold decode at h
    split at h
    case h_3 hop => exact ⟨hop, ((reservedZero_ok _ _ _).1 h).1⟩
    case h_9 => dsimp only at h; split at h <;> simp [reservedZero_ok] at h
    all_goals simp [reservedZero_ok] at h
  rw [← commandWord_fields w, hfields.1, hfields.2]
  rfl

/-- A word that is read as anything else, or as nothing, is not that word. -/
theorem ne_encode_encInit {w : Word72} (h : decode w ≠ .ok .encInit) : w ≠ encode .encInit := by
  rintro rfl
  exact h decode_encInit

namespace Machine

theorem foldl_next_outByte (bytes : List Byte) (c : ByteCount) :
    (bytes.map Event.outByte).foldl ByteCount.next c = { c with bytes := c.bytes + bytes.length } := by
  induction bytes generalizing c with
  | nil => rfl
  | cons b bs ih =>
    rw [List.map_cons, List.foldl_cons, ih]
    simp only [ByteCount.next, List.length_cons]
    congr 1
    omega

theorem foldl_next_outSym (syms : List Byte) (c : ByteCount) : (syms.map Event.outSym).foldl ByteCount.next c = c := by
  induction syms with
  | nil => rfl
  | cons x xs ih => exact ih

/-- A command that emits bytes adds them to the count, unless it is a successful `ENC.INIT`, which starts it anew. -/
theorem bytesSinceInit_bytes (h : List Event) (w : Word72) (bytes : List Byte) (r : Word72) :
    bytesSinceInit (h ++ [.cmd w] ++ (bytes.map .outByte ++ [.resp r])) =
      if w = encode .encInit ∧ r = responseWord statusOk 0 then 0 else bytesSinceInit h + bytes.length := by
  simp only [bytesSinceInit, List.foldl_append, List.foldl_cons, List.foldl_nil, foldl_next_outByte, ByteCount.next]
  split <;> rfl

/-- A command that emits symbols leaves the count, unless it is a successful `ENC.INIT`. -/
theorem bytesSinceInit_syms (h : List Event) (w : Word72) (syms : List Byte) (r : Word72) :
    bytesSinceInit (h ++ [.cmd w] ++ (syms.map .outSym ++ [.resp r])) =
      if w = encode .encInit ∧ r = responseWord statusOk 0 then 0 else bytesSinceInit h := by
  simp only [bytesSinceInit, List.foldl_append, List.foldl_cons, List.foldl_nil, foldl_next_outSym, ByteCount.next]
  split <;> rfl

/-- R31's byte count: an active encode has emitted `W_TOTAL` >> 3 bytes since its `ENC.INIT`. -/
def ByteCountOk (s : State) : Prop := s.w.active = true → bytesSinceInit s.history = s.w.total.toNat / 8

/-- A response word determines its status. -/
theorem status_of_responseWord_eq {c c' : Byte} {d d' : Count} (h : responseWord c d = responseWord c' d') : c = c' := by
  rw [← extract_append_high c d, ← extract_append_high c' d']
  exact congrArg (BitVec.extractLsb' 64 8) h

end Machine
end Sys2Proof
end

section
/-! SUPPORT. Every step keeps the byte count of the running encode (10_state.md rule R31). -/

namespace Sys2Proof.Machine

variable {s t : State} {w : Word72} {i : Instr}

/-- A successful `ENC.INIT` starts the count anew; a refused one answers another status and leaves it. -/
theorem encInit_keeps_byteCount (hc : ByteCountOk s) (hx : exec .encInit (record (.cmd (encode .encInit)) s) = .next t) :
    ByteCountOk t := by
  intro ha
  obtain ⟨-, rfl⟩ | ⟨-, rfl⟩ := encInit_cases hx
  · have hne : responseWord Err.cbInvalid.code 0 ≠ responseWord statusOk 0 := fun heq =>
      Err.code_ne_zero _ (status_of_responseWord_eq heq)
    have hcount := bytesSinceInit_bytes s.history (encode .encInit) [] (responseWord Err.cbInvalid.code 0)
    rw [if_neg (fun h => hne h.2)] at hcount
    exact hcount.trans (hc ha)
  · have hcount := bytesSinceInit_bytes s.history (encode .encInit) [] (responseWord statusOk 0)
    rw [if_pos ⟨rfl, rfl⟩] at hcount
    exact hcount.trans (by simp [freshWriter])

/-- The whole bytes an `ENC.SYM` emits are those the total gains. -/
theorem encSym_keeps_byteCount (h : s.Inv) (hc : ByteCountOk s) (hw : w ≠ encode .encInit) {x : Byte}
    (hx : exec (.encSym x) (record (.cmd w) s) = .next t) : ByteCountOk t := by
  intro ha
  obtain ⟨hne, rfl⟩ | ⟨-, hoff, rfl⟩ | ⟨-, -, -, rfl⟩ | ⟨-, hact, e, -, -, -, ⟨-, rfl⟩ | ⟨hle, rfl⟩⟩ := encSym_cases hx
  · exact absurd ha (by simpa using h.wLatchIdle hne)
  · exact absurd ha (by simpa [latchErr] using hoff)
  · simp [latchErr] at ha
  · simp [latchErr] at ha
  · have hcount := bytesSinceInit_bytes s.history w (wholeBytes (pendingBits s.w ++ entryBits e)) (responseWord statusOk 0)
    rw [if_neg (fun h => hw h.1), hc hact, length_wholeBytes, List.length_append, length_pendingBits, length_entryBits,
      h.wCntIsTotal hact] at hcount
    have hhist : (respond statusOk 0 (appendCode e (record (.cmd w) s))).history = s.history ++ [.cmd w] ++
        ((wholeBytes (pendingBits s.w ++ entryBits e)).map .outByte ++ [.resp (responseWord statusOk 0)]) := by
      rw [respond_history, appendCode_eq (s := record (.cmd w) s) h.wAccFits]
      exact List.append_assoc _ _ _
    have htotal := appendCode_total hle
    rw [hhist, hcount, respond_w, htotal, record_w]
    omega

/-- No encode is active after an `ENC.FLUSH`. -/
theorem encFlush_inactive (h : s.Inv) (hx : exec .encFlush s = .next t) : t.w.active = false := by
  obtain ⟨hne, rfl⟩ | ⟨-, hoff, rfl⟩ | ⟨-, -, -, rfl⟩ | ⟨-, -, -, rfl⟩ := encFlush_cases hx
  · exact h.wLatchIdle hne
  · exact hoff
  · rfl
  · rfl

/-- A command that leaves the writer alone and emits no byte leaves the count. -/
theorem untouched_keeps_byteCount (hc : ByteCountOk s) (hd : decode w = .ok i) (hx : exec i (record (.cmd w) s) = .next t)
    (hinit : i ≠ .encInit) (hsym : ∀ x, i ≠ .encSym x) (hflush : i ≠ .encFlush) (hreset : i ≠ .sreset) : ByteCountOk t := by
  intro ha
  obtain ⟨heq, syms, r, hh⟩ := writer_untouched hx hinit hsym hflush hreset
  have hw := ne_encode_encInit (fun h => hinit (Except.ok.inj (hd.symm.trans h)))
  rw [heq] at ha ⊢
  rw [hh, record_history, bytesSinceInit_syms, if_neg (fun h => hw h.1)]
  exact hc ha

/-- Every command keeps the count, its word recorded before it. -/
theorem exec_keeps_byteCount (h : s.Inv) (hc : ByteCountOk s) (hd : decode w = .ok i)
    (hx : exec i (record (.cmd w) s) = .next t) : ByteCountOk t := by
  cases i with
  | encInit =>
    rw [eq_encode_encInit hd] at hx
    exact encInit_keeps_byteCount hc hx
  | encSym x => exact encSym_keeps_byteCount h hc (ne_encode_encInit (by simp [hd])) hx
  | encFlush =>
    have hoff := encFlush_inactive (s := record (.cmd w) s) (h.of_registers rfl rfl rfl rfl) hx
    exact fun ha => absurd ha (by simp [hoff])
  | sreset =>
    rw [sreset_cases hx]
    exact nofun
  | cbClear | cbLoad | decInit | decByte | decEnd | statGet =>
    exact untouched_keeps_byteCount hc hd hx (by simp) (by simp) (by simp) (by simp)

/-- Settles O25: every command keeps the count, an illegal word emits nothing and is not `ENC.INIT`, and no encode is active
after a reset. -/
theorem stepKeepsWriterByteCount : Obligations.StepKeepsWriterByteCount := by
  intro s t h hc hstep ha
  refine ⟨?_, (stepKeepsInvariant s t h hstep).wCntIsTotal ha⟩
  obtain rfl | ⟨rest, rfl⟩ | ⟨w, rest, i, hd, hx⟩ | ⟨w, rest, e, hd, rfl⟩ := step_cases hstep
  · exact hc ha
  · exact nomatch ha
  · exact exec_keeps_byteCount (s := withHost rest s) (h.of_registers rfl rfl rfl rfl) hc hd hx ha
  · have hw : w ≠ encode .encInit := ne_encode_encInit (by simp [hd])
    have hcount := bytesSinceInit_bytes s.history w [] (responseWord Err.illegalCmd.code 0)
    rw [if_neg (fun h => hw h.1)] at hcount
    exact hcount.trans (hc ha)

end Sys2Proof.Machine
end

section
/-! SUPPORT. What rule R33 bounds: the store by its symbols, and its codes as bit strings. -/

namespace Sys2Proof.Machine

/-- Distinct symbols bound the store by the number of bytes. -/
theorem length_entries_le {es : List Entry} (h : es.Pairwise fun a b => a.sym ≠ b.sym) : es.length ≤ 256 := by
  have hnodup : (es.map fun e => e.sym.toFin).Nodup := by
    rw [List.Nodup, List.pairwise_map]
    exact h.imp fun hne heq => hne (BitVec.toFin_inj.1 heq)
  simpa using hnodup.length_le_card

/-- Entries at different indices have different symbols. -/
theorem sym_ne_of_index_ne {es : List Entry} (h : es.Pairwise fun a b => a.sym ≠ b.sym) {i j : Nat} {a b : Entry}
    (ha : es[i]? = some a) (hb : es[j]? = some b) (hij : i ≠ j) : a.sym ≠ b.sym := by
  obtain ⟨hi, rfl⟩ := List.getElem?_eq_some_iff.1 ha
  obtain ⟨hj, rfl⟩ := List.getElem?_eq_some_iff.1 hb
  rcases Nat.lt_or_gt_of_ne hij with hlt | hgt
  · exact List.pairwise_iff_getElem.1 h i j hi hj hlt
  · exact (List.pairwise_iff_getElem.1 h j i hj hi hgt).symm

/-- Settles O15: a stored code that begins another is the same entry, and different indices hold different symbols. -/
theorem storeIsPrefixFreeAndBounded : Obligations.StoreIsPrefixFreeAndBounded := by
  intro s h
  have hok := h.storeOk
  refine ⟨length_entries_le h.symsDistinct, hok.bounds, fun i j a b ha hb hij => ?_⟩
  have hsym := sym_ne_of_index_ne h.symsDistinct ha hb hij
  have hma := List.mem_of_getElem? ha
  have hmb := List.mem_of_getElem? hb
  exact ⟨hsym, fun hp => hsym (congrArg Entry.sym (hok.unique a hma b hmb hp)),
    fun hp => hsym (congrArg Entry.sym (hok.unique b hmb a hma hp)).symm⟩

end Sys2Proof.Machine
end

section
/-! SUPPORT. How a command is answered: with `OK`, with a latched error, or by a raise (60_exceptions.md rules R193, R194). -/

namespace Sys2Proof.Machine

variable {i : Instr} {s t : State}

/-- The three ways to answer a command given in `s`. The state the answer ends has logged nothing new, and a latched error is
in its log. -/
inductive Answered (s : State) : State → Prop where
  | ok {u : State} (d : Count) (hlog : u.faultLog = s.faultLog) : Answered s (respond statusOk d u)
  | latched {c : Byte} (hlog : s.faultLog.getLsbD c.toNat = true) : Answered s (respond c 0 s)
  | raised {u : State} (e : Err) (hlog : u.faultLog = s.faultLog) : Answered s (raiseErr e u)

/-- Every command but `SRESET` is answered in one of the three ways. -/
theorem exec_answered (h : s.Inv) (hi : i ≠ .sreset) (hx : exec i s = .next t) : Answered s t := by
  cases i with
  | cbClear =>
    obtain ⟨-, rfl⟩ | ⟨-, rfl⟩ := cbClear_cases hx
    · exact .raised _ rfl
    · exact .ok _ rfl
  | cbLoad =>
    obtain ⟨hne, rfl⟩ | ⟨-, -, rfl⟩ | ⟨-, -, e, -, rfl⟩ | ⟨-, -, -, -, -, rfl⟩ := cbLoad_cases hx
    · exact .latched (h.cbErr_logged hne)
    · exact .raised _ rfl
    · exact .raised _ rfl
    · exact .ok _ rfl
  | encInit =>
    obtain ⟨-, rfl⟩ | ⟨-, rfl⟩ := encInit_cases hx
    · exact .raised _ rfl
    · exact .ok _ rfl
  | encSym =>
    obtain ⟨hne, rfl⟩ | ⟨-, -, rfl⟩ | ⟨-, -, -, rfl⟩ | ⟨-, -, e, -, -, -, ⟨-, rfl⟩ | ⟨-, rfl⟩⟩ := encSym_cases hx
    · exact .latched (h.wErr_logged hne)
    · exact .raised _ rfl
    · exact .raised _ rfl
    · exact .raised _ rfl
    · obtain ⟨-, -, hlog, -⟩ := appendBits_frame (entryBits e) s
      exact .ok _ hlog
  | encFlush =>
    obtain ⟨hne, rfl⟩ | ⟨-, -, rfl⟩ | ⟨-, -, -, rfl⟩ | ⟨-, -, -, rfl⟩ := encFlush_cases hx
    · exact .latched (h.wErr_logged hne)
    · exact .raised _ rfl
    · exact .ok _ rfl
    · exact .ok _ rfl
  | decInit =>
    obtain ⟨-, rfl⟩ | ⟨-, rfl⟩ := decInit_cases hx
    · exact .raised _ rfl
    · exact .ok _ rfl
  | decByte b =>
    obtain ⟨-, -, hlog, -⟩ := foldBits_frame (bitsMsb 8 b) s
    obtain ⟨hne, rfl⟩ | ⟨-, -, rfl⟩ | ⟨-, -, -, rfl⟩ | ⟨-, -, -, s', hf, rfl⟩ | ⟨-, -, -, s', e, hf, -, rfl⟩ :=
      decByte_cases hx
    · exact .latched (h.rErr_logged hne)
    · exact .raised _ rfl
    · exact .raised _ rfl
    · rw [hf] at hlog
      exact .ok _ hlog
    · rw [hf] at hlog
      exact .raised _ hlog
  | decEnd =>
    obtain ⟨hne, rfl⟩ | ⟨-, -, rfl⟩ | ⟨-, -, -, rfl⟩ | ⟨-, -, -, rfl⟩ := decEnd_cases hx
    · exact .latched (h.rErr_logged hne)
    · exact .raised _ rfl
    · exact .raised _ rfl
    · exact .ok _ rfl
  | statGet =>
    obtain ⟨-, rfl⟩ | ⟨-, rfl⟩ := statGet_cases hx
    · exact .ok _ rfl
    · exact .raised _ rfl
  | sreset => exact absurd rfl hi

/-- Settles O39, by the three ways to answer: only a raise changes the log, and only by its own bit. -/
theorem faultLogRecordsStatuses : Obligations.FaultLogRecordsStatuses := by
  intro i s t h hx hi
  cases exec_answered h hi hx with
  | @ok u d hlog =>
    exact ⟨u.history, statusOk, d, rfl, fun k hk => .inl (hlog ▸ hk), fun k hk => hlog ▸ hk, fun hne => absurd rfl hne⟩
  | @latched c hlog => exact ⟨s.history, c, 0, rfl, fun k hk => .inl hk, fun k hk => hk, fun _ => ⟨rfl, hlog⟩⟩
  | @raised u e hlog =>
    have hbit (k : Nat) : (raiseErr e u).faultLog.getLsbD k = (s.faultLog.getLsbD k || decide (k = e.code.toNat)) := by
      rw [raiseErr_faultLog, hlog, getLsbD_log]
    refine ⟨u.history, e.code, 0, raiseErr_history e u, fun k hk => ?_, fun k hk => ?_, fun _ => ⟨rfl, ?_⟩⟩
    · rw [hbit, Bool.or_eq_true, decide_eq_true_eq] at hk
      exact hk.imp_right fun hk => ⟨hk, e.code_ne_zero⟩
    · rw [hbit, hk, Bool.true_or]
    · rw [hbit, decide_eq_true rfl, Bool.or_true]

end Sys2Proof.Machine
end

section
/-! SUPPORT. Two runs of a command side by side: what it does to one unit, and what it adds to the history, depends on that unit
and the store alone (10_state.md rule R28, 70_reset_and_hazards.md rule R225). -/

namespace Sys2Proof.Machine

/-- From `s₁` to `t₁` and from `s₂` to `t₂` the unit ends the same and the history gains the same. -/
structure SameEffect {α : Type} (unit : State → α) (s₁ t₁ s₂ t₂ : State) : Prop where
  unit_eq : unit t₁ = unit t₂
  added : ∃ added, t₁.history = s₁.history ++ added ∧ t₂.history = s₂.history ++ added

namespace SameEffect

variable {α : Type} {unit : State → α} {s₁ t₁ u₁ s₂ t₂ u₂ : State}

theorem refl (h : unit s₁ = unit s₂) : SameEffect unit s₁ s₁ s₂ s₂ := ⟨h, [], by simp⟩

theorem trans (h : SameEffect unit s₁ t₁ s₂ t₂) (h' : SameEffect unit t₁ u₁ t₂ u₂) : SameEffect unit s₁ u₁ s₂ u₂ := by
  obtain ⟨-, xs, hx₁, hx₂⟩ := h
  obtain ⟨hu, ys, hy₁, hy₂⟩ := h'
  exact ⟨hu, xs ++ ys, by simp [hx₁, hy₁], by simp [hx₂, hy₂]⟩

/-- The same event recorded after the same effect. -/
theorem record (h : SameEffect unit s₁ t₁ s₂ t₂) {e : Event} (hu₁ : u₁.history = t₁.history ++ [e])
    (hu₂ : u₂.history = t₂.history ++ [e]) (hunit : unit u₁ = unit u₂) : SameEffect unit s₁ u₁ s₂ u₂ :=
  h.trans ⟨hunit, [e], hu₁, hu₂⟩

/-- Registers alone may change without an event. -/
theorem silent (h₁ : t₁.history = s₁.history) (h₂ : t₂.history = s₂.history) (hunit : unit t₁ = unit t₂) :
    SameEffect unit s₁ t₁ s₂ t₂ := ⟨hunit, [], by simp [h₁], by simp [h₂]⟩

/-! An answer after the same effect on a unit; what a raise latches in a unit depends on that unit alone. -/

theorem respond_w (h : SameEffect State.w s₁ t₁ s₂ t₂) (c : Byte) (d : Count) :
    SameEffect State.w s₁ (respond c d t₁) s₂ (respond c d t₂) := h.record rfl rfl h.unit_eq

theorem respond_r (h : SameEffect State.r s₁ t₁ s₂ t₂) (c : Byte) (d : Count) :
    SameEffect State.r s₁ (respond c d t₁) s₂ (respond c d t₂) := h.record rfl rfl h.unit_eq

theorem raiseErr_w (h : SameEffect State.w s₁ t₁ s₂ t₂) (e : Err) :
    SameEffect State.w s₁ (raiseErr e t₁) s₂ (raiseErr e t₂) := by
  have hlatch : (latchErr e t₁).w = (latchErr e t₂).w := by
    cases e with
    | countOverflow unit => cases unit <;> simp [latchErr, h.unit_eq]
    | _ => simp [latchErr, h.unit_eq]
  exact h.record (raiseErr_history e t₁) (raiseErr_history e t₂) (by simp [hlatch])

theorem raiseErr_r (h : SameEffect State.r s₁ t₁ s₂ t₂) (e : Err) :
    SameEffect State.r s₁ (raiseErr e t₁) s₂ (raiseErr e t₂) := by
  have hlatch : (latchErr e t₁).r = (latchErr e t₂).r := by
    cases e with
    | countOverflow unit => cases unit <;> simp [latchErr, h.unit_eq]
    | _ => simp [latchErr, h.unit_eq]
  exact h.record (raiseErr_history e t₁) (raiseErr_history e t₂) (by simp [hlatch])

end SameEffect

variable {s₁ s₂ t₁ t₂ : State}

/-! The writer: its operations read and write the writer alone, its commands the store besides. -/

theorem appendBit_sameEffect (hw : s₁.w = s₂.w) (b : Bool) :
    SameEffect State.w s₁ (appendBit b s₁) s₂ (appendBit b s₂) := by
  simp only [appendBit, hw]
  split
  · exact ⟨rfl, _, rfl, rfl⟩
  · exact .silent rfl rfl rfl

theorem appendBits_sameEffect (bits : List Bool) (hw : s₁.w = s₂.w) :
    SameEffect State.w s₁ (appendBits bits s₁) s₂ (appendBits bits s₂) := by
  induction bits generalizing s₁ s₂ with
  | nil => exact .refl hw
  | cons b bs ih =>
    have hb := appendBit_sameEffect hw b
    exact hb.trans (ih hb.unit_eq)

theorem appendCode_sameEffect (hw : s₁.w = s₂.w) (e : Entry) :
    SameEffect State.w s₁ (appendCode e s₁) s₂ (appendCode e s₂) := by
  have hbits := appendBits_sameEffect (entryBits e) hw
  exact hbits.trans (.silent rfl rfl (by simp [appendCode, hbits.unit_eq, hw]))

theorem flushPending_sameEffect (hw : s₁.w = s₂.w) : SameEffect State.w s₁ (flushPending s₁) s₂ (flushPending s₂) := by
  simp only [flushPending, hw]
  split
  · exact .refl hw
  · exact ⟨rfl, _, rfl, rfl⟩

theorem encInit_sameEffect (hcb : s₁.cb = s₂.cb) (hw : s₁.w = s₂.w) (h₁ : exec .encInit s₁ = .next t₁)
    (h₂ : exec .encInit s₂ = .next t₂) : SameEffect State.w s₁ t₁ s₂ t₂ := by
  simp only [exec, execEncInit, hcb, Host.Outcome.next.injEq] at h₁ h₂
  subst h₁ h₂
  split
  · exact (SameEffect.refl hw).raiseErr_w _
  · exact ⟨rfl, _, rfl, rfl⟩

theorem encSym_sameEffect {x : Byte} (hcb : s₁.cb = s₂.cb) (hw : s₁.w = s₂.w) (h₁ : exec (.encSym x) s₁ = .next t₁)
    (h₂ : exec (.encSym x) s₂ = .next t₂) : SameEffect State.w s₁ t₁ s₂ t₂ := by
  have hrefl : SameEffect State.w s₁ s₁ s₂ s₂ := .refl hw
  simp only [exec, execEncSym, hcb, hw, Host.Outcome.next.injEq] at h₁ h₂
  subst h₁ h₂
  split
  · exact hrefl.respond_w _ _
  split
  · exact hrefl.raiseErr_w _
  cases lookupSym s₂.cb x with
  | none => exact hrefl.raiseErr_w _
  | some e =>
    dsimp only
    split
    · exact hrefl.raiseErr_w _
    · exact (appendCode_sameEffect hw e).respond_w _ _

theorem encFlush_sameEffect (hw : s₁.w = s₂.w) (h₁ : exec .encFlush s₁ = .next t₁) (h₂ : exec .encFlush s₂ = .next t₂) :
    SameEffect State.w s₁ t₁ s₂ t₂ := by
  have hrefl : SameEffect State.w s₁ s₁ s₂ s₂ := .refl hw
  have hflush := flushPending_sameEffect hw
  simp only [exec, execEncFlush, hw, Host.Outcome.next.injEq] at h₁ h₂
  subst h₁ h₂
  split
  · exact hrefl.respond_w _ _
  split
  · exact hrefl.raiseErr_w _
  · have hend := hflush.trans (.silent (t₁ := { flushPending s₁ with w := { (flushPending s₁).w with active := false } })
      (t₂ := { flushPending s₂ with w := { (flushPending s₂).w with active := false } }) rfl rfl (by simp [hflush.unit_eq]))
    exact hend.respond_w _ _

/-! The reader: its operations read the store and the reader, and write the reader alone. -/

/-- A fold in two states with the same store and reader: the same error, the same effect. -/
theorem foldBit_sameEffect (hcb : s₁.cb = s₂.cb) (hr : s₁.r = s₂.r) (b : Bool) :
    (foldBit b s₁).2 = (foldBit b s₂).2 ∧ SameEffect State.r s₁ (foldBit b s₁).1 s₂ (foldBit b s₂).1 := by
  simp only [foldBit, hcb, hr]
  split
  · exact ⟨rfl, .refl hr⟩
  cases lookupCode s₂.cb ((s₂.r.acc <<< 1) ||| (BitVec.ofBool b).setWidth 32) (s₂.r.cnt + 1) with
  | some e => exact ⟨rfl, rfl, _, rfl, rfl⟩
  | none =>
    dsimp only
    split
    · exact ⟨rfl, .silent rfl rfl rfl⟩
    · exact ⟨rfl, .silent rfl rfl rfl⟩

/-- A fold reads the store and does not change it. -/
theorem foldBit_cb (b : Bool) (s : State) : (foldBit b s).1.cb = s.cb := by
  unfold foldBit
  split
  · rfl
  dsimp only
  split
  · rfl
  · split <;> rfl

theorem foldBits_sameEffect (bits : List Bool) (hcb : s₁.cb = s₂.cb) (hr : s₁.r = s₂.r) :
    (foldBits bits s₁).2 = (foldBits bits s₂).2 ∧ SameEffect State.r s₁ (foldBits bits s₁).1 s₂ (foldBits bits s₂).1 := by
  induction bits generalizing s₁ s₂ with
  | nil => exact ⟨rfl, .refl hr⟩
  | cons b bs ih =>
    obtain ⟨herr, heff⟩ := foldBit_sameEffect hcb hr b
    have hcb' : (foldBit b s₁).1.cb = (foldBit b s₂).1.cb := by rw [foldBit_cb, foldBit_cb, hcb]
    simp only [foldBits, hr]
    split
    · exact ⟨rfl, .refl hr⟩
    generalize foldBit b s₁ = p₁ at herr heff hcb' ⊢
    generalize foldBit b s₂ = p₂ at herr heff hcb' ⊢
    obtain ⟨u₁, e₁⟩ := p₁
    obtain ⟨u₂, e₂⟩ := p₂
    obtain rfl : e₁ = e₂ := herr
    cases e₁ with
    | some e => exact ⟨rfl, heff⟩
    | none =>
      obtain ⟨herr', heff'⟩ := ih hcb' heff.unit_eq
      exact ⟨herr', heff.trans heff'⟩

theorem decInit_sameEffect {n : Count} (hcb : s₁.cb = s₂.cb) (hr : s₁.r = s₂.r) (h₁ : exec (.decInit n) s₁ = .next t₁)
    (h₂ : exec (.decInit n) s₂ = .next t₂) : SameEffect State.r s₁ t₁ s₂ t₂ := by
  simp only [exec, execDecInit, hcb, Host.Outcome.next.injEq] at h₁ h₂
  subst h₁ h₂
  split
  · exact (SameEffect.refl hr).raiseErr_r _
  · exact ⟨rfl, _, rfl, rfl⟩

theorem decByte_sameEffect {b : Byte} (hcb : s₁.cb = s₂.cb) (hr : s₁.r = s₂.r) (h₁ : exec (.decByte b) s₁ = .next t₁)
    (h₂ : exec (.decByte b) s₂ = .next t₂) : SameEffect State.r s₁ t₁ s₂ t₂ := by
  have hrefl : SameEffect State.r s₁ s₁ s₂ s₂ := .refl hr
  obtain ⟨herr, heff⟩ := foldBits_sameEffect (bitsMsb 8 b) hcb hr
  simp only [exec, execDecByte, hr, Host.Outcome.next.injEq] at h₁ h₂
  subst h₁ h₂
  split
  · exact hrefl.respond_r _ _
  split
  · exact hrefl.raiseErr_r _
  split
  · exact hrefl.raiseErr_r _
  generalize foldBits (bitsMsb 8 b) s₁ = p₁ at herr heff ⊢
  generalize foldBits (bitsMsb 8 b) s₂ = p₂ at herr heff ⊢
  obtain ⟨u₁, e₁⟩ := p₁
  obtain ⟨u₂, e₂⟩ := p₂
  obtain rfl : e₁ = e₂ := herr
  cases e₁ with
  | some e => exact heff.raiseErr_r e
  | none =>
    have hdone : u₁.r.done = u₂.r.done := congrArg Reader.done heff.unit_eq
    dsimp only
    rw [hdone]
    exact heff.respond_r _ _

theorem decEnd_sameEffect (hr : s₁.r = s₂.r) (h₁ : exec .decEnd s₁ = .next t₁) (h₂ : exec .decEnd s₂ = .next t₂) :
    SameEffect State.r s₁ t₁ s₂ t₂ := by
  have hrefl : SameEffect State.r s₁ s₁ s₂ s₂ := .refl hr
  simp only [exec, execDecEnd, hr, Host.Outcome.next.injEq] at h₁ h₂
  subst h₁ h₂
  split
  · exact hrefl.respond_r _ _
  split
  · exact hrefl.raiseErr_r _
  split
  · exact hrefl.raiseErr_r _
  · exact ⟨rfl, _, rfl, rfl⟩

/-- Settles O42, by the effect of each writer and each reader command in two states side by side. -/
theorem unitsDoNotInterfere : Obligations.UnitsDoNotInterfere := by
  intro i s₁ s₂ t₁ t₂ hcb h₁ h₂
  refine ⟨fun hi hw => ?_, fun hi hr => ?_⟩
  · have heff : SameEffect State.w s₁ t₁ s₂ t₂ := by
      obtain rfl | ⟨x, rfl⟩ | rfl := hi
      · exact encInit_sameEffect hcb hw h₁ h₂
      · exact encSym_sameEffect hcb hw h₁ h₂
      · exact encFlush_sameEffect hw h₁ h₂
    exact ⟨heff.unit_eq, heff.added⟩
  · have heff : SameEffect State.r s₁ t₁ s₂ t₂ := by
      obtain ⟨n, rfl⟩ | ⟨b, rfl⟩ | rfl := hi
      · exact decInit_sameEffect hcb hr h₁ h₂
      · exact decByte_sameEffect hcb hr h₁ h₂
      · exact decEnd_sameEffect hr h₁ h₂
    exact ⟨heff.unit_eq, heff.added⟩

end Sys2Proof.Machine
end

section
/-! SUPPORT. The phases as conditions on the registers, and the moves each command can make (10_state.md rule R35). -/

namespace Sys2Proof.Machine

theorem Writer.phase_eq_active (w : Writer) : w.phase = .active ↔ w.err = 0 ∧ w.active = true := by
  unfold Writer.phase
  split_ifs <;> simp_all

theorem Writer.phase_eq_failed (w : Writer) : w.phase = .failed ↔ w.err ≠ 0 := by
  unfold Writer.phase
  split_ifs <;> simp_all

theorem Writer.phase_eq_idle (w : Writer) : w.phase = .idle ↔ w.err = 0 ∧ w.active = false := by
  unfold Writer.phase
  split_ifs <;> simp_all

theorem Reader.phase_eq_active (r : Reader) : r.phase = .active ↔ r.err = 0 ∧ r.active = true := by
  unfold Reader.phase
  split_ifs <;> simp_all

theorem Reader.phase_eq_failed (r : Reader) : r.phase = .failed ↔ r.err ≠ 0 := by
  unfold Reader.phase
  split_ifs <;> simp_all

theorem Reader.phase_eq_idle (r : Reader) : r.phase = .idle ↔ r.err = 0 ∧ r.active = false := by
  unfold Reader.phase
  split_ifs <;> simp_all

variable {s t : State}

theorem storePhase_eq_locked (s : State) : s.storePhase = .locked ↔ s.cbLocked = true := by
  unfold State.storePhase
  split_ifs <;> simp_all

theorem storePhase_eq_failed (s : State) : s.storePhase = .failed ↔ s.cbLocked = false ∧ s.cb.err ≠ 0 := by
  unfold State.storePhase
  split_ifs <;> simp_all

theorem storePhase_eq_building (s : State) : s.storePhase = .building ↔ s.cbLocked = false ∧ s.cb.err = 0 := by
  unfold State.storePhase
  split_ifs <;> simp_all

/-! The writer's moves. -/

theorem encInit_moves (hx : exec .encInit s = .next t) :
    if s.cb.err = 0 then t.w.phase = .active else t.w = s.w := by
  obtain ⟨hne, rfl⟩ | ⟨hok, rfl⟩ := encInit_cases hx
  · rw [if_neg hne]; rfl
  · rw [if_pos hok]; rfl

theorem encSym_moves {x : Byte} (hx : exec (.encSym x) s = .next t) :
    if s.w.phase = .active then t.w.phase = .active ∨ t.w.phase = .failed else t.w = s.w := by
  simp only [Writer.phase_eq_active, Writer.phase_eq_failed]
  obtain ⟨hne, rfl⟩ | ⟨-, hoff, rfl⟩ | ⟨hok, ha, -, rfl⟩ | ⟨hok, ha, e, -, -, -, ⟨-, rfl⟩ | ⟨-, rfl⟩⟩ := encSym_cases hx
  · rw [if_neg fun h => hne h.1]; rfl
  · rw [if_neg fun h => by simp [hoff] at h]; rfl
  · rw [if_pos ⟨hok, ha⟩]; exact .inr (Err.code_ne_zero .noSymbol)
  · rw [if_pos ⟨hok, ha⟩]; exact .inr (Err.code_ne_zero (.countOverflow .writer))
  · obtain ⟨-, -, -, -, herr, hact, -⟩ := appendBits_frame (entryBits e) s
    rw [if_pos ⟨hok, ha⟩]; exact .inl ⟨herr.trans hok, hact.trans ha⟩

theorem encFlush_moves (hx : exec .encFlush s = .next t) :
    if s.w.phase = .active then t.w.phase = .idle else t.w = s.w := by
  simp only [Writer.phase_eq_active, Writer.phase_eq_idle]
  obtain ⟨hne, rfl⟩ | ⟨-, hoff, rfl⟩ | ⟨hok, ha, -, rfl⟩ | ⟨hok, ha, -, rfl⟩ := encFlush_cases hx
  · rw [if_neg fun h => hne h.1]; rfl
  · rw [if_neg fun h => by simp [hoff] at h]; rfl
  · rw [if_pos ⟨hok, ha⟩]; exact ⟨hok, rfl⟩
  · rw [if_pos ⟨hok, ha⟩]; exact ⟨hok, rfl⟩

/-! The reader's moves. -/

theorem decInit_moves {n : Count} (hx : exec (.decInit n) s = .next t) :
    if s.cb.err = 0 then t.r.phase = .active else t.r = s.r := by
  obtain ⟨hne, rfl⟩ | ⟨hok, rfl⟩ := decInit_cases hx
  · rw [if_neg hne]; rfl
  · rw [if_pos hok]; rfl

theorem decByte_moves {b : Byte} (hx : exec (.decByte b) s = .next t) :
    if s.r.phase = .active then
      (if s.r.done then t.r.phase = .failed else t.r.phase = .active ∨ t.r.phase = .failed) else t.r = s.r := by
  simp only [Reader.phase_eq_active, Reader.phase_eq_failed]
  obtain ⟨-, -, -, -, herr, hact, -⟩ := foldBits_frame (bitsMsb 8 b) s
  obtain ⟨hne, rfl⟩ | ⟨-, hoff, rfl⟩ | ⟨hok, ha, hd, rfl⟩ | ⟨hok, ha, hd, s', hf, rfl⟩ |
    ⟨hok, ha, hd, s', e, -, he, rfl⟩ := decByte_cases hx
  · rw [if_neg fun h => hne h.1]; rfl
  · rw [if_neg fun h => by simp [hoff] at h]; rfl
  · rw [if_pos ⟨hok, ha⟩, if_pos hd]; exact Err.code_ne_zero .overrun
  · rw [hf] at herr hact
    rw [if_pos ⟨hok, ha⟩, if_neg (by simp [hd])]; exact .inl ⟨herr.trans hok, hact.trans ha⟩
  · rw [if_pos ⟨hok, ha⟩, if_neg (by simp [hd])]
    obtain rfl | rfl := he
    · exact .inr (Err.code_ne_zero .noMatch)
    · exact .inr (Err.code_ne_zero (.countOverflow .reader))

theorem decEnd_moves (hx : exec .decEnd s = .next t) :
    if s.r.phase = .active then (if s.r.done then t.r.phase = .idle else t.r.phase = .failed) else t.r = s.r := by
  simp only [Reader.phase_eq_active, Reader.phase_eq_failed, Reader.phase_eq_idle]
  obtain ⟨hne, rfl⟩ | ⟨-, hoff, rfl⟩ | ⟨hok, ha, hd, rfl⟩ | ⟨hok, ha, hd, rfl⟩ := decEnd_cases hx
  · rw [if_neg fun h => hne h.1]; rfl
  · rw [if_neg fun h => by simp [hoff] at h]; rfl
  · rw [if_pos ⟨hok, ha⟩, if_neg (by simp [hd])]; exact Err.code_ne_zero .truncated
  · rw [if_pos ⟨hok, ha⟩, if_pos hd]; exact ⟨hok, rfl⟩

/-! The store's moves. -/

theorem cbClear_moves (hx : exec .cbClear s = .next t) :
    if s.storePhase = .locked then t.cb = s.cb else t.storePhase = .building ∧ t.cbN = 0 := by
  simp only [storePhase_eq_locked, storePhase_eq_building]
  obtain ⟨hl, rfl⟩ | ⟨hl, rfl⟩ := cbClear_cases hx
  · rw [if_pos hl]; rfl
  · rw [if_neg (by simp [hl])]; exact ⟨⟨hl, rfl⟩, rfl⟩

/-- A `CB.LOAD` into a store that is locked or failed leaves it alone. -/
theorem cbLoad_keeps_store {sym : Byte} {len : BitVec 8} {code : CodeWord} (hx : exec (.cbLoad sym len code) s = .next t)
    (hp : s.storePhase ≠ .building) : t.cb = s.cb := by
  rw [Ne, storePhase_eq_building] at hp
  obtain ⟨-, rfl⟩ | ⟨-, -, rfl⟩ | ⟨hok, hl, -⟩ | ⟨hok, hl, -⟩ := cbLoad_cases hx
  · rfl
  · rfl
  · exact absurd ⟨hl, hok⟩ hp
  · exact absurd ⟨hl, hok⟩ hp

/-- A `CB.LOAD` into a store in building adds an entry or fails the build. -/
theorem cbLoad_builds {sym : Byte} {len : BitVec 8} {code : CodeWord} (hx : exec (.cbLoad sym len code) s = .next t)
    (hp : s.storePhase = .building) :
    (t.storePhase = .building ∧ t.cbN = s.cbN + 1) ∨ (t.storePhase = .failed ∧ t.cbN = s.cbN) := by
  rw [storePhase_eq_building] at hp ⊢
  rw [storePhase_eq_failed]
  obtain ⟨hl, hok⟩ := hp
  obtain ⟨hne, -⟩ | ⟨-, hl', -⟩ | ⟨-, -, e, he, rfl⟩ | ⟨-, -, -, -, -, rfl⟩ := cbLoad_cases hx
  · exact absurd hok hne
  · simp [hl] at hl'
  · have hlatch := latchErr_build he s
    refine .inr ⟨⟨?_, ?_⟩, ?_⟩
    · simpa [State.cbLocked, hlatch] using hl
    · simpa [hlatch] using e.code_ne_zero
    · simp [State.cbN, hlatch]
  · exact .inl ⟨⟨hl, hok⟩, by simp [State.cbN]⟩

/-- While an operation is active the store does not change. -/
theorem exec_cb_of_locked {i : Instr} (hl : s.cbLocked = true) (hi : i ≠ .sreset) (hx : exec i s = .next t) :
    t.cb = s.cb := by
  have hp : s.storePhase = .locked := (storePhase_eq_locked s).2 hl
  cases i with
  | cbClear => simpa [hp] using cbClear_moves hx
  | cbLoad => exact cbLoad_keeps_store hx (by simp [hp])
  | encInit | encSym | encFlush => exact (writer_frame (by simp) hx).1
  | decInit | decByte | decEnd => exact (reader_frame (by simp) hx).1
  | statGet => exact (statGet_frame hx).1
  | sreset => exact absurd rfl hi

/-- A locked store becomes building when the last active unit ends. -/
theorem locked_store_moves {i : Instr} (h : s.Inv) (hx : exec i s = .next t) (hp : s.storePhase = .locked) :
    t.storePhase = if t.cbLocked then .locked else .building := by
  have hl := (storePhase_eq_locked s).1 hp
  have herr : t.cb.err = 0 := by
    by_cases hi : i = .sreset
    · subst hi
      rw [sreset_cases hx]
      rfl
    · rw [exec_cb_of_locked hl hi hx]
      by_contra hne
      simp [h.cbLatchUnlocked hne] at hl
  simp [State.storePhase, herr]

/-- An init command that succeeds locks the store. -/
theorem inits_lock_store (hinit : s.cb.err = 0 → t.w.phase = .active ∨ t.r.phase = .active) :
    s.cb.err = 0 → t.storePhase = .locked := by
  intro hok
  rw [storePhase_eq_locked, cbLocked_eq_true]
  exact (hinit hok).imp (fun h => ((Writer.phase_eq_active _).1 h).2) (fun h => ((Reader.phase_eq_active _).1 h).2)

/-- Settles O41, by the moves of each command's own unit and the frames of the others. -/
theorem unitsFollowLifeCycle : Obligations.UnitsFollowLifeCycle := by
  intro i s t h hx
  have hlocked := locked_store_moves h hx
  cases i with
  | cbClear =>
    obtain ⟨hw, hr, -⟩ := codebook_frame (by simp) hx
    exact ⟨hw, hr, cbClear_moves hx, hlocked⟩
  | cbLoad =>
    obtain ⟨hw, hr, -⟩ := codebook_frame (by simp) hx
    refine ⟨hw, hr, ?_, hlocked⟩
    cases hp : s.storePhase with
    | locked => exact cbLoad_keeps_store hx (by simp [hp])
    | failed => exact cbLoad_keeps_store hx (by simp [hp])
    | building => exact cbLoad_builds hx hp
  | encInit =>
    obtain ⟨hcb, hr, -⟩ := writer_frame (by simp) hx
    have hmove := encInit_moves hx
    exact ⟨hmove, hr, ⟨hcb, inits_lock_store fun hok => .inl (by rwa [if_pos hok] at hmove)⟩, hlocked⟩
  | encSym =>
    obtain ⟨hcb, hr, -⟩ := writer_frame (by simp) hx
    exact ⟨encSym_moves hx, hr, hcb, hlocked⟩
  | encFlush =>
    obtain ⟨hcb, hr, -⟩ := writer_frame (by simp) hx
    exact ⟨encFlush_moves hx, hr, hcb, hlocked⟩
  | decInit =>
    obtain ⟨hcb, hw, -⟩ := reader_frame (by simp) hx
    have hmove := decInit_moves hx
    exact ⟨hw, hmove, ⟨hcb, inits_lock_store fun hok => .inr (by rwa [if_pos hok] at hmove)⟩, hlocked⟩
  | decByte =>
    obtain ⟨hcb, hw, -⟩ := reader_frame (by simp) hx
    exact ⟨hw, decByte_moves hx, hcb, hlocked⟩
  | decEnd =>
    obtain ⟨hcb, hw, -⟩ := reader_frame (by simp) hx
    exact ⟨hw, decEnd_moves hx, hcb, hlocked⟩
  | statGet =>
    obtain ⟨hcb, hw, hr, -⟩ := statGet_frame hx
    exact ⟨hw, hr, hcb, hlocked⟩
  | sreset =>
    rw [sreset_cases hx] at hlocked ⊢
    exact ⟨rfl, rfl, rfl, hlocked⟩

end Sys2Proof.Machine
end

section
/-! SUPPORT. A command's emissions: what it appends to the history before its one response (20_memory.md rules R49, R55). -/

namespace Sys2Proof.Machine

/-- From `s` to `t` nothing is taken off the command stream, and the history gains `items` and then one response. -/
structure Emits (items : List Event) (s t : State) : Prop where
  hostIn_eq : t.hostIn = s.hostIn
  history_eq : ∃ w, t.history = s.history ++ (items ++ [.resp w])

namespace Emits

variable {s t u : State} {items : List Event}

theorem raiseErr (e : Err) (s : State) : Emits [] s (raiseErr e s) := ⟨raiseErr_hostIn e s, _, raiseErr_history e s⟩

theorem respond (c : Byte) (d : Count) (s : State) : Emits [] s (respond c d s) := ⟨rfl, _, rfl⟩

/-- Items appended before an answer without items are that command's items. -/
theorem after (h : Emits [] u t) (hhost : u.hostIn = s.hostIn) (hhist : u.history = s.history ++ items) :
    Emits items s t := by
  obtain ⟨hhost', w, hhist'⟩ := h
  exact ⟨hhost'.trans hhost, w, by rw [hhist', hhist, List.append_assoc, List.nil_append]⟩

end Emits

variable {s t : State}

theorem cbClear_emits (hx : exec .cbClear s = .next t) : Emits [] s t := by
  obtain ⟨-, rfl⟩ | ⟨-, rfl⟩ := cbClear_cases hx
  · exact .raiseErr _ _
  · exact ⟨rfl, _, rfl⟩

theorem cbLoad_emits {sym : Byte} {len : BitVec 8} {code : CodeWord} (hx : exec (.cbLoad sym len code) s = .next t) :
    Emits [] s t := by
  obtain ⟨-, rfl⟩ | ⟨-, -, rfl⟩ | ⟨-, -, e, -, rfl⟩ | ⟨-, -, -, -, -, rfl⟩ := cbLoad_cases hx
  · exact .respond _ _ _
  · exact .raiseErr _ _
  · exact .raiseErr _ _
  · exact ⟨rfl, _, rfl⟩

theorem encInit_emits (hx : exec .encInit s = .next t) : Emits [] s t := by
  obtain ⟨-, rfl⟩ | ⟨-, rfl⟩ := encInit_cases hx
  · exact .raiseErr _ _
  · exact ⟨rfl, _, rfl⟩

/-- At most 7 pending bits and a code of at most 32 hold at most 4 whole bytes. -/
theorem encSym_emits (h : s.Inv) {x : Byte} (hx : exec (.encSym x) s = .next t) :
    ∃ bytes : List Byte, bytes.length ≤ 4 ∧ Emits (bytes.map .outByte) s t := by
  obtain ⟨-, rfl⟩ | ⟨-, -, rfl⟩ | ⟨-, -, -, rfl⟩ | ⟨-, -, e, he, -, -, ⟨-, rfl⟩ | ⟨-, rfl⟩⟩ := encSym_cases hx
  · exact ⟨[], by simp, .respond _ _ _⟩
  · exact ⟨[], by simp, .raiseErr _ _⟩
  · exact ⟨[], by simp, .raiseErr _ _⟩
  · exact ⟨[], by simp, .raiseErr _ _⟩
  · have happ := appendCode_eq h.wAccFits e
    refine ⟨wholeBytes (pendingBits s.w ++ entryBits e), ?_,
      (Emits.respond _ _ _).after (by rw [happ]) (by rw [happ])⟩
    obtain ⟨-, hlen, -⟩ := h.storeOk.bounds e he
    have hcnt := s.w.cnt.isLt
    rw [length_wholeBytes, List.length_append, length_pendingBits, length_entryBits]
    omega

theorem encFlush_emits (hx : exec .encFlush s = .next t) :
    ∃ bytes : List Byte, bytes.length ≤ 1 ∧ Emits (bytes.map .outByte) s t := by
  obtain ⟨-, rfl⟩ | ⟨-, -, rfl⟩ | ⟨-, -, -, rfl⟩ | ⟨-, -, -, rfl⟩ := encFlush_cases hx
  · exact ⟨[], by simp, .respond _ _ _⟩
  · exact ⟨[], by simp, .raiseErr _ _⟩
  · exact ⟨[], by simp, rfl, _, rfl⟩
  · exact ⟨[flushByte s.w], le_rfl, (Emits.respond _ _ _).after rfl rfl⟩

theorem decInit_emits {n : Count} (hx : exec (.decInit n) s = .next t) : Emits [] s t := by
  obtain ⟨-, rfl⟩ | ⟨-, rfl⟩ := decInit_cases hx
  · exact .raiseErr _ _
  · exact ⟨rfl, _, rfl⟩

/-- Folding the 8 bits of a byte emits at most one symbol a bit. -/
theorem decByte_emits {b : Byte} (hx : exec (.decByte b) s = .next t) :
    ∃ syms : List Byte, syms.length ≤ 8 ∧ Emits (syms.map .outSym) s t := by
  obtain ⟨-, -, -, hhost, -, -, -, -, syms, hlen, hhist⟩ := foldBits_frame (bitsMsb 8 b) s
  obtain ⟨-, rfl⟩ | ⟨-, -, rfl⟩ | ⟨-, -, -, rfl⟩ | ⟨-, -, -, s', hf, rfl⟩ | ⟨-, -, -, s', e, hf, -, rfl⟩ :=
    decByte_cases hx
  · exact ⟨[], by simp, .respond _ _ _⟩
  · exact ⟨[], by simp, .raiseErr _ _⟩
  · exact ⟨[], by simp, .raiseErr _ _⟩
  · rw [hf] at hhost hhist
    exact ⟨syms, by simpa using hlen, (Emits.respond _ _ _).after hhost hhist⟩
  · rw [hf] at hhost hhist
    exact ⟨syms, by simpa using hlen, (Emits.raiseErr _ _).after hhost hhist⟩

theorem decEnd_emits (hx : exec .decEnd s = .next t) : Emits [] s t := by
  obtain ⟨-, rfl⟩ | ⟨-, -, rfl⟩ | ⟨-, -, -, rfl⟩ | ⟨-, -, -, rfl⟩ := decEnd_cases hx
  · exact .respond _ _ _
  · exact .raiseErr _ _
  · exact .raiseErr _ _
  · exact ⟨rfl, _, rfl⟩

theorem statGet_emits {reg : BitVec 4} (hx : exec (.statGet reg) s = .next t) : Emits [] s t := by
  obtain ⟨-, rfl⟩ | ⟨-, rfl⟩ := statGet_cases hx
  · exact .respond _ _ _
  · exact .raiseErr _ _

theorem sreset_emits (hx : exec .sreset s = .next t) : Emits [] s t := by
  rw [sreset_cases hx]
  exact ⟨rfl, _, rfl⟩

/-- The form in which the rule lists a command's items. -/
theorem Emits.exists_items {P : List Event → Prop} {items : List Event} (h : Emits items s t) (hP : P items) :
    t.hostIn = s.hostIn ∧ ∃ items w, t.history = s.history ++ items ++ [.resp w] ∧ P items := by
  obtain ⟨hhost, w, hhist⟩ := h
  exact ⟨hhost, items, w, by rw [hhist, List.append_assoc], hP⟩

/-- Settles O7, by the emissions of each command. -/
theorem emissionsPerCommand : Obligations.EmissionsPerCommand := by
  intro i s t h hx
  cases i with
  | cbClear => exact (cbClear_emits hx).exists_items rfl
  | cbLoad => exact (cbLoad_emits hx).exists_items rfl
  | encInit => exact (encInit_emits hx).exists_items rfl
  | encSym =>
    obtain ⟨bytes, hlen, hemits⟩ := encSym_emits h hx
    exact hemits.exists_items ⟨bytes, rfl, hlen⟩
  | encFlush =>
    obtain ⟨bytes, hlen, hemits⟩ := encFlush_emits hx
    exact hemits.exists_items ⟨bytes, rfl, hlen⟩
  | decInit => exact (decInit_emits hx).exists_items rfl
  | decByte =>
    obtain ⟨syms, hlen, hemits⟩ := decByte_emits hx
    exact hemits.exists_items ⟨syms, rfl, hlen⟩
  | decEnd => exact (decEnd_emits hx).exists_items rfl
  | statGet => exact (statGet_emits hx).exists_items rfl
  | sreset => exact (sreset_emits hx).exists_items rfl

end Sys2Proof.Machine
end

section
/-! SUPPORT. The lock of the store (20_memory.md rule R54): what a store write is answered while an operation is active. -/

namespace Sys2Proof.Machine

/-- A locked store has no failed build, so a store write gets past the latch and is answered `E_CB_LOCKED`. -/
theorem storeWrite_of_locked {i : Instr} {s t : State} (h : s.Inv) (hl : s.cbLocked = true)
    (hi : i = .cbClear ∨ ∃ sym len code, i = .cbLoad sym len code) (hx : exec i s = .next t) :
    t = raiseErr .cbLocked s := by
  obtain rfl | ⟨sym, len, code, rfl⟩ := hi
  · obtain ⟨-, ht⟩ | ⟨hfree, -⟩ := cbClear_cases hx
    · exact ht
    · cases hl.symm.trans hfree
  · obtain ⟨hne, -⟩ | ⟨-, -, ht⟩ | ⟨-, hfree, -⟩ | ⟨-, hfree, -⟩ := cbLoad_cases hx
    · cases hl.symm.trans (h.cbLatchUnlocked hne)
    · exact ht
    · cases hl.symm.trans hfree
    · cases hl.symm.trans hfree

/-- Settles O40, by the frame of a locked store and the answer to a store write. -/
theorem lockedStoreDoesNotChange : Obligations.LockedStoreDoesNotChange := by
  intro i s t h ha hx hreset
  have hl := (cbLocked_eq_true s).2 ha
  refine ⟨exec_cb_of_locked hl hreset hx, fun hi => ?_⟩
  rw [storeWrite_of_locked h hl hi hx]
  exact raiseErr_history .cbLocked s

end Sys2Proof.Machine
end

section
/-! SUPPORT. A command presented twice in a row (20_memory.md rule R50): which second presentations leave every register and both
output streams alone. -/

namespace Sys2Proof.Machine

/-- From `t` to `u` no register changes and nothing is emitted. -/
def KeepsRegistersAndStreams (t u : State) : Prop :=
  u.cb = t.cb ∧ u.w = t.w ∧ u.r = t.r ∧ u.faultLog = t.faultLog ∧ u.byteOut = t.byteOut ∧ u.symOut = t.symOut

variable {i : Instr} {s t u : State}

/-- A response is no item of an output stream. -/
theorem KeepsRegistersAndStreams.of_response (hcb : u.cb = t.cb) (hw : u.w = t.w) (hr : u.r = t.r)
    (hl : u.faultLog = t.faultLog) (hh : ∃ w, u.history = t.history ++ [.resp w]) : KeepsRegistersAndStreams t u := by
  obtain ⟨w, hh⟩ := hh
  exact ⟨hcb, hw, hr, hl, by simp [State.byteOut, hh, Event.byte?], by simp [State.symOut, hh, Event.sym?]⟩

/-- Raising a second time an error that latches nothing sets a bit of the log that is set. -/
theorem raiseErr_twice {e : Err} (hlatch : ∀ s, latchErr e s = s) (s : State) :
    KeepsRegistersAndStreams (raiseErr e s) (raiseErr e (raiseErr e s)) := by
  refine .of_response ?_ ?_ ?_ ?_ ⟨_, raiseErr_history e _⟩
  · rw [raiseErr_cb, hlatch]
  · rw [raiseErr_w, hlatch]
  · rw [raiseErr_r, hlatch]
  · rw [raiseErr_faultLog, raiseErr_faultLog, BitVec.or_assoc, BitVec.or_self]

/-- The error latch a command is refused by (60_exceptions.md rule R194); 0 for the commands no latch refuses. -/
def refusingLatch (s : State) : Instr → Byte
  | .cbLoad _ _ _ => s.cb.err
  | .encSym _ | .encFlush => s.w.err
  | .decByte _ | .decEnd => s.r.err
  | .cbClear | .encInit | .decInit _ | .statGet _ | .sreset => 0

/-- A command with its latch set answers the latched code and does nothing else. -/
theorem exec_of_latched (hne : refusingLatch s i ≠ 0) : exec i s = .next (respond (refusingLatch s i) 0 s) := by
  cases i with
  | cbLoad | encSym | encFlush | decByte | decEnd => exact congrArg _ (if_pos hne)
  | cbClear | encInit | decInit | statGet | sreset => exact absurd rfl hne

theorem latched_twice (hx : exec i s = .next t) (hy : exec i t = .next u) (hne : refusingLatch s i ≠ 0) :
    KeepsRegistersAndStreams t u := by
  cases (exec_of_latched hne).symm.trans hx
  have hne' : refusingLatch (respond (refusingLatch s i) 0 s) i ≠ 0 := by cases i <;> exact hne
  cases (exec_of_latched hne').symm.trans hy
  exact .of_response rfl rfl rfl rfl ⟨_, rfl⟩

theorem cbClear_twice (hx : exec .cbClear s = .next t) (hy : exec .cbClear t = .next u) :
    KeepsRegistersAndStreams t u := by
  obtain ⟨hl, rfl⟩ | ⟨hl, rfl⟩ := cbClear_cases hx
  · obtain ⟨-, rfl⟩ | ⟨hl', -⟩ := cbClear_cases hy
    · exact raiseErr_twice (fun _ => rfl) s
    · cases hl.symm.trans hl'
  · obtain ⟨hl', -⟩ | ⟨-, rfl⟩ := cbClear_cases hy
    · cases hl'.symm.trans hl
    · exact .of_response rfl rfl rfl rfl ⟨_, rfl⟩

theorem encInit_twice (hx : exec .encInit s = .next t) (hy : exec .encInit t = .next u) :
    KeepsRegistersAndStreams t u := by
  obtain ⟨hne, rfl⟩ | ⟨hok, rfl⟩ := encInit_cases hx
  · obtain ⟨-, rfl⟩ | ⟨hok', -⟩ := encInit_cases hy
    · exact raiseErr_twice (fun _ => rfl) s
    · exact absurd hok' hne
  · obtain ⟨hne', -⟩ | ⟨-, rfl⟩ := encInit_cases hy
    · exact absurd hok hne'
    · exact .of_response rfl rfl rfl rfl ⟨_, rfl⟩

theorem decInit_twice {n : Count} (hx : exec (.decInit n) s = .next t) (hy : exec (.decInit n) t = .next u) :
    KeepsRegistersAndStreams t u := by
  obtain ⟨hne, rfl⟩ | ⟨hok, rfl⟩ := decInit_cases hx
  · obtain ⟨-, rfl⟩ | ⟨hok', -⟩ := decInit_cases hy
    · exact raiseErr_twice (fun _ => rfl) s
    · exact absurd hok' hne
  · obtain ⟨hne', -⟩ | ⟨-, rfl⟩ := decInit_cases hy
    · exact absurd hok hne'
    · exact .of_response rfl rfl rfl rfl ⟨_, rfl⟩

theorem statGet_twice {reg : BitVec 4} (hx : exec (.statGet reg) s = .next t) (hy : exec (.statGet reg) t = .next u) :
    KeepsRegistersAndStreams t u := by
  obtain ⟨hle, rfl⟩ | ⟨hgt, rfl⟩ := statGet_cases hx
  · obtain ⟨-, rfl⟩ | ⟨hgt, -⟩ := statGet_cases hy
    · exact .of_response rfl rfl rfl rfl ⟨_, rfl⟩
    · omega
  · obtain ⟨hle, -⟩ | ⟨-, rfl⟩ := statGet_cases hy
    · omega
    · exact raiseErr_twice (fun _ => rfl) s

theorem sreset_twice (hx : exec .sreset s = .next t) (hy : exec .sreset t = .next u) : KeepsRegistersAndStreams t u := by
  rw [sreset_cases hy, sreset_cases hx]
  exact .of_response rfl rfl rfl rfl ⟨_, rfl⟩

/-- Settles O43, by the second presentation of each idempotent command and of a command its latch refuses. -/
theorem repeatedCommandsChangeNothing : Obligations.RepeatedCommandsChangeNothing := by
  intro i s t u hx hy hi
  cases i with
  | sreset => exact sreset_twice hx hy
  | cbClear => exact cbClear_twice hx hy
  | encInit => exact encInit_twice hx hy
  | decInit => exact decInit_twice hx hy
  | statGet => exact statGet_twice hx hy
  | cbLoad | encSym | encFlush | decByte | decEnd => exact latched_twice hx hy hi

end Sys2Proof.Machine
end

section
/-! SUPPORT. The decoder reads exactly the encodings of the legal commands (30_encoding.md rules R60 to R62, R65, R72). -/

namespace Sys2Proof

/-- A field whose reserved high part is 0 is its low part packed under zeros. -/
theorem zero_append_extract {a b : Nat} {x : BitVec (a + b)} (h : x.extractLsb' b a = 0#a) :
    0#a ++ x.extractLsb' 0 b = x := by
  have hx := append_extract x
  rwa [h] at hx

theorem commandWord_of_fields {w : Word72} {op : Byte} {arg : Count} (hop : opField w = op) (harg : arg = argField w) :
    commandWord op arg = w := by
  rw [← hop, harg, commandWord_fields]

theorem decode_encode {i : Instr} (hwf : i.WellFormed) : decode (encode i) = .ok i := by
  cases i with
  | cbClear | encInit | encFlush | decEnd | sreset => decide
  | cbLoad sym len code =>
    obtain ⟨hreserved, hsym, hlen, hcode⟩ := load_fields sym len code
    simp [decode, encode, opField_commandWord, argField_commandWord, reservedZero, hreserved, hsym, hlen, hcode]
  | decInit origLen => simp [decode, encode, opField_commandWord, argField_commandWord]
  | encSym x | decByte x =>
    have hreserved := extract_append_high 0#56 x
    have hlow := extract_append_low 0#56 x
    simp [decode, encode, opField_commandWord, argField_commandWord, reservedZero, hreserved, hlow]
  | statGet reg =>
    have hreserved := extract_append_high 0#60 reg
    have hlow := extract_append_low 0#60 reg
    have hreg := (wellFormed_statGet reg).1 hwf
    simp only [decode, encode, opField_commandWord, argField_commandWord, reservedZero, hreserved, hlow, hreg, if_true]

theorem encode_of_decode {w : Word72} {i : Instr} (h : decode w = .ok i) : i.WellFormed ∧ encode i = w := by
  unfold decode at h
  dsimp only at h
  split at h
  case h_1 hop | h_3 hop | h_5 hop | h_8 hop | h_10 hop =>
    obtain ⟨harg, rfl⟩ := (reservedZero_ok _ _ _).1 h
    exact ⟨rfl, commandWord_of_fields hop harg.symm⟩
  case h_2 hop =>
    obtain ⟨hreserved, rfl⟩ := (reservedZero_ok _ _ _).1 h
    exact ⟨rfl, commandWord_of_fields hop (load_packed _ hreserved)⟩
  case h_4 hop | h_7 hop =>
    obtain ⟨hreserved, rfl⟩ := (reservedZero_ok _ _ _).1 h
    exact ⟨rfl, commandWord_of_fields hop (zero_append_extract hreserved)⟩
  case h_6 hop =>
    cases h
    exact ⟨rfl, commandWord_of_fields hop rfl⟩
  case h_9 hop =>
    split at h
    case isTrue hreg =>
      obtain ⟨hreserved, rfl⟩ := (reservedZero_ok _ _ _).1 h
      exact ⟨(wellFormed_statGet _).2 hreg, commandWord_of_fields hop (zero_append_extract hreserved)⟩
    case isFalse => cases h
  case h_11 => cases h

/-- Settles O1, command by command: each operand is read back from the field it was packed in. -/
theorem decodeEncodeRoundTrip : Obligations.DecodeEncodeRoundTrip := fun _ hwf => decode_encode hwf

/-- Settles O2, row by row of the decoder: the reserved bits it checks and the operands it reads make up the word. -/
theorem decodedWordIsTheEncoding : Obligations.DecodedWordIsTheEncoding := fun _ _ h => encode_of_decode h

/-- Settles O4: each word but the refused one is the encoding of its command. -/
theorem specWordsDecode : Obligations.SpecWordsDecode :=
  ⟨decode_encode (i := .cbClear) rfl, decode_encode (i := .cbLoad 0x41 2 0b11) rfl,
    decode_encode (i := .cbLoad 0xFF 0xFF 0xFFFFFFFF) rfl, decode_encode (i := .encSym 0x41) rfl,
    decode_encode (i := .decInit 11) rfl, decode_encode (i := .decInit 0xFFFFFFFFFFFFFFFF) rfl,
    decode_encode (i := .decByte 0xFF) rfl, decode_encode (i := .statGet 9) rfl, by decide,
    decode_encode (i := .sreset) rfl⟩

end Sys2Proof
end

section
/-! SUPPORT. The legal words of the opcode table's masks are the encodings of the legal commands (30_encoding.md rule R65). -/

namespace Sys2Proof

open Laws

/-- The register number of `STAT.GET` is bits 3 to 0 of the word. -/
theorem toNat_and_regMask (w : Word72) : (w &&& 0xF).toNat = ((argField w).extractLsb' 0 4).toNat := by
  have hmask : w.toNat &&& 15 = w.toNat % 16 := Nat.and_two_pow_sub_one_eq_mod w.toNat 4
  simp [argField, hmask]

/-- A mask over the high part of a field picks that part. -/
theorem extract_of_and_highMask {a b : Nat} {x : BitVec (a + b)} (h : x &&& (BitVec.allOnes a ++ 0#b) = 0#(a + b)) :
    x.extractLsb' b a = 0#a := by
  have hhigh := congrArg (BitVec.extractLsb' b a) h
  rwa [BitVec.extractLsb'_and, extract_append_high, BitVec.and_allOnes, BitVec.extractLsb'_zero] at hhigh

/-- The row's opcode, and the bits of the argument under the row's mask, of a word that fits. -/
theorem fields_of_masked {w : Word72} {op : Byte} {argMask : Count} (h : w &&& (0xFF#8 ++ argMask) = commandWord op 0) :
    opField w = op ∧ argField w &&& argMask = 0 := by
  rw [← commandWord_fields w] at h
  have hword : commandWord (opField w &&& 0xFF#8) (argField w &&& argMask) = commandWord op 0 :=
    BitVec.and_append.symm.trans h
  have hop := congrArg opField hword
  have harg := congrArg argField hword
  rw [opField_commandWord, opField_commandWord] at hop
  rw [argField_commandWord, argField_commandWord] at harg
  exact ⟨BitVec.and_allOnes.symm.trans hop, harg⟩

theorem eq_of_fullMask {w v : Word72} (h : w &&& BitVec.allOnes 72 = v) : w = v :=
  BitVec.and_allOnes.symm.trans h

theorem exists_encode_of_fits {row : OpcodeRow} {w : Word72} (hrow : row ∈ opcodeTable) (hfits : row.fits w = true)
    (hreg : row.mnemonic = "STAT.GET" → (w &&& 0xF).toNat ≤ 9) : ∃ i : Instr, i.WellFormed ∧ encode i = w := by
  have hmasked : w &&& row.mask = row.value := eq_of_beq hfits
  simp only [opcodeTable, List.mem_cons, List.not_mem_nil, or_false] at hrow
  obtain rfl | rfl | rfl | rfl | rfl | rfl | rfl | rfl | rfl | rfl := hrow
  · exact ⟨.cbClear, rfl, (eq_of_fullMask hmasked).symm⟩
  · obtain ⟨hop, hmask⟩ := fields_of_masked (op := 0x02) (argMask := BitVec.allOnes 16 ++ 0#48) hmasked
    exact ⟨.cbLoad _ _ _, rfl, commandWord_of_fields hop (load_packed _ (extract_of_and_highMask hmask))⟩
  · exact ⟨.encInit, rfl, (eq_of_fullMask hmasked).symm⟩
  · obtain ⟨hop, hmask⟩ := fields_of_masked (op := 0x11) (argMask := BitVec.allOnes 56 ++ 0#8) hmasked
    exact ⟨.encSym _, rfl, commandWord_of_fields hop (zero_append_extract (extract_of_and_highMask hmask))⟩
  · exact ⟨.encFlush, rfl, (eq_of_fullMask hmasked).symm⟩
  · exact ⟨.decInit _, rfl, commandWord_of_fields (fields_of_masked (argMask := 0) hmasked).1 rfl⟩
  · obtain ⟨hop, hmask⟩ := fields_of_masked (op := 0x21) (argMask := BitVec.allOnes 56 ++ 0#8) hmasked
    exact ⟨.decByte _, rfl, commandWord_of_fields hop (zero_append_extract (extract_of_and_highMask hmask))⟩
  · exact ⟨.decEnd, rfl, (eq_of_fullMask hmasked).symm⟩
  · obtain ⟨hop, hmask⟩ := fields_of_masked (op := 0x30) (argMask := BitVec.allOnes 60 ++ 0#4) hmasked
    have hle := hreg rfl
    rw [toNat_and_regMask] at hle
    exact ⟨.statGet _, (wellFormed_statGet _).2 hle,
      commandWord_of_fields hop (zero_append_extract (extract_of_and_highMask hmask))⟩
  · exact ⟨.sreset, rfl, (eq_of_fullMask hmasked).symm⟩

theorem legalWord_iff_fits (w : Word72) : legalWord w = true ↔
    ∃ row ∈ opcodeTable, row.fits w = true ∧ (row.mnemonic = "STAT.GET" → (w &&& 0xF).toNat ≤ 9) := by
  simp [legalWord, List.any_eq_true, imp_iff_not_or]

theorem encode_fits_row (i : Instr) : RowFits.Statement i := by
  cases i with
  | cbClear => exact RowFits.cbClear
  | cbLoad sym len code => exact RowFits.cbLoad sym len code
  | encInit => exact RowFits.encInit
  | encSym sym => exact RowFits.encSym sym
  | encFlush => exact RowFits.encFlush
  | decInit origLen => exact RowFits.decInit origLen
  | decByte byte => exact RowFits.decByte byte
  | decEnd => exact RowFits.decEnd
  | statGet reg => exact RowFits.statGet reg
  | sreset => exact RowFits.sreset

/-- The row named `STAT.GET` is the row of `STAT.GET` alone. -/
theorem eq_statGet_of_mnemonic {i : Instr} {row : OpcodeRow} (hrow : opcodeTable[RowFits.rowIndex i]? = some row)
    (hname : row.mnemonic = "STAT.GET") : ∃ reg, i = .statGet reg := by
  cases i with
  | statGet reg => exact ⟨reg, rfl⟩
  | cbClear | cbLoad | encInit | encSym | encFlush | decInit | decByte | decEnd | sreset =>
    cases hrow
    exact absurd hname (by decide)

theorem legalWord_encode {i : Instr} (hwf : i.WellFormed) : legalWord (encode i) = true := by
  obtain ⟨row, hrow, hfits⟩ := encode_fits_row i
  refine (legalWord_iff_fits _).2 ⟨row, List.mem_of_getElem? hrow, hfits, fun hname => ?_⟩
  obtain ⟨reg, rfl⟩ := eq_statGet_of_mnemonic hrow hname
  rw [toNat_and_regMask, encode, argField_commandWord, extract_append_low 0#60 reg]
  exact (wellFormed_statGet reg).1 hwf

theorem legalWord_iff_encode (w : Word72) : legalWord w = true ↔ ∃ i : Instr, i.WellFormed ∧ encode i = w := by
  constructor
  · intro h
    obtain ⟨row, hrow, hfits, hreg⟩ := (legalWord_iff_fits w).1 h
    exact exists_encode_of_fits hrow hfits hreg
  · rintro ⟨i, hwf, rfl⟩
    exact legalWord_encode hwf

theorem decode_of_not_legalWord {w : Word72} (h : legalWord w = false) : ∃ e, decode w = .error e := by
  cases hd : decode w with
  | ok i =>
    have hlegal := (legalWord_iff_encode w).2 ⟨i, encode_of_decode hd⟩
    rw [h] at hlegal
    cases hlegal
  | error e => exact ⟨e, rfl⟩

namespace Machine

/-- The one answer to an illegal word, as a whole state. -/
theorem raiseErr_illegalCmd_record (w : Word72) (s : State) :
    raiseErr .illegalCmd (record (.cmd w) s) =
      { s with
        faultLog := s.faultLog ||| 0x0002#16
        history := s.history ++ [.cmd w, .resp (0x01#8 ++ 0#64)] } := by
  simp [raiseErr, logFault, latchErr, respond, record, responseWord, Err.code]

/-- Settles O3: a legal word is the encoding of a legal command, which it decodes to, and no other word decodes. -/
theorem illegalWordAnswered : Obligations.IllegalWordAnswered := by
  intro s w rest hs
  refine ⟨fun hlegal => ?_, fun hillegal => ?_⟩
  · obtain ⟨i, hwf, rfl⟩ := (legalWord_iff_encode w).1 hlegal
    exact ⟨i, hwf, rfl, step_command hs (decode_encode hwf)⟩
  · obtain ⟨e, hd⟩ := decode_of_not_legalWord hillegal
    rw [step_illegal hs hd, raiseErr_illegalCmd_record]
    rfl

end Machine
end Sys2Proof
end

section
/-! SUPPORT. What the codebook commands answer, as whole states: the lock, the first failing check of `CB.LOAD`, and the entry
it appends when there is none; and the bits of the log they set (40_codebook_commands.md rules R94, R95). -/

namespace Sys2Proof.Machine

variable {s t : State} {sym : Byte} {len : BitVec 8} {code : CodeWord}

theorem exec_cbClear_locked (hl : s.cbLocked = true) : exec .cbClear s = .next (raiseErr .cbLocked s) := by
  rw [exec, execCbClear, if_pos hl]

theorem exec_cbClear_unlocked (hl : s.cbLocked = false) :
    exec .cbClear s = .next (respond statusOk 0 { s with cb := { entries := [], err := 0 } }) := by
  rw [exec, execCbClear, if_neg (by simp [hl])]

/-- Settles O10, by the two cases of the lock. -/
theorem cbClearEmptiesOrIsLocked : Obligations.CbClearEmptiesOrIsLocked :=
  ⟨decode_encode (i := .cbClear) rfl, fun s =>
    ⟨fun hw hr => exec_cbClear_unlocked ((cbLocked_eq_false s).2 ⟨hw, hr⟩),
      fun ha => exec_cbClear_locked ((cbLocked_eq_true s).2 ha)⟩⟩

/-- The errors that `CB.CLEAR` and `CB.LOAD` raise have the numbers 2 to 7. -/
theorem code_range_of_storeError {e : Err} (he : e ∈ .cbLocked :: buildErrors) : 2 ≤ e.code.toNat ∧ e.code.toNat ≤ 7 := by
  fin_cases he <;> decide

/-- The store commands answer with `OK`, a latched error, the lock, or a failed check, and log the last two. -/
theorem codebook_faultLog {i : Instr} (hi : i = .cbClear ∨ ∃ sym len code, i = .cbLoad sym len code)
    (hx : exec i s = .next t) :
    t.faultLog = s.faultLog ∨ ∃ e ∈ .cbLocked :: buildErrors, t.faultLog = s.faultLog ||| (1#16 <<< e.code.toNat) := by
  obtain rfl | ⟨sym, len, code, rfl⟩ := hi
  · obtain ⟨-, rfl⟩ | ⟨-, rfl⟩ := cbClear_cases hx
    · exact .inr ⟨.cbLocked, by simp, raiseErr_faultLog _ s⟩
    · exact .inl rfl
  · obtain ⟨-, rfl⟩ | ⟨-, -, rfl⟩ | ⟨-, -, e, he, rfl⟩ | ⟨-, -, -, -, -, rfl⟩ := cbLoad_cases hx
    · exact .inl rfl
    · exact .inr ⟨.cbLocked, by simp, raiseErr_faultLog _ s⟩
    · exact .inr ⟨e, List.mem_cons_of_mem _ he, raiseErr_faultLog e s⟩
    · exact .inl rfl

/-- Settles O19: the only event is a response, and a logged bit is the number of a store error. -/
theorem codebookCommandsFrame : Obligations.CodebookCommandsFrame := by
  intro i s t hi hx
  obtain ⟨hw, hr, w, hh⟩ := codebook_frame hi hx
  refine ⟨hw, hr, by simp [State.byteOut, hh, Event.byte?], by simp [State.symOut, hh, Event.sym?], exec_hostIn hx, ?_⟩
  intro k hk
  obtain hlog | ⟨e, he, hlog⟩ := codebook_faultLog hi hx
  · rw [hlog]
  · have hrange := code_range_of_storeError he
    rw [hlog, getLsbD_log, decide_eq_false (by omega), Bool.or_false]

/-- The first check of rule R95 that the entry of a `CB.LOAD` fails, past the latch and the lock. -/
def loadFailure (cb : Codebook) (sym : Byte) (len : BitVec 8) (code : CodeWord) : Option Err :=
  if len.toNat = 0 then some .zeroLength
  else if len.toNat > Config.maxLen then some .codeTooLong
  else if code.toNat ≥ 2 ^ len.toNat then some .badCodeValue
  else if (lookupSym cb sym).isSome then some .dupSymbol
  else if conflictsWithStore cb code len.toNat then some .notPrefixFree
  else none

/-- The store with one more entry (the last step of rule R95). -/
def appendEntry (e : Entry) (s : State) : State := { s with cb := { s.cb with entries := s.cb.entries ++ [e] } }

theorem exec_cbLoad_locked (herr : s.cb.err = 0) (hl : s.cbLocked = true) :
    exec (.cbLoad sym len code) s = .next (raiseErr .cbLocked s) := by
  rw [exec, execCbLoad, if_neg (not_not.2 herr), if_pos hl]

/-- A `CB.LOAD` into a store in building raises its first failing check, and appends the entry if there is none. -/
theorem exec_cbLoad_building (herr : s.cb.err = 0) (hl : s.cbLocked = false) :
    exec (.cbLoad sym len code) s = .next ((loadFailure s.cb sym len code).elim
      (respond statusOk 0 (appendEntry ⟨sym, len.setWidth 6, code⟩ s)) (raiseErr · s)) := by
  rw [exec, execCbLoad, if_neg (not_not.2 herr), if_neg (by simp [hl]), loadFailure]
  split_ifs <;> rfl

theorem exec_cbLoad_fails (herr : s.cb.err = 0) (hl : s.cbLocked = false) {e : Err}
    (hf : loadFailure s.cb sym len code = some e) : exec (.cbLoad sym len code) s = .next (raiseErr e s) := by
  rw [exec_cbLoad_building herr hl, hf, Option.elim_some]

theorem exec_cbLoad_appends (herr : s.cb.err = 0) (hl : s.cbLocked = false) (hf : loadFailure s.cb sym len code = none) :
    exec (.cbLoad sym len code) s = .next (respond statusOk 0 (appendEntry ⟨sym, len.setWidth 6, code⟩ s)) := by
  rw [exec_cbLoad_building herr hl, hf, Option.elim_none]

/-! The checks of an entry whose length and code value are legal. -/

theorem lookupSym_isSome_iff {cb : Codebook} {x : Byte} : (lookupSym cb x).isSome = true ↔ ∃ e ∈ cb.entries, e.sym = x := by
  rw [← not_iff_not, Bool.not_eq_true, Option.isSome_eq_false_iff, Option.isNone_iff_eq_none, lookupSym_none]
  push Not
  rfl

/-- The last check of `CB.LOAD` on bit strings (rule R96). -/
theorem StoreOk.conflicts_iff {cb : Codebook} (h : StoreOk cb) {n : Nat} (hc : code.toNat < 2 ^ n) :
    conflictsWithStore cb code n = true ↔
      ∃ e ∈ cb.entries, entryBits e <+: bitsMsb n code ∨ bitsMsb n code <+: entryBits e := by
  simp only [conflictsWithStore, List.any_eq_true]
  exact exists_congr fun e => and_congr_right fun he => codesConflict_iff (h.bounds e he).2.2 hc

theorem loadFailure_of_valid (cb : Codebook) (sym : Byte) (hv : validEntry len.toNat code = true) :
    loadFailure cb sym len code =
      if (lookupSym cb sym).isSome then some .dupSymbol
      else if conflictsWithStore cb code len.toNat then some .notPrefixFree
      else none := by
  obtain ⟨h1, h32, hc⟩ := (validEntry_iff _ _).1 hv
  rw [loadFailure, Config.maxLen, if_neg (by omega), if_neg (by omega), if_neg (by omega)]

/-- Settles O11, check by check in the rule's order. -/
theorem cbLoadChecksThenAppends : Obligations.CbLoadChecksThenAppends := by
  refine ⟨fun sym len code => decode_encode (i := .cbLoad sym len code) rfl, fun s sym len code h => ?_⟩
  refine ⟨fun hne => exec_of_latched (i := .cbLoad sym len code) hne, fun herr ha => ?_, fun herr hw hr => ?_⟩
  · exact exec_cbLoad_locked herr ((cbLocked_eq_true s).2 ha)
  have hl := (cbLocked_eq_false s).2 ⟨hw, hr⟩
  refine ⟨fun h0 => ?_, fun h33 => ?_, fun h1 h32 hbig => ?_, fun h1 h32 hc => ?_⟩
  · exact exec_cbLoad_fails herr hl (e := .zeroLength) (by rw [loadFailure, if_pos h0])
  · exact exec_cbLoad_fails herr hl (e := .codeTooLong) (by rw [loadFailure, Config.maxLen, if_neg (by omega), if_pos h33])
  · exact exec_cbLoad_fails herr hl (e := .badCodeValue)
      (by rw [loadFailure, Config.maxLen, if_neg (by omega), if_neg (by omega), if_pos hbig])
  · have hfail := loadFailure_of_valid s.cb sym ((validEntry_iff len.toNat code).2 ⟨h1, h32, hc⟩)
    rw [← lookupSym_isSome_iff, ← h.storeOk.conflicts_iff hc]
    refine ⟨fun hsym => ?_, fun hsym hcon => ?_, fun hsym hcon => ?_⟩
    · exact exec_cbLoad_fails herr hl (e := .dupSymbol) (by rw [hfail, if_pos hsym])
    · exact exec_cbLoad_fails herr hl (e := .notPrefixFree) (by rw [hfail, if_neg hsym, if_pos hcon])
    · exact exec_cbLoad_appends herr hl (by rw [hfail, if_neg hsym, if_neg hcon])

end Sys2Proof.Machine
end

section
/-! SUPPORT. What the lookups find in a store that meets the invariant (40_codebook_commands.md rules R92, R93). -/

namespace Sys2Proof.Machine

theorem StoreOk.lookupSym_iff {cb : Codebook} (h : StoreOk cb) {x : Byte} {e : Entry} :
    lookupSym cb x = some e ↔ e ∈ cb.entries ∧ e.sym = x := by
  refine ⟨lookupSym_some, ?_⟩
  rintro ⟨he, rfl⟩
  exact h.lookupSym_eq he

theorem StoreOk.lookupCode_iff {cb : Codebook} (h : StoreOk cb) {v : CodeWord} {n : BitVec 6} {e : Entry} :
    lookupCode cb v n = some e ↔ e ∈ cb.entries ∧ e.len = n ∧ e.code = v := by
  refine ⟨lookupCode_some, ?_⟩
  rintro ⟨he, rfl, rfl⟩
  exact h.lookupCode_eq he

/-- Settles O13: a stored entry is the one with its symbol, and different indices hold different symbols. -/
theorem lookupSymFindsTheEntry : Obligations.LookupSymFindsTheEntry := by
  refine fun s x h => ⟨fun e => h.storeOk.lookupSym_iff, lookupSym_none, fun i j a b ha hb hax hbx => ?_⟩
  by_contra hij
  exact sym_ne_of_index_ne h.symsDistinct ha hb hij (hax.trans hbx.symm)

/-- Settles O14: a stored entry is the one with its code, and the code at one index does not begin the code at another. -/
theorem lookupCodeFindsTheEntry : Obligations.LookupCodeFindsTheEntry := by
  refine fun s v n h => ⟨fun e => h.storeOk.lookupCode_iff, lookupCode_none, ?_⟩
  rintro i j a b ha hb ⟨rfl, rfl⟩ ⟨hlen, hcode⟩
  by_contra hij
  obtain ⟨-, -, hindex⟩ := storeIsPrefixFreeAndBounded s h
  obtain ⟨-, hfree, -⟩ := hindex i j a b ha hb hij
  exact hfree (by simp [entryBits, hlen, hcode])

end Sys2Proof.Machine
end

section
/-! SUPPORT. Runs of store commands that are answered `OK` throughout (40_codebook_commands.md rule R97). -/

namespace Sys2Proof.Machine

variable {s t : State} {i : Instr} {is : List Instr}

/-- `CB.CLEAR` or a `CB.LOAD`. -/
def IsStoreCommand (i : Instr) : Prop := i = .cbClear ∨ ∃ sym len code, i = .cbLoad sym len code

theorem IsStoreCommand.wellFormed (hi : IsStoreCommand i) : i.WellFormed := by
  obtain rfl | ⟨sym, len, code, rfl⟩ := hi <;> rfl

/-- A run of a command and more: the command's own answer, and the run from there. -/
theorem runCommands_cons_inv (hwf : i.WellFormed) (hrun : runCommands (i :: is) s = .next t) :
    ∃ u, exec i (record (.cmd (encode i)) s) = .next u ∧ runCommands is u = .next t := by
  obtain ⟨u, hx⟩ := exec_total i (record (.cmd (encode i)) s)
  exact ⟨u, hx, runCommands_cons is (decode_encode hwf) hx ▸ hrun⟩

/-- The responses after a presented command whose only event is its answer. -/
theorem responses_of_answer {w r : Word72} (hh : t.history = (record (.cmd w) s).history ++ [.resp r]) :
    t.responses = s.responses ++ [r] := by
  rw [State.responses, hh, record_history, List.append_assoc, List.filterMap_append]
  rfl

/-- A presented store command adds one response. -/
theorem storeCommand_responds (hi : IsStoreCommand i) (hx : exec i (record (.cmd (encode i)) s) = .next t) :
    ∃ r, t.history = (record (.cmd (encode i)) s).history ++ [.resp r] ∧ t.responses = s.responses ++ [r] := by
  obtain ⟨-, -, r, hh⟩ := codebook_frame hi hx
  exact ⟨r, hh, responses_of_answer hh⟩

theorem storeCommands_respond (his : ∀ i ∈ is, IsStoreCommand i) (hrun : runCommands is s = .next t) :
    ∃ rs : List Word72, rs.length = is.length ∧ t.responses = s.responses ++ rs := by
  induction is generalizing s with
  | nil =>
    cases (runCommands_nil s).symm.trans hrun
    exact ⟨[], rfl, (List.append_nil _).symm⟩
  | cons i is ih =>
    have hi := his i List.mem_cons_self
    obtain ⟨u, hx, hrest⟩ := runCommands_cons_inv hi.wellFormed hrun
    obtain ⟨r, -, hr⟩ := storeCommand_responds hi hx
    obtain ⟨rs, hlen, hrs⟩ := ih (fun j hj => his j (List.mem_cons_of_mem _ hj)) hrest
    exact ⟨r :: rs, by simp [hlen], by simp [hrs, hr]⟩

/-- A run of store commands answered `OK` throughout: its first command is, and so is the run of the rest. -/
theorem storeCommands_ok_cons (his : ∀ j ∈ i :: is, IsStoreCommand j) (hrun : runCommands (i :: is) s = .next t)
    (hok : t.responses = s.responses ++ List.replicate (is.length + 1) 0) :
    ∃ u, exec i (record (.cmd (encode i)) s) = .next u ∧
      u.history = (record (.cmd (encode i)) s).history ++ [.resp 0] ∧
      runCommands is u = .next t ∧ t.responses = u.responses ++ List.replicate is.length 0 := by
  have hi := his i List.mem_cons_self
  obtain ⟨u, hx, hrest⟩ := runCommands_cons_inv hi.wellFormed hrun
  obtain ⟨r, hh, hr⟩ := storeCommand_responds hi hx
  obtain ⟨rs, -, hrs⟩ := storeCommands_respond (fun j hj => his j (List.mem_cons_of_mem _ hj)) hrest
  rw [hok, hr, List.append_assoc] at hrs
  obtain ⟨rfl, rfl⟩ := List.cons.inj (List.append_cancel_left hrs)
  exact ⟨u, hx, hh, hrest, by rw [hok, hr, List.append_assoc]; rfl⟩

/-! What an `OK` answer to a store command says. -/

/-- Only status `OK` answers the zero word. -/
theorem status_of_resp_zero {before : List Event} {c : Byte} {d : Count}
    (h : before ++ [.resp (responseWord c d)] = before ++ [.resp 0]) : c = 0 := by
  have hw := List.append_cancel_left h
  rw [List.cons.injEq, Event.resp.injEq] at hw
  exact status_of_responseWord_eq (c' := statusOk) (d' := 0) hw.1

theorem raiseErr_not_ok {e : Err} : (raiseErr e s).history ≠ s.history ++ [.resp 0] := fun h =>
  e.code_ne_zero (status_of_resp_zero ((raiseErr_history e s).symm.trans h))

theorem cbClear_of_ok (hx : exec .cbClear s = .next t) (hok : t.history = s.history ++ [.resp 0]) :
    t.cb = { entries := [], err := 0 } := by
  obtain ⟨-, rfl⟩ | ⟨-, rfl⟩ := cbClear_cases hx
  · exact absurd hok raiseErr_not_ok
  · rfl

/-- The `CB.LOAD` of an entry. -/
def loadOf (e : Entry) : Instr := .cbLoad e.sym (e.len.setWidth 8) e.code

theorem isStoreCommand_loadOf (e : Entry) : IsStoreCommand (loadOf e) := .inr ⟨_, _, _, rfl⟩

theorem isStoreCommand_loads (es : List Entry) : ∀ i ∈ es.map loadOf, IsStoreCommand i :=
  List.forall_mem_map.2 fun e _ => isStoreCommand_loadOf e

/-- A length goes through the operand field of `CB.LOAD` unchanged. -/
theorem setWidth_len (n : BitVec 6) : (n.setWidth 8).setWidth 6 = n := by
  rw [BitVec.setWidth_setWidth_of_le _ (by omega), BitVec.setWidth_eq]

theorem cbLoad_of_ok {e : Entry} (hx : exec (loadOf e) s = .next t) (hok : t.history = s.history ++ [.resp 0]) :
    t.cb = { s.cb with entries := s.cb.entries ++ [e] } := by
  obtain ⟨hne, rfl⟩ | ⟨-, -, rfl⟩ | ⟨-, -, e', -, rfl⟩ | ⟨-, -, -, -, -, rfl⟩ := cbLoad_cases hx
  · exact absurd (status_of_resp_zero hok) hne
  · exact absurd hok raiseErr_not_ok
  · exact absurd hok raiseErr_not_ok
  · simp only [respond_cb, setWidth_len]

/-- Loads answered `OK` throughout append their entries in order. -/
theorem loads_of_ok {es : List Entry} (h : s.Inv) (hrun : runCommands (es.map loadOf) s = .next t)
    (hok : t.responses = s.responses ++ List.replicate es.length 0) :
    t.Inv ∧ t.cb = { s.cb with entries := s.cb.entries ++ es } := by
  induction es generalizing s with
  | nil =>
    cases (runCommands_nil s).symm.trans hrun
    exact ⟨h, by rw [List.append_nil]⟩
  | cons e es ih =>
    obtain ⟨u, hx, hh, hrest, hok'⟩ := storeCommands_ok_cons (isStoreCommand_loads (e :: es)) hrun (by simpa using hok)
    have hu : u.Inv := State.Inv.exec (s := record (.cmd (encode (loadOf e))) s) (h.of_registers rfl rfl rfl rfl) hx
    obtain ⟨hinv, hcb⟩ := ih hu hrest (by simpa using hok')
    rw [cbLoad_of_ok hx hh] at hcb
    exact ⟨hinv, by simpa using hcb⟩

/-- Settles O16: `CB.CLEAR` answered `OK` empties the store, each load answered `OK` appends its entry, and the lookups find
stored entries. -/
theorem loadedCodebookIsHeld : Obligations.LoadedCodebookIsHeld := by
  intro s t es h hrun hok
  obtain ⟨u, hx, hh, hrest, hok'⟩ := storeCommands_ok_cons (i := .cbClear) (is := es.map loadOf)
    (List.forall_mem_cons.2 ⟨.inl rfl, isStoreCommand_loads es⟩) hrun (by simpa using hok)
  have hu : u.Inv := State.Inv.exec (s := record (.cmd (encode .cbClear)) s) (h.of_registers rfl rfl rfl rfl) hx
  obtain ⟨hinv, hcb⟩ := loads_of_ok hu hrest (by simpa using hok')
  rw [cbClear_of_ok hx hh, List.nil_append] at hcb
  refine ⟨by rw [hcb], by rw [hcb], fun e he => ?_⟩
  have hmem : e ∈ t.cb.entries := by rw [hcb]; exact he
  exact ⟨hinv.storeOk.lookupSym_eq hmem, hinv.storeOk.lookupCode_eq hmem⟩

end Sys2Proof.Machine
end

section
/-! SUPPORT. Loading a list of entries that obey rule R33 of 10_state.md into a store they do not conflict with. -/

namespace Sys2Proof.Machine

variable {s : State} {es es' : List Entry}

/-- Rule R33 of a list of entries. -/
structure CodebookOk (es : List Entry) : Prop where
  valid : ∀ e ∈ es, validEntry e.len.toNat e.code = true
  syms : es.Pairwise fun a b => a.sym ≠ b.sym
  prefixFree : es.Pairwise fun a b => codesConflict a.code a.len.toNat b.code b.len.toNat = false

theorem CodebookOk.perm (h : CodebookOk es) (hp : es.Perm es') : CodebookOk es' where
  valid e he := h.valid e (hp.mem_iff.2 he)
  syms := h.syms.perm hp Ne.symm
  prefixFree := h.prefixFree.perm hp fun hab => by rwa [codesConflict_comm]

/-- An entry passes every check of `CB.LOAD` against the entries before it. -/
theorem CodebookOk.loadFailure_eq_none {cb : Codebook} {e : Entry} (h : CodebookOk (cb.entries ++ e :: es)) :
    loadFailure cb e.sym (e.len.setWidth 8) e.code = none := by
  have hlen : (e.len.setWidth 8).toNat = e.len.toNat := BitVec.toNat_setWidth_of_le (by omega)
  obtain ⟨-, -, hsyms⟩ := List.pairwise_append.1 h.syms
  obtain ⟨-, -, hfree⟩ := List.pairwise_append.1 h.prefixFree
  rw [loadFailure_of_valid _ _ (hlen ▸ h.valid e (by simp)), hlen, if_neg, if_neg]
  · simpa [conflictsWithStore] using fun a ha => hfree a ha e List.mem_cons_self
  · rw [lookupSym_isSome_iff]
    rintro ⟨a, ha, heq⟩
    exact hsyms a ha e List.mem_cons_self heq

theorem exec_loadOf {e : Entry} (herr : s.cb.err = 0) (hl : s.cbLocked = false) (h : CodebookOk (s.cb.entries ++ e :: es)) :
    exec (loadOf e) s = .next (respond statusOk 0 (appendEntry e s)) := by
  rw [loadOf, exec_cbLoad_appends herr hl h.loadFailure_eq_none, setWidth_len]

/-- The loads are answered `OK` and append the entries. -/
theorem loads_run (herr : s.cb.err = 0) (hl : s.cbLocked = false) (h : CodebookOk (s.cb.entries ++ es)) :
    ∃ t, runCommands (es.map loadOf) s = .next t ∧ t.responses = s.responses ++ List.replicate es.length 0 ∧
      t.cb = { entries := s.cb.entries ++ es, err := 0 } := by
  induction es generalizing s with
  | nil => exact ⟨s, runCommands_nil s, (List.append_nil _).symm, by rw [List.append_nil, ← herr]⟩
  | cons e es ih =>
    have hx := exec_loadOf (s := record (.cmd (encode (loadOf e))) s) herr hl h
    obtain ⟨t, hrun, hresp, hcb⟩ := ih
      (s := respond statusOk 0 (appendEntry e (record (.cmd (encode (loadOf e))) s))) herr hl
      (by simpa [appendEntry] using h)
    refine ⟨t, (runCommands_cons _ (decode_encode rfl) hx).trans hrun, ?_, ?_⟩
    · rw [hresp, responses_of_answer (r := 0) rfl, List.append_assoc]
      rfl
    · rw [hcb]
      simp [appendEntry]

/-- `CB.CLEAR` and the loads of a legal codebook, from any unlocked store. -/
theorem clear_loads_run (hw : s.w.active = false) (hr : s.r.active = false) (h : CodebookOk es) :
    ∃ t, runCommands (.cbClear :: es.map loadOf) s = .next t ∧
      t.responses = s.responses ++ List.replicate (es.length + 1) 0 ∧ t.cb = { entries := es, err := 0 } := by
  obtain ⟨t, hrun, hresp, hcb⟩ := loads_run (es := es)
    (s := respond statusOk 0 { record (.cmd (encode .cbClear)) s with cb := { entries := [], err := 0 } })
    rfl ((cbLocked_eq_false _).2 ⟨hw, hr⟩) h
  have hx := exec_cbClear_unlocked (s := record (.cmd (encode .cbClear)) s) ((cbLocked_eq_false s).2 ⟨hw, hr⟩)
  refine ⟨t, (runCommands_cons _ (decode_encode rfl) hx).trans hrun, ?_, hcb⟩
  rw [hresp, responses_of_answer (r := 0) rfl, List.append_assoc]
  rfl

end Sys2Proof.Machine
end

section
/-! SUPPORT. The codebook of a tree: its entries' codes are paths, and no path to a leaf goes through another leaf
(47_host_environment.md rules R166, R167). -/

namespace Sys2Proof.HostEnv

variable {a b e : HostEntry} {n c d : Nat} {t : HTree}

/-- The first `n` bits of the entry's code have value `c`. -/
def HostEntry.BeginsWith (e : HostEntry) (n c : Nat) : Prop := n ≤ e.len ∧ e.code >>> (e.len - n) = c

theorem HostEntry.BeginsWith.unique (hc : e.BeginsWith n c) (hd : e.BeginsWith n d) : c = d := hc.2.symm.trans hd.2

theorem HostEntry.BeginsWith.trans (hb : b.BeginsWith a.len a.code) (ha : a.BeginsWith n c) : b.BeginsWith n c := by
  obtain ⟨hab, hcode⟩ := hb
  obtain ⟨hna, hc⟩ := ha
  have hsplit : b.len - n = (b.len - a.len) + (a.len - n) := by omega
  exact ⟨by omega, by rw [hsplit, Nat.shiftRight_add, hcode, hc]⟩

/-- A path to a leaf passes the node one branch higher. -/
theorem HostEntry.BeginsWith.parent (h : e.BeginsWith (n + 1) c) : e.BeginsWith n (c >>> 1) := by
  obtain ⟨hn, hc⟩ := h
  have hsplit : e.len - n = (e.len - (n + 1)) + 1 := by omega
  exact ⟨by omega, by rw [hsplit, Nat.shiftRight_add, hc]⟩

/-- Neither code begins with the other. -/
def HostEntry.Apart (a b : HostEntry) : Prop := ¬ b.BeginsWith a.len a.code ∧ ¬ a.BeginsWith b.len b.code

theorem HostEntry.apart_of_begin_ne (ha : a.BeginsWith n c) (hb : b.BeginsWith n d) (hne : c ≠ d) : a.Apart b :=
  ⟨fun h => hne ((h.trans ha).unique hb), fun h => hne (ha.unique (h.trans hb))⟩

/-- The code value of a right child, and the parent's back from it. -/
theorem right_child (c : Nat) : c <<< 1 ||| 1 = 2 * c + 1 := by
  rw [← Nat.shiftLeft_add_eq_or_of_lt (by omega), Nat.shiftLeft_eq]
  omega

theorem beginsWith_of_mem_traverse (he : e ∈ t.traverse n c) : e.BeginsWith n c := by
  induction t generalizing n c with
  | leaf x f =>
    obtain rfl := List.mem_singleton.1 he
    exact ⟨le_rfl, by simp⟩
  | node l r ihl ihr =>
    rcases List.mem_append.1 he with he | he
    · simpa using (ihl he).parent
    · have := (ihr he).parent
      rwa [right_child, Nat.shiftRight_eq_div_pow, pow_one, show (2 * c + 1) / 2 = c by omega] at this

theorem len_le_of_mem_traverse (he : e ∈ t.traverse n c) : e.len ≤ n + t.depth := by
  induction t generalizing n c with
  | leaf x f =>
    obtain rfl := List.mem_singleton.1 he
    exact le_rfl
  | node l r ihl ihr =>
    rw [HTree.depth]
    rcases List.mem_append.1 he with he | he
    · have := ihl he
      omega
    · have := ihr he
      omega

theorem traverse_syms (t : HTree) (n c : Nat) : (t.traverse n c).map HostEntry.sym = t.syms := by
  induction t generalizing n c with
  | leaf x f => rfl
  | node l r ihl ihr => rw [HTree.traverse, List.map_append, ihl, ihr, HTree.syms]

/-- The paths of a left subtree begin with another bit than those of the right one. -/
theorem traverse_apart (t : HTree) (n c : Nat) : (t.traverse n c).Pairwise HostEntry.Apart := by
  induction t generalizing n c with
  | leaf x f => exact List.pairwise_singleton _ _
  | node l r ihl ihr =>
    refine List.pairwise_append.2 ⟨ihl _ _, ihr _ _, fun a ha b hb => ?_⟩
    refine HostEntry.apart_of_begin_ne (beginsWith_of_mem_traverse ha) (beginsWith_of_mem_traverse hb) ?_
    rw [right_child, Nat.shiftLeft_eq]
    omega

/-! The whole codebook, the lone leaf included. -/

theorem codebook_syms (t : HTree) : t.codebook.map HostEntry.sym = t.syms := by
  cases t with
  | leaf x f => rfl
  | node l r => exact traverse_syms _ 0 0

theorem codebook_apart (t : HTree) : t.codebook.Pairwise HostEntry.Apart := by
  cases t with
  | leaf x f => exact List.pairwise_singleton _ _
  | node l r => exact traverse_apart _ 0 0

theorem codebook_bounds (hd : t.depth ≤ 32) (he : e ∈ t.codebook) : 1 ≤ e.len ∧ e.len ≤ 32 ∧ e.code < 2 ^ e.len := by
  cases t with
  | leaf x f =>
    obtain rfl := List.mem_singleton.1 he
    norm_num
  | node l r =>
    have hlen := len_le_of_mem_traverse he
    obtain ⟨-, hcode⟩ := beginsWith_of_mem_traverse he
    refine ⟨?_, by omega, ?_⟩
    · rcases List.mem_append.1 he with he | he
      · exact (beginsWith_of_mem_traverse he).1
      · exact (beginsWith_of_mem_traverse he).1
    · rw [Nat.shiftRight_eq_div_pow] at hcode
      exact (Nat.div_eq_zero_iff_lt (by positivity)).1 hcode

end Sys2Proof.HostEnv
end

section
/-! SUPPORT. The host's entries as the store holds them, and the load of a tree's codebook (40_codebook_commands.md rule R97). -/

namespace Sys2Proof.Machine

open HostEnv

variable {a b e : HostEntry}

theorem storedEntry_len (h : e.len ≤ 32) : (storedEntry e).len.toNat = e.len := by
  rw [storedEntry, BitVec.toNat_ofNat]
  omega

theorem storedEntry_code (h : e.len ≤ 32) (hc : e.code < 2 ^ e.len) : (storedEntry e).code.toNat = e.code := by
  have := Nat.pow_le_pow_right (n := 2) (by omega) h
  rw [storedEntry, BitVec.toNat_ofNat]
  omega

theorem loadCommand_eq (h : e.len ≤ 32) : loadCommand e = loadOf (storedEntry e) := by
  have hlen : BitVec.ofNat 8 e.len = (BitVec.ofNat 6 e.len).setWidth 8 := by
    apply BitVec.eq_of_toNat_eq
    simp
    omega
  rw [loadCommand, loadOf, storedEntry, hlen]

theorem beginsWith_of_isPrefix (ha : a.len ≤ 32 ∧ a.code < 2 ^ a.len) (hb : b.len ≤ 32 ∧ b.code < 2 ^ b.len)
    (h : isPrefix (storedEntry a).code (storedEntry a).len.toNat (storedEntry b).code (storedEntry b).len.toNat = true) :
    b.BeginsWith a.len a.code := by
  rw [isPrefix, storedEntry_len ha.1, storedEntry_len hb.1, Bool.and_eq_true, decide_eq_true_eq, beq_iff_eq] at h
  obtain ⟨hle, hcode⟩ := h
  have hnat := congrArg BitVec.toNat hcode
  rw [BitVec.toNat_ushiftRight, storedEntry_code ha.1 ha.2, storedEntry_code hb.1 hb.2] at hnat
  exact ⟨hle, hnat⟩

theorem codesConflict_of_apart (ha : a.len ≤ 32 ∧ a.code < 2 ^ a.len) (hb : b.len ≤ 32 ∧ b.code < 2 ^ b.len) (h : a.Apart b) :
    codesConflict (storedEntry a).code (storedEntry a).len.toNat (storedEntry b).code (storedEntry b).len.toNat = false := by
  rw [codesConflict, Bool.or_eq_false_iff, Bool.eq_false_iff, Bool.eq_false_iff]
  exact ⟨fun hp => h.1 (beginsWith_of_isPrefix ha hb hp), fun hp => h.2 (beginsWith_of_isPrefix hb ha hp)⟩

/-- A tree with distinct symbols and depth at most 32 has a legal codebook. -/
theorem codebookOk_of_tree {tree : HTree} (hsyms : tree.syms.Nodup) (hd : tree.depth ≤ 32) :
    CodebookOk (tree.codebook.map storedEntry) where
  valid := by
    refine List.forall_mem_map.2 fun e he => ?_
    obtain ⟨h1, h32, hc⟩ := codebook_bounds hd he
    rw [validEntry_iff, storedEntry_len h32, storedEntry_code h32 hc]
    exact ⟨h1, h32, hc⟩
  syms := by
    rw [← codebook_syms, List.Nodup, List.pairwise_map] at hsyms
    exact List.pairwise_map.2 hsyms
  prefixFree := List.pairwise_map.2 ((codebook_apart tree).imp_of_mem fun ha hb =>
    codesConflict_of_apart (codebook_bounds hd ha).2 (codebook_bounds hd hb).2)

/-- Settles O17: the tree's codebook is legal in any order, and a legal codebook loads. -/
theorem treeCodebookLoads : Obligations.TreeCodebookLoads := by
  intro s tree es _ hw hr hsyms hd hp
  have hloads : buildCommands es = .cbClear :: (es.map storedEntry).map loadOf := by
    rw [buildCommands, List.map_map]
    exact congrArg _ (List.map_congr_left fun e he => loadCommand_eq (codebook_bounds hd (hp.mem_iff.1 he)).2.1)
  have hok := (codebookOk_of_tree hsyms hd).perm (hp.map storedEntry).symm
  rw [hloads]
  simpa using clear_loads_run hw hr hok

end Sys2Proof.Machine
end

section
/-! SUPPORT. Runs of commands that emit nothing, by their answers (30_encoding.md rule R63). -/

namespace Sys2Proof.Machine

variable {s u : State} {i : Instr} {is : List Instr} {r : Word72} {rs : List Word72}

/-- The commands `is` run from `s`, emit nothing and answer `rs`. -/
def RunAnswers (is : List Instr) (rs : List Word72) (s : State) : Prop :=
  ∃ t, runCommands is s = .next t ∧ t.byteOut = s.byteOut ∧ t.symOut = s.symOut ∧ t.responses = s.responses ++ rs

theorem RunAnswers.nil (s : State) : RunAnswers [] [] s :=
  ⟨s, runCommands_nil s, rfl, rfl, (List.append_nil _).symm⟩

theorem RunAnswers.cons (hwf : i.WellFormed) (hx : exec i (record (.cmd (encode i)) s) = .next u)
    (hh : u.history = (record (.cmd (encode i)) s).history ++ [.resp r]) (hrest : RunAnswers is rs u) :
    RunAnswers (i :: is) (r :: rs) s := by
  obtain ⟨t, hrun, hbyte, hsym, hresp⟩ := hrest
  refine ⟨t, (runCommands_cons is (decode_encode hwf) hx).trans hrun, hbyte.trans ?_, hsym.trans ?_, ?_⟩
  · simp [State.byteOut, hh, Event.byte?]
  · simp [State.symOut, hh, Event.sym?]
  · rw [hresp, responses_of_answer hh, List.append_assoc, List.singleton_append]

end Sys2Proof.Machine
end

section
/-! SUPPORT. A decode with an empty store: no bit is ever matched, so three bytes are held and the fourth fills the accumulator
(40_codebook_commands.md rule R98, 42_reader_commands.md rules R131, R133). -/

namespace Sys2Proof.Machine

variable {s t : State} {j : Nat} {b x : Byte} {n : Count}

/-! The commands of rule R98 on the path they take. -/

theorem exec_encInit_ok (herr : s.cb.err = 0) : exec .encInit s = .next (respond statusOk 0 { s with w := freshWriter }) := by
  rw [exec, execEncInit, if_neg (not_not.2 herr)]

theorem exec_decInit_ok (herr : s.cb.err = 0) :
    exec (.decInit n) s = .next (respond statusOk (flagData (n == 0)) { s with r := freshReader n }) := by
  rw [exec, execDecInit, if_neg (not_not.2 herr)]

theorem exec_encSym_unknown (herr : s.w.err = 0) (ha : s.w.active = true) (hx : lookupSym s.cb x = none) :
    exec (.encSym x) s = .next (raiseErr .noSymbol s) := by
  rw [exec, execEncSym, if_neg (not_not.2 herr), if_neg (by simp [ha]), hx]

theorem exec_decByte_folds (herr : s.r.err = 0) (ha : s.r.active = true) (hd : s.r.done = false)
    (hf : foldBits (bitsMsb 8 b) s = (t, none)) : exec (.decByte b) s = .next (respond statusOk (flagData t.r.done) t) := by
  rw [exec, execDecByte, if_neg (not_not.2 herr), if_neg (by simp [ha]), if_neg (by simp [hd]), hf]

theorem exec_decByte_raises {e : Err} (herr : s.r.err = 0) (ha : s.r.active = true) (hd : s.r.done = false)
    (hf : foldBits (bitsMsb 8 b) s = (t, some e)) : exec (.decByte b) s = .next (raiseErr e t) := by
  rw [exec, execDecByte, if_neg (not_not.2 herr), if_neg (by simp [ha]), if_neg (by simp [hd]), hf]

theorem exec_decEnd_truncated (herr : s.r.err = 0) (ha : s.r.active = true) (hd : s.r.done = false) :
    exec .decEnd s = .next (raiseErr .truncated s) := by
  rw [exec, execDecEnd, if_neg (not_not.2 herr), if_neg (by simp [ha]), if_pos hd]

theorem exec_decEnd_done (herr : s.r.err = 0) (ha : s.r.active = true) (hd : s.r.done = true)
    (hn : s.r.bits = n) : exec .decEnd s = .next (respond statusOk n { s with r := { s.r with active := false } }) := by
  rw [exec, execDecEnd, if_neg (not_not.2 herr), if_neg (by simp [ha]), if_neg (by simp [hd]), hn]

/-- A decode that is reading, with an empty store: every bit of the `j` bytes taken is held. -/
structure EmptyReading (j : Nat) (s : State) : Prop where
  room : j < 4
  inv : s.Inv
  empty : s.cb.entries = []
  active : s.r.active = true
  noErr : s.r.err = 0
  notDone : s.r.done = false
  cnt : s.r.cnt.toNat = 8 * j
  bits : s.r.bits.toNat = 8 * j

/-- Where a decode with an empty store stands after `j` bytes. -/
def EmptyDecode (j : Nat) (s : State) : Prop := EmptyReading j s ∨ (4 ≤ j ∧ s.r.err = 0x0B)

theorem EmptyReading.record (h : EmptyReading j s) (e : Event) : EmptyReading j (record e s) :=
  { h with inv := h.inv.of_registers rfl rfl rfl rfl }

/-- No code begins anything, so all eight bits are held, unless they fill the accumulator. -/
theorem EmptyReading.foldBits_eq (h : EmptyReading j s) (b : Byte) :
    foldBits (bitsMsb 8 b) s =
      if j < 3 then (afterParse s [] 8 (heldBits s.r ++ bitsMsb 8 b), none)
      else (afterParse s [] (32 - 8 * j) ((heldBits s.r ++ bitsMsb 8 b).take 32), some .noMatch) := by
  have hroom := h.room
  have hready := h.inv.parseReady h.active h.noErr h.notDone
  have hfold := foldBits_continues hready (bitsMsb 8 b) [] (heldBits s.r ++ bitsMsb 8 b) (by simp) (by simp)
    (by rw [h.bits, length_bitsMsb]; omega) (by simpa using hready.notDone) (by simp [h.empty])
  rw [hfold]
  refine if_congr ?_ ?_ ?_
  · rw [List.length_append, length_heldBits, length_bitsMsb, h.cnt]
    omega
  · rw [length_bitsMsb]
  · rw [h.cnt]
    simp

/-- The answer to the byte after `j` others. -/
def emptyByteAnswer (j : Nat) : Word72 := if j < 3 then 0 else 0x0B#8 ++ 0#64

/-- The answer to `DEC.END` after `j` bytes. -/
def emptyEndAnswer (j : Nat) : Word72 := if j < 4 then 0x0C#8 ++ 0#64 else 0x0B#8 ++ 0#64

/-- The first three bytes are held. -/
theorem EmptyReading.decByte_holds (h : EmptyReading j s) (hj : j < 3) (b : Byte) :
    ∃ t, exec (.decByte b) s = .next t ∧ EmptyReading (j + 1) t ∧ t.history = s.history ++ [.resp 0] := by
  have hfold := h.foldBits_eq b
  rw [if_pos hj] at hfold
  have hx := exec_decByte_folds h.noErr h.active h.notDone hfold
  have hdone : (afterParse s [] 8 (heldBits s.r ++ bitsMsb 8 b)).r.done = false := by
    simpa [afterParse, withHeld, Reader.done] using h.notDone
  refine ⟨_, hx, ⟨by omega, h.inv.exec hx, h.empty, h.active, h.noErr, hdone, ?_, ?_⟩, ?_⟩
  · simp [afterParse, withHeld, h.cnt]
    omega
  · simp [afterParse, h.bits]
    omega
  · rw [respond_history, hdone]
    simp [afterParse]
    rfl

/-- The fourth byte fills the accumulator. -/
theorem EmptyReading.decByte_fails (h : EmptyReading j s) (hj : ¬ j < 3) (b : Byte) :
    ∃ t, exec (.decByte b) s = .next t ∧ t.r.err = 0x0B ∧ t.history = s.history ++ [.resp (0x0B#8 ++ 0#64)] := by
  have hfold := h.foldBits_eq b
  rw [if_neg hj] at hfold
  refine ⟨_, exec_decByte_raises h.noErr h.active h.notDone hfold, rfl, ?_⟩
  rw [raiseErr_history]
  simp [afterParse]
  rfl

theorem EmptyDecode.decByte (h : EmptyDecode j s) (b : Byte) (e : Event) :
    ∃ t, exec (.decByte b) (Machine.record e s) = .next t ∧ EmptyDecode (j + 1) t ∧
      t.history = (Machine.record e s).history ++ [.resp (emptyByteAnswer j)] := by
  obtain h | ⟨hj, herr⟩ := h
  · have hr := h.record e
    by_cases hj : j < 3
    · obtain ⟨t, hx, ht, hh⟩ := hr.decByte_holds hj b
      exact ⟨t, hx, .inl ht, by rwa [emptyByteAnswer, if_pos hj]⟩
    · obtain ⟨t, hx, ht, hh⟩ := hr.decByte_fails hj b
      exact ⟨t, hx, .inr ⟨by omega, ht⟩, by rwa [emptyByteAnswer, if_neg hj]⟩
  · have hlatch : refusingLatch (Machine.record e s) (.decByte b) = 0x0B := herr
    have hx := exec_of_latched (s := Machine.record e s) (i := .decByte b) (by rw [hlatch]; decide)
    rw [hlatch] at hx
    exact ⟨_, hx, .inr ⟨by omega, herr⟩, by rw [emptyByteAnswer, if_neg (by omega)]; rfl⟩

theorem EmptyDecode.decEnd (h : EmptyDecode j s) (e : Event) :
    ∃ t, exec .decEnd (Machine.record e s) = .next t ∧
      t.history = (Machine.record e s).history ++ [.resp (emptyEndAnswer j)] := by
  obtain h | ⟨hj, herr⟩ := h
  · refine ⟨_, exec_decEnd_truncated (s := Machine.record e s) h.noErr h.active h.notDone, ?_⟩
    rw [raiseErr_history, emptyEndAnswer, if_pos h.room]
    rfl
  · have hlatch : refusingLatch (Machine.record e s) .decEnd = 0x0B := herr
    have hx := exec_of_latched (s := Machine.record e s) (i := .decEnd) (by rw [hlatch]; decide)
    rw [hlatch] at hx
    exact ⟨_, hx, by rw [emptyEndAnswer, if_neg (by omega)]; rfl⟩

/-- The rest of a decode with an empty store, from its `j`-th byte on. -/
theorem EmptyDecode.run (h : EmptyDecode j s) (bytes : List Byte) :
    RunAnswers (bytes.map .decByte ++ [.decEnd])
      ((List.range bytes.length).map (fun k => emptyByteAnswer (j + k)) ++ [emptyEndAnswer (j + bytes.length)]) s := by
  induction bytes generalizing s j with
  | nil =>
    obtain ⟨t, hx, hh⟩ := h.decEnd (.cmd (encode .decEnd))
    exact .cons rfl hx hh (.nil t)
  | cons b bytes ih =>
    obtain ⟨t, hx, ht, hh⟩ := h.decByte b (.cmd (encode (.decByte b)))
    have hrest := RunAnswers.cons (i := .decByte b) rfl hx hh (ih ht)
    simpa [List.range_succ_eq_map, Function.comp_def, Nat.add_assoc, Nat.add_comm 1] using hrest

/-- Settles O18: with no entry every symbol is unknown, a decode of length 0 is done at once, and any other decode holds its
bits until the accumulator is full. -/
theorem emptyCodebookIsValid : Obligations.EmptyCodebookIsValid := by
  intro s h hempty herr
  refine ⟨fun x => ?_, ?_, fun n bytes hn => ?_⟩
  · have hunknown : lookupSym s.cb x = none := lookupSym_none.2 (by simp [hempty])
    obtain ⟨t, hrun, hbyte, -, hresp⟩ := RunAnswers.cons (s := s) (i := .encInit) (r := 0) rfl (exec_encInit_ok herr) rfl
      (.cons (i := .encSym x) rfl (exec_encSym_unknown rfl rfl hunknown) (raiseErr_history .noSymbol _) (.nil _))
    exact ⟨t, hrun, hresp, hbyte⟩
  · obtain ⟨t, hrun, -, -, hresp⟩ := RunAnswers.cons (s := s) (i := .decInit 0) rfl (exec_decInit_ok herr) rfl
      (.cons (i := .decEnd) (r := 0) rfl (exec_decEnd_done (n := 0) rfl rfl rfl rfl) rfl (.nil _))
    exact ⟨t, hrun, hresp⟩
  · have hx := exec_decInit_ok (s := record (.cmd (encode (.decInit n))) s) (n := n) herr
    have hne : (n == 0) = false := by simpa using hn
    rw [hne] at hx
    have hread : EmptyReading 0 (respond statusOk (flagData false)
        { record (.cmd (encode (.decInit n))) s with r := freshReader n }) :=
      ⟨by omega, State.Inv.exec (s := record (.cmd (encode (.decInit n))) s) (h.of_registers rfl rfl rfl rfl) hx, hempty, rfl,
        rfl, by simpa [freshReader, Reader.done] using Ne.symm hn, rfl, rfl⟩
    obtain ⟨t, hrun, -, hsym, hresp⟩ := RunAnswers.cons (r := 0) rfl hx rfl (EmptyDecode.run (.inl hread) bytes)
    refine ⟨t, hrun, hsym, ?_⟩
    simpa [emptyByteAnswer, emptyEndAnswer] using hresp

end Sys2Proof.Machine
end

section
/-! SUPPORT. The order of the entries in the store: the lookups and the checks do not see it, and no operation of the writer or the
reader does (40_codebook_commands.md rule R90). -/

namespace Sys2Proof.Machine

variable {cb : Codebook} {es : List Entry} {s t : State} {i : Instr}

/-! The lookups and the checks in a permuted store. -/

theorem StoreOk.perm (h : StoreOk cb) (hp : es.Perm cb.entries) : StoreOk { cb with entries := es } where
  bounds e he := h.bounds e (hp.mem_iff.1 he)
  unique a ha b hb := h.unique a (hp.mem_iff.1 ha) b (hp.mem_iff.1 hb)
  syms a ha b hb := h.syms a (hp.mem_iff.1 ha) b (hp.mem_iff.1 hb)

theorem StoreOk.lookupSym_perm (h : StoreOk cb) (hp : es.Perm cb.entries) (x : Byte) :
    lookupSym { cb with entries := es } x = lookupSym cb x := by
  ext e
  rw [(h.perm hp).lookupSym_iff, h.lookupSym_iff, hp.mem_iff]

theorem StoreOk.lookupCode_perm (h : StoreOk cb) (hp : es.Perm cb.entries) (v : CodeWord) (n : BitVec 6) :
    lookupCode { cb with entries := es } v n = lookupCode cb v n := by
  ext e
  rw [(h.perm hp).lookupCode_iff, h.lookupCode_iff, hp.mem_iff]

theorem StoreOk.loadFailure_perm (h : StoreOk cb) (hp : es.Perm cb.entries) (sym : Byte) (len : BitVec 8) (code : CodeWord) :
    loadFailure { cb with entries := es } sym len code = loadFailure cb sym len code := by
  rw [loadFailure, loadFailure, h.lookupSym_perm hp, conflictsWithStore, hp.any_eq, conflictsWithStore]

/-! The operations in a state with another list of entries. -/

/-- The state `s` with the entries `es` in its store. -/
def withStore (es : List Entry) (s : State) : State := { s with cb := { s.cb with entries := es } }

theorem raiseErr_withStore (es : List Entry) (e : Err) (s : State) :
    raiseErr e (withStore es s) = withStore es (raiseErr e s) := by
  cases e with
  | countOverflow unit => cases unit <;> rfl
  | _ => rfl

/-- No error touches the stored entries. -/
theorem raiseErr_entries (e : Err) (s : State) : (raiseErr e s).cb.entries = s.cb.entries := by
  cases e with
  | countOverflow unit => cases unit <;> rfl
  | _ => rfl

theorem appendCode_withStore (h : s.w.acc.toNat < 2 ^ s.w.cnt.toNat) (es : List Entry) (e : Entry) :
    appendCode e (withStore es s) = withStore es (appendCode e s) := by
  rw [appendCode_eq h, appendCode_eq (s := withStore es s) h]
  rfl

theorem flushPending_withStore (es : List Entry) (s : State) :
    flushPending (withStore es s) = withStore es (flushPending s) := by
  rw [flushPending, flushPending, apply_ite (withStore es)]
  rfl

theorem foldBit_withStore (hlook : ∀ v n, lookupCode (withStore es s).cb v n = lookupCode s.cb v n) (b : Bool) :
    foldBit b (withStore es s) = (withStore es (foldBit b s).1, (foldBit b s).2) := by
  have hr : (withStore es s).r = s.r := rfl
  simp only [foldBit, hlook, hr]
  split
  · rfl
  · split
    · rfl
    · split <;> rfl

theorem foldBits_withStore (bits : List Bool) (hlook : ∀ v n, lookupCode (withStore es s).cb v n = lookupCode s.cb v n) :
    foldBits bits (withStore es s) = (withStore es (foldBits bits s).1, (foldBits bits s).2) := by
  induction bits generalizing s with
  | nil => rfl
  | cons b bs ih =>
    have hr : (withStore es s).r = s.r := rfl
    simp only [foldBits, hr, foldBit_withStore hlook]
    split
    · rfl
    · rcases hf : foldBit b s with ⟨s', _ | e⟩
      · have hcb : s'.cb = s.cb := by simpa only [hf] using foldBit_cb b s
        exact ih (by rw [withStore, hcb]; exact hlook)
      · rfl

/-! The commands. -/

theorem statusRegister_withStore (hlen : es.length = s.cb.entries.length) (reg : BitVec 4) :
    statusRegister (withStore es s) reg = statusRegister s reg := by
  have hn : (withStore es s).cbN = s.cbN := hlen
  simp only [statusRegister, hn]
  rfl

/-- A writer command finds its symbol in a permuted store. -/
theorem writer_withStore (h : s.Inv) (hp : es.Perm s.cb.entries) (hi : i = .encInit ∨ (∃ x, i = .encSym x) ∨ i = .encFlush)
    (hx : exec i s = .next t) : exec i (withStore es s) = .next (withStore es t) := by
  have hcb : (withStore es s).cb.err = s.cb.err := rfl
  have hw : (withStore es s).w = s.w := rfl
  obtain rfl | ⟨x, rfl⟩ | rfl := hi
  · cases hx
    simp only [exec, execEncInit, hcb]
    split
    · rw [raiseErr_withStore]
    · rfl
  · cases hx
    have hl : lookupSym (withStore es s).cb x = lookupSym s.cb x := h.storeOk.lookupSym_perm hp x
    simp only [exec, execEncSym, hw, hl, raiseErr_withStore, appendCode_withStore h.wAccFits]
    split
    · rfl
    · split
      · rfl
      · split
        · rfl
        · split <;> rfl
  · cases hx
    simp only [exec, execEncFlush, hw, raiseErr_withStore, flushPending_withStore]
    split
    · rfl
    · split <;> rfl

/-- A reader command finds its codes in a permuted store. -/
theorem reader_withStore (h : s.Inv) (hp : es.Perm s.cb.entries)
    (hi : (∃ n, i = .decInit n) ∨ (∃ b, i = .decByte b) ∨ i = .decEnd) (hx : exec i s = .next t) :
    exec i (withStore es s) = .next (withStore es t) := by
  have hcb : (withStore es s).cb.err = s.cb.err := rfl
  have hr : (withStore es s).r = s.r := rfl
  obtain ⟨n, rfl⟩ | ⟨b, rfl⟩ | rfl := hi
  · cases hx
    simp only [exec, execDecInit, hcb, raiseErr_withStore]
    split <;> rfl
  · cases hx
    have hf := foldBits_withStore (bitsMsb 8 b) (h.storeOk.lookupCode_perm hp)
    simp only [exec, execDecByte, hr, hf, raiseErr_withStore]
    split
    · rfl
    · split
      · rfl
      · split
        · rfl
        · rcases foldBits (bitsMsb 8 b) s with ⟨s', _ | e⟩
          · rfl
          · exact congrArg _ (raiseErr_withStore es e s')
  · cases hx
    simp only [exec, execDecEnd, hr, raiseErr_withStore]
    split
    · rfl
    · split
      · rfl
      · split <;> rfl

theorem statGet_withStore (hp : es.Perm s.cb.entries) {reg : BitVec 4} (hx : exec (.statGet reg) s = .next t) :
    exec (.statGet reg) (withStore es s) = .next (withStore es t) := by
  cases hx
  simp only [exec, execStatGet, illegalCommand, statusRegister_withStore hp.length_eq, raiseErr_withStore]
  split <;> rfl

/-- `CB.CLEAR` is refused or empties the store, whatever its order. -/
theorem cbClear_withStore (hp : es.Perm s.cb.entries) (hx : exec .cbClear s = .next t) :
    ∃ es', es'.Perm t.cb.entries ∧ exec .cbClear (withStore es s) = .next (withStore es' t) := by
  obtain ⟨hl, rfl⟩ | ⟨hl, rfl⟩ := cbClear_cases hx
  · exact ⟨es, hp, exec_cbClear_locked hl⟩
  · exact ⟨[], .nil, exec_cbClear_unlocked hl⟩

/-- A `CB.LOAD` fails the same check, or appends its entry, whatever the order of the store. -/
theorem cbLoad_withStore (h : s.Inv) (hp : es.Perm s.cb.entries) {sym : Byte} {len : BitVec 8} {code : CodeWord}
    (hx : exec (.cbLoad sym len code) s = .next t) :
    ∃ es', es'.Perm t.cb.entries ∧ exec (.cbLoad sym len code) (withStore es s) = .next (withStore es' t) := by
  by_cases herr : s.cb.err = 0
  · cases hl : s.cbLocked with
    | true =>
      cases (exec_cbLoad_locked herr hl).symm.trans hx
      exact ⟨es, hp, exec_cbLoad_locked (s := withStore es s) herr hl⟩
    | false =>
      have hf : loadFailure (withStore es s).cb sym len code = loadFailure s.cb sym len code :=
        h.storeOk.loadFailure_perm hp sym len code
      cases hc : loadFailure s.cb sym len code with
      | none =>
        cases (exec_cbLoad_appends herr hl hc).symm.trans hx
        exact ⟨es ++ [_], hp.append_right _, exec_cbLoad_appends herr hl (hf.trans hc)⟩
      | some e =>
        cases (exec_cbLoad_fails herr hl hc).symm.trans hx
        rw [exec_cbLoad_fails (s := withStore es s) herr hl (hf.trans hc), raiseErr_withStore]
        exact ⟨es, by rwa [raiseErr_entries], rfl⟩
  · cases (exec_of_latched (i := .cbLoad sym len code) herr).symm.trans hx
    exact ⟨es, hp, exec_of_latched (s := withStore es s) (i := .cbLoad sym len code) herr⟩

/-- Every command in a permuted store does the same, up to the order of the store. -/
theorem exec_withStore (h : s.Inv) (hp : es.Perm s.cb.entries) (hx : exec i s = .next t) :
    ∃ es', es'.Perm t.cb.entries ∧ exec i (withStore es s) = .next (withStore es' t) := by
  cases i with
  | cbClear => exact cbClear_withStore hp hx
  | cbLoad => exact cbLoad_withStore h hp hx
  | encInit | encSym | encFlush =>
    have hcb := (writer_frame (by simp) hx).1
    exact ⟨es, hcb ▸ hp, writer_withStore h hp (by simp) hx⟩
  | decInit | decByte | decEnd =>
    have hcb := (reader_frame (by simp) hx).1
    exact ⟨es, hcb ▸ hp, reader_withStore h hp (by simp) hx⟩
  | statGet =>
    have hcb := (statGet_frame hx).1
    exact ⟨es, hcb ▸ hp, statGet_withStore hp hx⟩
  | sreset =>
    cases sreset_cases hx
    exact ⟨[], .nil, rfl⟩

/-- Settles O12, by what every command does in a permuted store. -/
theorem storeOrderHasNoEffect : Obligations.StoreOrderHasNoEffect := by
  intro i s t u es h hp hx hy
  obtain ⟨es', hp', hx'⟩ := exec_withStore h hp hx
  cases hx'.symm.trans hy
  exact ⟨hp', rfl⟩

end Sys2Proof.Machine
end

section
/-! SUPPORT. The writer's one-bit step, and `ENC.INIT` and `ENC.FLUSH`, as whole states (41_writer_commands.md rules R111, R112,
R114). -/

namespace Sys2Proof.Machine

variable {s : State}

/-- The accumulator with one more bit at the low end, as a number: at most 7 pending bits leave it room. -/
theorem shiftIn_eq_ofNat {acc : BitVec 8} {cnt : BitVec 3} (h : acc.toNat < 2 ^ cnt.toNat) (b : Bool) :
    (acc <<< 1) ||| (BitVec.ofBool b).setWidth 8 = BitVec.ofNat 8 (2 * acc.toNat + b.toNat) := by
  have hcnt := cnt.isLt
  have hb := b.toNat_lt
  have hpow : 2 ^ cnt.toNat ≤ 2 ^ 7 := Nat.pow_le_pow_right (by omega) (by omega)
  apply BitVec.eq_of_toNat_eq
  rw [toNat_shift_in acc b (by omega) (by omega), BitVec.toNat_ofNat, Nat.mod_eq_of_lt (by omega)]

/-- Settles O20, by the two branches of `AppendBit`. -/
theorem appendBitShiftsIn : Obligations.AppendBitShiftsIn := by
  intro b s h
  refine ⟨fun h7 => ?_, fun h7 => ⟨?_, ?_, ?_⟩⟩
  · rw [appendBit, if_pos h7, shiftIn_eq_ofNat h]
    rfl
  · have hcnt : s.w.cnt + 1 = BitVec.ofNat 3 (s.w.cnt.toNat + 1) := by bv_omega
    rw [appendBit, if_neg h7, shiftIn_eq_ofNat h, hcnt]
  · bv_omega
  · have hb := b.toNat_lt
    rw [pow_succ]
    omega

theorem exec_encInit_invalid (herr : s.cb.err ≠ 0) : exec .encInit s = .next (raiseErr .cbInvalid s) := by
  rw [exec, execEncInit, if_pos herr]

/-- Settles O21, by the two cases of `CB_ERR`. -/
theorem encInitMakesFreshWriter : Obligations.EncInitMakesFreshWriter :=
  ⟨decode_encode (i := .encInit) rfl, fun _ => ⟨exec_encInit_ok, exec_encInit_invalid⟩⟩

theorem exec_encFlush_idle (herr : s.w.err = 0) (ha : s.w.active = false) :
    exec .encFlush s = .next (raiseErr .notActive s) := by
  rw [exec, execEncFlush, if_neg (not_not.2 herr), if_pos ha]

/-- The state part of `ENC.FLUSH` in an active writer. -/
def flushEncode (s : State) : State := { flushPending s with w := { (flushPending s).w with active := false } }

theorem exec_encFlush_active (herr : s.w.err = 0) (ha : s.w.active = true) :
    exec .encFlush s = .next (respond statusOk s.w.total (flushEncode s)) := by
  rw [exec, execEncFlush, if_neg (not_not.2 herr), if_neg (by simp [ha]), flushEncode]

theorem flushEncode_of_empty (h : s.w.cnt = 0) : flushEncode s = { s with w := { s.w with active := false } } := by
  rw [flushEncode, flushPending, if_pos h]

theorem flushEncode_of_pending (h : s.w.cnt ≠ 0) :
    flushEncode s = emitByte (flushByte s.w) { s with w := { s.w with active := false, acc := 0, cnt := 0 } } := by
  rw [flushEncode, flushPending, if_neg h]
  rfl

/-- The pending bits at the top of a byte, as a number. -/
theorem flushByte_eq_ofNat (w : Writer) : flushByte w = BitVec.ofNat 8 (w.acc.toNat * 2 ^ (8 - w.cnt.toNat)) := by
  apply BitVec.eq_of_toNat_eq
  rw [flushByte, BitVec.toNat_shiftLeft, Nat.shiftLeft_eq, BitVec.toNat_ofNat]

/-- Settles O23, by the latch, the idle writer and the two cases of the pending bits. -/
theorem encFlushPadsAndEnds : Obligations.EncFlushPadsAndEnds := by
  refine ⟨decode_encode (i := .encFlush) rfl, fun s => ⟨fun hne => ?_, fun herr ha => ?_, fun herr ha h0 => ?_,
    fun herr ha h0 => ?_⟩⟩
  · exact exec_of_latched (i := .encFlush) hne
  · exact exec_encFlush_idle herr ha
  · rw [exec_encFlush_active herr ha, flushEncode_of_empty h0]
    rfl
  · rw [exec_encFlush_active herr ha, flushEncode_of_pending h0, flushByte_eq_ofNat]
    exact congrArg _ (State.ext_parts rfl rfl rfl rfl (List.append_assoc _ _ _) rfl)

end Sys2Proof.Machine
end

section
/-! SUPPORT. `ENC.SYM` as whole states: its errors in order, and the closed form of the code it packs (41_writer_commands.md rule
R113). -/

namespace Sys2Proof.Machine

variable {s : State} {x : Byte} {e : Entry}

theorem exec_encSym_idle (herr : s.w.err = 0) (ha : s.w.active = false) :
    exec (.encSym x) s = .next (raiseErr .notActive s) := by
  rw [exec, execEncSym, if_neg (not_not.2 herr), if_pos ha]

theorem exec_encSym_overflows (herr : s.w.err = 0) (ha : s.w.active = true) (hx : lookupSym s.cb x = some e)
    (hbig : s.w.total.toNat + e.len.toNat > 2 ^ 64 - 1) :
    exec (.encSym x) s = .next (raiseErr (.countOverflow .writer) s) := by
  simp only [exec, execEncSym, herr, ha, hx, hbig, ne_eq, not_true_eq_false, if_false, if_true, Bool.true_eq_false]

theorem exec_encSym_appends (herr : s.w.err = 0) (ha : s.w.active = true) (hx : lookupSym s.cb x = some e)
    (hle : s.w.total.toNat + e.len.toNat ≤ 2 ^ 64 - 1) :
    exec (.encSym x) s = .next (respond statusOk 0 (appendCode e s)) := by
  simp only [exec, execEncSym, herr, ha, hx, not_lt.2 hle, ne_eq, not_true_eq_false, if_false, Bool.true_eq_false]

/-- Rule R113's V: the pending bits followed by the code, as one number. -/
theorem bitsValue_pending_code (hacc : s.w.acc.toNat < 2 ^ s.w.cnt.toNat) (hcode : e.code.toNat < 2 ^ e.len.toNat) :
    bitsValue (pendingBits s.w ++ entryBits e) = (s.w.acc.toNat <<< e.len.toNat) ||| e.code.toNat := by
  rw [bitsValue_append, pendingBits, entryBits, bitsValue_bitsMsb, bitsValue_bitsMsb, length_bitsMsb,
    Nat.mod_eq_of_lt hacc, Nat.mod_eq_of_lt hcode, ← Nat.shiftLeft_add_eq_or_of_lt hcode, Nat.shiftLeft_eq]

/-- The sum of the count and a length as a number, narrowed to the register. -/
theorem total_add_len (total : Count) (n : BitVec 6) :
    total + n.setWidth 64 = BitVec.ofNat 64 (total.toNat + n.toNat) := by
  bv_omega

/-- The append of a code in rule R113's closed form. -/
theorem appendCode_closed (hacc : s.w.acc.toNat < 2 ^ s.w.cnt.toNat) (hcode : e.code.toNat < 2 ^ e.len.toNat) :
    let c := s.w.cnt.toNat
    let n := e.len.toNat
    let v := (s.w.acc.toNat <<< n) ||| e.code.toNat
    appendCode e s = { s with
      w := { s.w with
        acc := BitVec.ofNat 8 (v % 2 ^ ((c + n) % 8))
        cnt := BitVec.ofNat 3 ((c + n) % 8)
        total := BitVec.ofNat 64 (s.w.total.toNat + n) }
      history := s.history ++
        (List.range ((c + n) / 8)).map fun j => .outByte (BitVec.ofNat 8 (v >>> (c + n - 8 * (j + 1)))) } := by
  have hlen : (pendingBits s.w ++ entryBits e).length = s.w.cnt.toNat + e.len.toNat := by simp
  rw [appendCode_eq hacc, withPending, leftover_value, length_leftover, wholeBytes_value, hlen,
    bitsValue_pending_code hacc hcode, total_add_len, List.map_map]
  rfl

/-- Settles O22: each error by the branch that raises it, the packed code by the closed form of the append. -/
theorem encSymPacksTheCode : Obligations.EncSymPacksTheCode := by
  refine ⟨fun x => decode_encode (i := .encSym x) rfl, fun s x h => ⟨fun hne => ?_, fun herr ha => ?_, fun herr ha hx => ?_, ?_⟩⟩
  · exact exec_of_latched (i := .encSym x) hne
  · exact exec_encSym_idle herr ha
  · exact exec_encSym_unknown herr ha (lookupSym_none.2 hx)
  · rintro e he rfl herr ha
    have hfound := h.storeOk.lookupSym_eq he
    obtain ⟨-, -, hcode⟩ := h.storeOk.bounds e he
    refine ⟨fun hbig => exec_encSym_overflows herr ha hfound hbig, fun hle => ?_⟩
    rw [exec_encSym_appends herr ha hfound hle, appendCode_closed h.wAccFits hcode]
    rfl

end Sys2Proof.Machine
end

section
/-! SUPPORT. The bits of the log that the writer commands set (41_writer_commands.md rules R112 to R114). -/

namespace Sys2Proof.Machine

variable {i : Instr} {s t : State}

/-- The errors that the writer commands raise. -/
def writerErrors : List Err := [.cbInvalid, .notActive, .noSymbol, .countOverflow .writer]

theorem code_of_writerError {e : Err} (he : e ∈ writerErrors) :
    e.code.toNat = 8 ∨ e.code.toNat = 9 ∨ e.code.toNat = 10 ∨ e.code.toNat = 14 := by
  fin_cases he <;> decide

/-- The writer commands answer with `OK`, a latched error, or a raise, and log the last. -/
theorem writer_faultLog (hi : i = .encInit ∨ (∃ x, i = .encSym x) ∨ i = .encFlush) (hx : exec i s = .next t) :
    t.faultLog = s.faultLog ∨ ∃ e ∈ writerErrors, t.faultLog = s.faultLog ||| (1#16 <<< e.code.toNat) := by
  obtain rfl | ⟨x, rfl⟩ | rfl := hi
  · obtain ⟨-, rfl⟩ | ⟨-, rfl⟩ := encInit_cases hx
    · exact .inr ⟨.cbInvalid, by simp [writerErrors], raiseErr_faultLog _ s⟩
    · exact .inl rfl
  · obtain ⟨-, rfl⟩ | ⟨-, -, rfl⟩ | ⟨-, -, -, rfl⟩ | ⟨-, -, e, -, -, -, ⟨-, rfl⟩ | ⟨-, rfl⟩⟩ := encSym_cases hx
    · exact .inl rfl
    · exact .inr ⟨.notActive, by simp [writerErrors], raiseErr_faultLog _ s⟩
    · exact .inr ⟨.noSymbol, by simp [writerErrors], raiseErr_faultLog _ s⟩
    · exact .inr ⟨.countOverflow .writer, by simp [writerErrors], raiseErr_faultLog _ s⟩
    · obtain ⟨-, -, hlog, -⟩ := appendBits_frame (entryBits e) s
      exact .inl hlog
  · obtain ⟨-, rfl⟩ | ⟨-, -, rfl⟩ | ⟨-, -, -, rfl⟩ | ⟨-, -, -, rfl⟩ := encFlush_cases hx
    · exact .inl rfl
    · exact .inr ⟨.notActive, by simp [writerErrors], raiseErr_faultLog _ s⟩
    · exact .inl rfl
    · exact .inl rfl

/-- The views of the history after bytes and one response. -/
theorem views_of_bytes {bytes : List Byte} {r : Word72} (hh : t.history = s.history ++ (bytes.map .outByte ++ [.resp r])) :
    t.byteOut = s.byteOut ++ bytes ∧ t.symOut = s.symOut ∧ t.responses = s.responses ++ [r] := by
  simp [State.byteOut, State.symOut, State.responses, hh, Event.byte?, Event.sym?, Event.resp?, Function.comp_def]

/-- Settles O26: the only events are bytes and a response, and a logged bit is the number of a writer error. -/
theorem writerCommandsFrame : Obligations.WriterCommandsFrame := by
  intro i s t hi hx
  obtain ⟨hcb, hr, bytes, w, hh⟩ := writer_frame hi hx
  obtain ⟨hbyte, hsym, -⟩ := views_of_bytes hh
  refine ⟨hcb, hr, hsym, exec_hostIn hx, ⟨bytes, hbyte.symm⟩, fun k h8 h9 h10 h14 => ?_⟩
  obtain hlog | ⟨e, he, hlog⟩ := writer_faultLog hi hx
  · rw [hlog]
  · have hcode := code_of_writerError he
    rw [hlog, getLsbD_log, decide_eq_false (by omega), Bool.or_false]

end Sys2Proof.Machine
end

section
/-! SUPPORT. An encode in progress: what has left the writer and what is pending, on the bit string of the message so far
(30_encoding.md rules R66, R67; 41_writer_commands.md rule R115). -/

namespace Sys2Proof.Machine

variable {s u t : State} {bits : List Bool} {n : Nat} {x : Byte} {m : List Byte} {e : Entry}

/-- From `s` an encode came to `u` by `n` commands answered `OK`, with `bits` appended: their whole bytes have left, the rest is
pending. -/
structure Encoding (s : State) (bits : List Bool) (n : Nat) (u : State) : Prop where
  inv : u.Inv
  active : u.w.active = true
  noErr : u.w.err = 0
  pending : pendingBits u.w = leftover bits
  total : u.w.total.toNat = bits.length
  byteOut : u.byteOut = s.byteOut ++ wholeBytes bits
  responses : u.responses = s.responses ++ List.replicate n 0
  cb : u.cb = s.cb
  r : u.r = s.r
  symOut : u.symOut = s.symOut
  faultLog : u.faultLog = s.faultLog
  hostIn : u.hostIn = s.hostIn

theorem messageBits_nil (cb : Codebook) : messageBits cb [] = [] := rfl

theorem messageBits_cons {cb : Codebook} (hx : lookupSym cb x = some e) (m : List Byte) :
    messageBits cb (x :: m) = entryBits e ++ messageBits cb m := by
  rw [messageBits, List.flatMap_cons, hx]
  rfl

/-- A presented command is no item of the views, and changes no register. -/
theorem Encoding.record (h : Encoding s bits n u) (w : Word72) : Encoding s bits n (record (.cmd w) u) :=
  { h with
    inv := h.inv.of_registers rfl rfl rfl rfl
    byteOut := by simpa [Event.byte?] using h.byteOut
    responses := by simpa [Event.resp?] using h.responses
    symOut := by simpa [Event.sym?] using h.symOut }

/-- An encode does not see the command presented before it. -/
theorem Encoding.of_record {w : Word72} (h : Encoding (Machine.record (.cmd w) s) bits n u) : Encoding s bits n u :=
  { h with
    byteOut := by simpa [Event.byte?] using h.byteOut
    responses := by simpa [Event.resp?] using h.responses
    symOut := by simpa [Event.sym?] using h.symOut }

/-- `ENC.INIT` begins an encode with no bit appended. -/
theorem Encoding.init (h : s.Inv) (herr : s.cb.err = 0) :
    Encoding s [] 1 (respond statusOk 0 { s with w := freshWriter }) := by
  obtain ⟨hbyte, hsym, hresp⟩ := views_of_bytes (s := s) (t := respond statusOk 0 { s with w := freshWriter })
    (bytes := []) (r := 0) rfl
  exact ⟨h.encInit (exec_encInit_ok herr), rfl, rfl, rfl, rfl, hbyte, hresp, rfl, rfl, hsym, rfl, rfl⟩

/-- `ENC.SYM` of a symbol with an entry appends its code. -/
theorem Encoding.encSym (h : Encoding s bits n u) (hx : lookupSym u.cb x = some e)
    (hle : (bits ++ entryBits e).length ≤ 2 ^ 64 - 1) :
    ∃ t, exec (.encSym x) u = .next t ∧ Encoding s (bits ++ entryBits e) (n + 1) t := by
  have htotal : u.w.total.toNat + e.len.toNat = (bits ++ entryBits e).length := by simp [h.total]
  have hfits : u.w.total.toNat + e.len.toNat ≤ 2 ^ 64 - 1 := by omega
  have happ := appendCode_eq h.inv.wAccFits e
  obtain ⟨hwhole, hleft⟩ := wholeBytes_append bits (entryBits e)
  rw [h.pending] at happ
  have hexec := exec_encSym_appends h.noErr h.active hx hfits
  obtain ⟨hcb, hr, hsym, hhost, -⟩ := writerCommandsFrame _ _ _ (.inr (.inl ⟨x, rfl⟩)) hexec
  obtain ⟨hbyte, -, hresp⟩ := views_of_bytes (s := u) (t := respond statusOk 0 (appendCode e u))
    (bytes := wholeBytes (leftover bits ++ entryBits e)) (r := 0) (by rw [respond_history, happ, List.append_assoc]; rfl)
  exact ⟨_, hexec, {
    inv := h.inv.encSym hexec
    active := by simpa [happ, withPending] using h.active
    noErr := by simpa [happ, withPending] using h.noErr
    pending := by
      rw [hleft]
      simpa [happ, pendingBits] using pendingBits_withPending u.w (bits := leftover (leftover bits ++ entryBits e))
        (by rw [length_leftover]; omega)
    total := by rw [respond_w, appendCode_total hfits, htotal]
    byteOut := by rw [hbyte, h.byteOut, hwhole, List.append_assoc]
    responses := by rw [hresp, h.responses, List.append_assoc, ← List.replicate_succ']
    cb := hcb.trans h.cb
    r := hr.trans h.r
    symOut := hsym.trans h.symOut
    faultLog := by simpa [happ] using h.faultLog
    hostIn := hhost.trans h.hostIn }⟩

/-- One `ENC.SYM` per symbol appends the bits of the message. -/
theorem Encoding.encSyms (h : Encoding s bits n u) (hm : ∀ x ∈ m, ∃ e ∈ s.cb.entries, e.sym = x)
    (hle : (bits ++ messageBits s.cb m).length ≤ 2 ^ 64 - 1) :
    ∃ t, runCommands (m.map .encSym) u = .next t ∧ Encoding s (bits ++ messageBits s.cb m) (n + m.length) t := by
  induction m generalizing bits n u with
  | nil => exact ⟨u, runCommands_nil u, by simpa [messageBits] using h⟩
  | cons x m ih =>
    obtain ⟨hx, hm⟩ := List.forall_mem_cons.1 hm
    obtain ⟨e, hfound⟩ := Option.isSome_iff_exists.1 (lookupSym_isSome_iff.2 hx)
    rw [messageBits_cons hfound, ← List.append_assoc] at hle ⊢
    obtain ⟨v, hexec, hv⟩ := (h.record (encode (.encSym x))).encSym (h.cb ▸ hfound) (by
      rw [List.length_append] at hle
      omega)
    obtain ⟨t, hrun, ht⟩ := ih hv hm hle
    refine ⟨t, (runCommands_cons _ (decode_encode rfl) hexec).trans hrun, ?_⟩
    rwa [List.length_cons, Nat.add_comm m.length, ← Nat.add_assoc]

/-- The bitstream is the whole bytes and the byte a flush emits. -/
theorem bitstream_eq_flush {w : Writer} (hacc : w.acc.toNat < 2 ^ w.cnt.toNat) (hp : pendingBits w = leftover bits) :
    bitstream bits = wholeBytes bits ++ if w.cnt = 0 then [] else [flushByte w] := by
  have hempty : leftover bits = [] ↔ w.cnt = 0 := by
    rw [← hp, ← List.length_eq_zero_iff, length_pendingBits, ← BitVec.toNat_inj]
    rfl
  have hvalue : bitsValue (pendingBits w) = w.acc.toNat := by
    rw [pendingBits, bitsValue_bitsMsb, Nat.mod_eq_of_lt hacc]
  rw [bitstream_eq, flushByte_eq_ofNat, ← hvalue, ← length_pendingBits w, hp]
  exact congrArg _ (if_congr hempty rfl rfl)

/-- The first ⌊L/8⌋ bytes of the bitstream are the whole bytes. -/
theorem take_bitstream (bits : List Bool) : (bitstream bits).take (bits.length / 8) = wholeBytes bits := by
  rw [bitstream_eq, List.take_left' (length_wholeBytes bits)]

theorem flushEncode_history (s : State) :
    (flushEncode s).history = s.history ++ (if s.w.cnt = 0 then [] else [flushByte s.w]).map .outByte := by
  by_cases h0 : s.w.cnt = 0
  · rw [flushEncode_of_empty h0, if_pos h0, List.map_nil, List.append_nil]
  · rw [flushEncode_of_pending h0, if_neg h0, emitByte_history, List.map_singleton]

theorem flushEncode_faultLog (s : State) : (flushEncode s).faultLog = s.faultLog := by
  by_cases h0 : s.w.cnt = 0
  · rw [flushEncode_of_empty h0]
  · rw [flushEncode_of_pending h0, emitByte_faultLog]

/-- `ENC.FLUSH` completes the bitstream and answers its number of meaningful bits. -/
theorem Encoding.encFlush (h : Encoding s bits n u) :
    ∃ t, exec .encFlush u = .next t ∧ t.byteOut = s.byteOut ++ bitstream bits ∧
      t.responses = s.responses ++ List.replicate n 0 ++ [0x00#8 ++ BitVec.ofNat 64 bits.length] ∧
      t.w.active = false ∧ t.cb = s.cb ∧ t.r = s.r ∧ t.symOut = s.symOut ∧ t.faultLog = s.faultLog ∧ t.hostIn = s.hostIn := by
  have hexec := exec_encFlush_active h.noErr h.active
  obtain ⟨hcb, hr, hsym, hhost, -⟩ := writerCommandsFrame _ _ _ (.inr (.inr rfl)) hexec
  obtain ⟨hbyte, -, hresp⟩ := views_of_bytes (s := u) (t := respond statusOk u.w.total (flushEncode u))
    (by rw [respond_history, flushEncode_history, List.append_assoc])
  have htotal : u.w.total = BitVec.ofNat 64 bits.length := by rw [← h.total, BitVec.ofNat_toNat, BitVec.setWidth_eq]
  refine ⟨_, hexec, hbyte.trans ?_, hresp.trans ?_, rfl, hcb.trans h.cb, hr.trans h.r, hsym.trans h.symOut,
    (flushEncode_faultLog u).trans h.faultLog, hhost.trans h.hostIn⟩
  · rw [h.byteOut, bitstream_eq_flush h.inv.wAccFits h.pending, List.append_assoc]
  · rw [h.responses, htotal]
    rfl

/-- Settles O24: `ENC.INIT` begins the encode, each `ENC.SYM` appends its code, and `ENC.FLUSH` completes the bitstream. -/
theorem encodeProducesBitstream : Obligations.EncodeProducesBitstream := by
  intro s m h herr hm bits hle
  have hinit := (Encoding.init (s := record (.cmd (encode .encInit)) s) (h.of_registers rfl rfl rfl rfl) herr).of_record
  obtain ⟨u, hsyms, hu⟩ := hinit.encSyms hm hle
  obtain ⟨t, hflush, ht⟩ := (hu.record (encode .encFlush)).encFlush
  have hrun : runCommands (.encInit :: m.map .encSym) s = .next u :=
    (runCommands_cons _ (decode_encode rfl) (exec_encInit_ok herr)).trans hsyms
  have hall : runCommands (HostEnv.encodeCommands m) s = .next t := by
    have hwf : ∀ i ∈ .encInit :: m.map Instr.encSym, decode (encode i) = .ok i :=
      List.forall_mem_cons.2 ⟨decode_encode rfl, List.forall_mem_map.2 fun x _ => decode_encode rfl⟩
    exact (runCommands_append hwf hrun).trans ((runCommands_cons [] (decode_encode rfl) hflush).trans (runCommands_nil t))
  rw [List.nil_append, Nat.add_comm 1] at ht
  exact ⟨u, t, hrun, by rw [hu.byteOut, take_bitstream, List.nil_append], hall, ht⟩

end Sys2Proof.Machine
end

section
/-! SUPPORT. One `FoldBit` as rule R131 of 42_reader_commands.md states it, on numbers. -/

namespace Sys2Proof.Machine

variable {s : State} {b : Bool} {e : Entry}

/-- `R_DONE` is clear exactly while symbols are missing. -/
theorem done_eq_false (r : Reader) : r.done = false ↔ r.emitted ≠ r.origLen := by
  rw [← Bool.not_eq_true, done_eq_true]

/-- The held bits and one more as a number. -/
theorem bitsValue_held_concat (h : FoldReady s) (b : Bool) :
    bitsValue (heldBits s.r ++ [b]) = 2 * s.r.acc.toNat + b.toNat := by
  rw [bitsValue_append, heldBits, bitsValue_bitsMsb, Nat.mod_eq_of_lt h.fits, bitsValue_cons, bitsValue_nil]
  simp
  omega

/-- The key of rule R131's lookup: a stored code is the held bits and the new one exactly when its length and value are. -/
theorem FoldReady.entryBits_eq_iff (h : FoldReady s) (he : e ∈ s.cb.entries) :
    entryBits e = heldBits s.r ++ [b] ↔
      e.len.toNat = s.r.cnt.toNat + 1 ∧ e.code.toNat = 2 * s.r.acc.toNat + b.toNat := by
  have hcode : bitsValue (entryBits e) = e.code.toNat := by
    rw [entryBits, bitsValue_bitsMsb, Nat.mod_eq_of_lt (h.store.bounds e he).2.2]
  rw [← bitsValue_held_concat h, ← hcode]
  constructor
  · intro heq
    exact ⟨by simpa using congrArg List.length heq, congrArg bitsValue heq⟩
  · rintro ⟨hlen, hvalue⟩
    exact bits_ext (by simpa using hlen) hvalue

/-- Settles O27, by the three things a fold can do. -/
theorem foldBitFoldsAndLooksUp : Obligations.FoldBitFoldsAndLooksUp := by
  intro b s h ha herr hne
  have hp := h.parseReady ha herr ((done_eq_false _).2 hne)
  have hroom := hp.room
  have hfits := hp.fits
  have hbit := b.toNat_lt
  refine ⟨by rw [pow_succ]; omega, hroom, fun hfull => foldBit_overflow hfull b, fun hb => ?_⟩
  have hbits := count_ext (toNat_succ_count s.r.bits hb)
  refine ⟨fun e he hlen hcode => ?_, fun hno => ?_⟩
  · have hemitted := count_ext (toNat_succ_count s.r.emitted (by have := hp.notDone; omega))
    rw [foldBit_match hp.toFoldReady hb he ((hp.toFoldReady.entryBits_eq_iff he).2 ⟨hlen, hcode⟩), hbits, hemitted]
  · have hunmatched : ∀ e ∈ s.cb.entries, entryBits e ≠ heldBits s.r ++ [b] :=
      fun e he heq => hno e he ((hp.toFoldReady.entryBits_eq_iff he).1 heq)
    rw [foldBit_hold hp.toFoldReady hb hunmatched, hbits, withHeld, bitsValue_held_concat hp.toFoldReady,
      List.length_append, length_heldBits, List.length_singleton]

end Sys2Proof.Machine
end

section
/-! SUPPORT. `DEC.INIT`, `DEC.END` and a `DEC.BYTE` that takes no bit, as whole states (42_reader_commands.md rules R132, R133,
R134). -/

namespace Sys2Proof.Machine

variable {s : State} {b : Byte} {n : Count}

theorem exec_decInit_invalid (herr : s.cb.err ≠ 0) : exec (.decInit n) s = .next (raiseErr .cbInvalid s) := by
  rw [exec, execDecInit, if_pos herr]

/-- A flag answered in the data of a response. -/
theorem flagData_eq (b : Bool) : flagData b = if b = true then 1#64 else 0#64 := by
  cases b <;> rfl

/-- Settles O28, by the two cases of `CB_ERR`. -/
theorem decInitMakesFreshReader : Obligations.DecInitMakesFreshReader := by
  refine ⟨fun n => decode_encode (i := .decInit n) rfl, fun s n => ⟨fun herr => ?_, exec_decInit_invalid⟩⟩
  rw [exec_decInit_ok herr, flagData_eq]
  simp only [beq_iff_eq]
  rfl

theorem exec_decByte_idle (herr : s.r.err = 0) (ha : s.r.active = false) :
    exec (.decByte b) s = .next (raiseErr .notActive s) := by
  rw [exec, execDecByte, if_neg (not_not.2 herr), if_pos ha]

theorem exec_decByte_done (herr : s.r.err = 0) (ha : s.r.active = true) (hd : s.r.done = true) :
    exec (.decByte b) s = .next (raiseErr .overrun s) := by
  rw [exec, execDecByte, if_neg (not_not.2 herr), if_neg (by simp [ha]), if_pos hd]

/-- The loop of a reader that is not done stops at once when its bit count is full. -/
theorem foldBits_overflow (hd : s.r.done = false) (hfull : s.r.bits.toNat = 2 ^ 64 - 1) {bits : List Bool} (hne : bits ≠ []) :
    foldBits bits s = (s, some (.countOverflow .reader)) := by
  obtain ⟨b, bs, rfl⟩ := List.exists_cons_of_ne_nil hne
  simp only [foldBits, hd, foldBit_overflow hfull, Bool.false_eq_true, if_false]

/-- Settles O29, by the checks of `DEC.BYTE` in order and the first round of its loop. -/
theorem decByteTakesNoBit : Obligations.DecByteTakesNoBit := by
  refine fun s b => ⟨fun hne => ?_, fun herr ha => ?_, fun herr ha hdone => ?_, fun herr ha hne hfull => ?_⟩
  · exact exec_of_latched (i := .decByte b) hne
  · exact exec_decByte_idle herr ha
  · exact exec_decByte_done herr ha ((done_eq_true _).2 hdone)
  · have hd := (done_eq_false _).2 hne
    exact exec_decByte_raises herr ha hd (foldBits_overflow hd hfull (List.cons_ne_nil _ _))

theorem exec_decEnd_idle (herr : s.r.err = 0) (ha : s.r.active = false) :
    exec .decEnd s = .next (raiseErr .notActive s) := by
  rw [exec, execDecEnd, if_neg (not_not.2 herr), if_pos ha]

/-- Settles O31, by the checks of `DEC.END` in order. -/
theorem decEndChecksComplete : Obligations.DecEndChecksComplete := by
  refine ⟨decode_encode (i := .decEnd) rfl, fun s => ⟨fun hne => ?_, fun herr ha => ?_, fun herr ha hne => ?_,
    fun herr ha hdone => ?_⟩⟩
  · exact exec_of_latched (i := .decEnd) hne
  · exact exec_decEnd_idle herr ha
  · exact exec_decEnd_truncated herr ha ((done_eq_false _).2 hne)
  · exact exec_decEnd_done herr ha ((done_eq_true _).2 hdone) rfl

end Sys2Proof.Machine
end

section
/-! SUPPORT. What the reader commands log, which of them set `R_ORIGLEN`, and what they add to the streams
(42_reader_commands.md rules R132 to R134). -/

namespace Sys2Proof.Machine

variable {i : Instr} {s t : State}

/-- The errors that the reader commands raise. -/
def readerErrors : List Err := [.cbInvalid, .notActive, .noMatch, .truncated, .overrun, .countOverflow .reader]

theorem code_of_readerError {e : Err} (he : e ∈ readerErrors) :
    e.code.toNat = 8 ∨ e.code.toNat = 9 ∨ (11 ≤ e.code.toNat ∧ e.code.toNat ≤ 14) := by
  fin_cases he <;> decide

/-- No error of the reader touches `R_ORIGLEN`. -/
theorem raiseErr_origLen (e : Err) (s : State) : (raiseErr e s).r.origLen = s.r.origLen := by
  rw [raiseErr_r]
  cases e with
  | countOverflow u => cases u <;> rfl
  | _ => rfl

/-- The reader commands answer with `OK`, a latched error, or a raise, and log the last. -/
theorem reader_faultLog (hi : (∃ n, i = .decInit n) ∨ (∃ b, i = .decByte b) ∨ i = .decEnd) (hx : exec i s = .next t) :
    t.faultLog = s.faultLog ∨ ∃ e ∈ readerErrors, t.faultLog = s.faultLog ||| (1#16 <<< e.code.toNat) := by
  obtain ⟨n, rfl⟩ | ⟨b, rfl⟩ | rfl := hi
  · obtain ⟨-, rfl⟩ | ⟨-, rfl⟩ := decInit_cases hx
    · exact .inr ⟨.cbInvalid, by simp [readerErrors], raiseErr_faultLog _ s⟩
    · exact .inl rfl
  · obtain ⟨-, -, hlog, -⟩ := foldBits_frame (bitsMsb 8 b) s
    obtain ⟨-, rfl⟩ | ⟨-, -, rfl⟩ | ⟨-, -, -, rfl⟩ | ⟨-, -, -, s', hf, rfl⟩ | ⟨-, -, -, s', e, hf, he, rfl⟩ := decByte_cases hx
    · exact .inl rfl
    · exact .inr ⟨.notActive, by simp [readerErrors], raiseErr_faultLog _ s⟩
    · exact .inr ⟨.overrun, by simp [readerErrors], raiseErr_faultLog _ s⟩
    · rw [hf] at hlog
      exact .inl hlog
    · rw [hf] at hlog
      exact .inr ⟨e, by rcases he with rfl | rfl <;> simp [readerErrors], by rw [raiseErr_faultLog, hlog]⟩
  · obtain ⟨-, rfl⟩ | ⟨-, -, rfl⟩ | ⟨-, -, -, rfl⟩ | ⟨-, -, -, rfl⟩ := decEnd_cases hx
    · exact .inl rfl
    · exact .inr ⟨.notActive, by simp [readerErrors], raiseErr_faultLog _ s⟩
    · exact .inr ⟨.truncated, by simp [readerErrors], raiseErr_faultLog _ s⟩
    · exact .inl rfl

theorem decByte_origLen {b : Byte} (hx : exec (.decByte b) s = .next t) : t.r.origLen = s.r.origLen := by
  obtain ⟨-, -, -, -, -, -, hlen, -⟩ := foldBits_frame (bitsMsb 8 b) s
  obtain ⟨-, rfl⟩ | ⟨-, -, rfl⟩ | ⟨-, -, -, rfl⟩ | ⟨-, -, -, s', hf, rfl⟩ | ⟨-, -, -, s', e, hf, -, rfl⟩ := decByte_cases hx
  · rfl
  · rfl
  · rfl
  · rwa [hf] at hlen
  · rw [hf] at hlen
    rw [raiseErr_origLen, hlen]

theorem decEnd_origLen (hx : exec .decEnd s = .next t) : t.r.origLen = s.r.origLen := by
  obtain ⟨-, rfl⟩ | ⟨-, -, rfl⟩ | ⟨-, -, -, rfl⟩ | ⟨-, -, -, rfl⟩ := decEnd_cases hx
  · rfl
  · rfl
  · rfl
  · rfl

/-- The views of the history after symbols and one response. -/
theorem views_of_syms {syms : List Byte} {r : Word72} (hh : t.history = s.history ++ (syms.map .outSym ++ [.resp r])) :
    t.byteOut = s.byteOut ∧ t.symOut = s.symOut ++ syms ∧ t.responses = s.responses ++ [r] := by
  simp [State.byteOut, State.symOut, State.responses, hh, Event.byte?, Event.sym?, Event.resp?, Function.comp_def]

/-- Settles O34: the only events are symbols and a response, and a logged bit is the number of a reader error. -/
theorem readerCommandsFrame : Obligations.ReaderCommandsFrame := by
  intro i s t hi hx
  obtain ⟨hcb, hw, syms, r, hh⟩ := reader_frame hi hx
  obtain ⟨hbyte, hsym, -⟩ := views_of_syms hh
  refine ⟨hcb, hw, hbyte, exec_hostIn hx, ⟨syms, hsym.symm⟩, fun hnot => ?_, fun k h8 h9 hk => ?_⟩
  · obtain ⟨n, rfl⟩ | ⟨b, rfl⟩ | rfl := hi
    · exact absurd rfl (hnot n)
    · exact decByte_origLen hx
    · exact decEnd_origLen hx
  · obtain hlog | ⟨e, he, hlog⟩ := reader_faultLog hi hx
    · rw [hlog]
    · have hcode := code_of_readerError he
      rw [hlog, getLsbD_log, decide_eq_false (by omega), Bool.or_false]

end Sys2Proof.Machine
end

section
/-! SUPPORT. `DEC.BYTE` as the parse of the held bits and the bits that fit the count (42_reader_commands.md rules R131, R133,
R135). -/

namespace Sys2Proof.Machine

variable {s t : State} {b : Byte} {es : List Entry} {bits xs ys rest : List Bool} {k : Nat} {e : Err}

/-- The loop of a reader that the first bits leave without an error goes on with the others. -/
theorem foldBits_append_of_none (h : foldBits xs s = (t, none)) : foldBits (xs ++ ys) s = foldBits ys t := by
  rw [foldBits_append, h]

/-- The bits after the one that raises an error are not taken. -/
theorem foldBits_append_of_raise (h : foldBits xs s = (t, some e)) : foldBits (xs ++ ys) s = (t, some e) := by
  rw [foldBits_append, h]

theorem heldBits_afterParse (h : rest.length ≤ 32) : heldBits (afterParse s es k rest).r = rest :=
  heldBits_withHeld s.r h

theorem afterParse_emitted (hn : s.r.emitted.toNat + es.length ≤ s.r.origLen.toNat) :
    (afterParse s es k rest).r.emitted.toNat = s.r.emitted.toNat + es.length := by
  have hlt := s.r.origLen.isLt
  rw [afterParse, BitVec.toNat_ofNat, Nat.mod_eq_of_lt (by omega)]

theorem afterParse_bits (hk : s.r.bits.toNat + k ≤ 2 ^ 64 - 1) :
    (afterParse s es k rest).r.bits.toNat = s.r.bits.toNat + k := by
  rw [afterParse, BitVec.toNat_ofNat, Nat.mod_eq_of_lt (by omega)]

theorem afterParse_done (hn : s.r.emitted.toNat + es.length = s.r.origLen.toNat) : (afterParse s es k rest).r.done = true :=
  (done_eq_true _).2 (BitVec.eq_of_toNat_eq ((afterParse_emitted hn.le).trans hn))

theorem afterParse_not_done (hn : s.r.emitted.toNat + es.length < s.r.origLen.toNat) :
    (afterParse s es k rest).r.done = false :=
  (done_eq_false _).2 fun heq => hn.ne ((afterParse_emitted hn.le).symm.trans (congrArg BitVec.toNat heq))

/-- The state that a completed decode leaves, register by register. -/
theorem afterParse_of_complete (hn : s.r.emitted.toNat + es.length = s.r.origLen.toNat) :
    afterParse s es k [] = { s with
      r := { s.r with acc := 0, cnt := 0, emitted := s.r.origLen, bits := BitVec.ofNat 64 (s.r.bits.toNat + k) }
      history := s.history ++ es.map fun e => .outSym e.sym } := by
  rw [afterParse, ← count_ext hn.symm]
  rfl

/-- A decode in progress whose held bits, followed by `xs`, are the stored codes `es` and a rest. -/
structure Parse (s : State) (xs : List Bool) (es : List Entry) (rest : List Bool) : Prop where
  inv : s.Inv
  active : s.r.active = true
  noErr : s.r.err = 0
  notDone : s.r.done = false
  stored : ∀ e ∈ es, e ∈ s.cb.entries
  bits : heldBits s.r ++ xs = es.flatMap entryBits ++ rest

namespace Parse

theorem ready (h : Parse s xs es rest) : ParseReady s := h.inv.parseReady h.active h.noErr h.notDone

theorem length_eq (h : Parse s xs es rest) : s.r.cnt.toNat + xs.length = (es.flatMap entryBits).length + rest.length := by
  simpa only [List.length_append, length_heldBits] using congrArg List.length h.bits

/-- More bits lengthen the rest. -/
theorem append (h : Parse s xs es rest) (ys : List Bool) : Parse s (xs ++ ys) es (rest ++ ys) :=
  { h with bits := by rw [← List.append_assoc, h.bits, List.append_assoc] }

/-- The bits that the codes take parse into the codes as well. -/
theorem take_codes (h : Parse s xs es rest) :
    ∃ rest', Parse s (xs.take ((es.flatMap entryBits).length - s.r.cnt.toNat)) es rest' := by
  have hcut := congrArg (List.take (s.r.cnt.toNat + ((es.flatMap entryBits).length - s.r.cnt.toNat))) h.bits
  rw [List.take_append, List.take_append, length_heldBits, Nat.add_sub_cancel_left,
    List.take_of_length_le (l := heldBits s.r) (by rw [length_heldBits]; omega),
    List.take_of_length_le (l := es.flatMap entryBits) (by omega)] at hcut
  exact ⟨_, { h with bits := hcut }⟩

/-- The parse that completes the decode, whatever padding follows: only the bits of its codes are taken, so only they need room
in the bit count. -/
theorem foldBits_completes (h : Parse s xs es rest)
    (hcount : s.r.bits.toNat + ((es.flatMap entryBits).length - s.r.cnt.toNat) ≤ 2 ^ 64 - 1)
    (hn : s.r.emitted.toNat + es.length = s.r.origLen.toNat) :
    foldBits xs s = (afterParse s es ((es.flatMap entryBits).length - s.r.cnt.toNat) [], none) := by
  have hfits : s.r.bits.toNat + (xs.take ((es.flatMap entryBits).length - s.r.cnt.toNat)).length ≤ 2 ^ 64 - 1 := by
    rw [List.length_take]
    omega
  obtain ⟨rest', hcodes⟩ := h.take_codes
  have hfold := Machine.foldBits_completes hcodes.ready _ es rest' hcodes.stored hcodes.bits hfits hn
  rw [← List.take_append_drop ((es.flatMap entryBits).length - s.r.cnt.toNat) xs, foldBits_append_of_none hfold,
    foldBits_done (afterParse_done hn)]

/-- `DEC.BYTE` that completes the decode. -/
theorem decByte_completes (h : Parse s (bitsMsb 8 b) es rest)
    (hcount : s.r.bits.toNat + ((es.flatMap entryBits).length - s.r.cnt.toNat) ≤ 2 ^ 64 - 1)
    (hn : s.r.emitted.toNat + es.length = s.r.origLen.toNat) :
    exec (.decByte b) s =
      .next (respond statusOk 1 (afterParse s es ((es.flatMap entryBits).length - s.r.cnt.toNat) [])) := by
  rw [exec_decByte_folds h.noErr h.active h.notDone (h.foldBits_completes hcount hn), afterParse_done hn]
  rfl

/-- `DEC.BYTE` that neither completes the decode nor fills the accumulator holds the rest. -/
theorem decByte_holds (h : Parse s (bitsMsb 8 b) es rest) (hcount : s.r.bits.toNat + 8 ≤ 2 ^ 64 - 1)
    (hn : s.r.emitted.toNat + es.length < s.r.origLen.toNat) (hrest : ∀ e ∈ s.cb.entries, ¬ entryBits e <+: rest)
    (h32 : rest.length < 32) : exec (.decByte b) s = .next (respond statusOk 0 (afterParse s es 8 rest)) := by
  have hloop := foldBits_continues h.ready _ es rest h.stored h.bits (by rwa [length_bitsMsb]) hn hrest
  rw [if_pos h32, length_bitsMsb] at hloop
  rw [exec_decByte_folds h.noErr h.active h.notDone hloop, afterParse_not_done hn]
  rfl

/-- `DEC.BYTE` whose first bits `xs` fill the accumulator without a match. -/
theorem decByte_noMatch (h : Parse s xs es rest) (hbyte : bitsMsb 8 b = xs ++ ys)
    (hcount : s.r.bits.toNat + xs.length ≤ 2 ^ 64 - 1) (hn : s.r.emitted.toNat + es.length < s.r.origLen.toNat)
    (hrest : ∀ e ∈ s.cb.entries, ¬ entryBits e <+: rest) (h32 : 32 ≤ rest.length) :
    exec (.decByte b) s =
      .next (raiseErr .noMatch (afterParse s es ((es.flatMap entryBits).length + 32 - s.r.cnt.toNat) (rest.take 32))) := by
  have hloop := foldBits_continues h.ready xs es rest h.stored h.bits hcount hn hrest
  rw [if_neg (not_lt.2 h32)] at hloop
  exact exec_decByte_raises h.noErr h.active h.notDone (hbyte ▸ foldBits_append_of_raise hloop)

/-- `DEC.BYTE` whose bit count is full after its bits `xs`, with a bit to come: the rest is held, as if there were no more. -/
theorem decByte_overflows (h : Parse s xs es rest) (hbyte : bitsMsb 8 b = xs ++ ys) (hys : ys ≠ [])
    (hcount : s.r.bits.toNat + xs.length = 2 ^ 64 - 1) (hn : s.r.emitted.toNat + es.length < s.r.origLen.toNat)
    (hrest : ∀ e ∈ s.cb.entries, ¬ entryBits e <+: rest) (h32 : rest.length < 32) :
    exec (.decByte b) s = .next (raiseErr (.countOverflow .reader) (afterParse s es xs.length rest)) := by
  have hloop := foldBits_continues h.ready xs es rest h.stored h.bits hcount.le hn hrest
  rw [if_pos h32] at hloop
  have hraise := (foldBits_append_of_none hloop).trans
    (foldBits_overflow (afterParse_not_done hn) ((afterParse_bits hcount.le).trans hcount) hys)
  exact exec_decByte_raises h.noErr h.active h.notDone (hbyte ▸ hraise)

end Parse

/-- Settles O30: the parse completes the decode, or its rest is held, or its rest is too long to be. -/
theorem decByteParsesGreedily : Obligations.DecByteParsesGreedily := by
  intro s b es rest h ha herr hne hcount hes hbits
  have hp : Parse s (bitsMsb 8 b) es rest := ⟨h, ha, herr, (done_eq_false _).2 hne, hes, hbits⟩
  have hlen := hp.length_eq
  rw [length_bitsMsb] at hlen
  refine ⟨fun hn => ?_, fun hn hrest => ⟨fun h32 => ?_, fun h32 => ?_⟩⟩
  · rw [hp.decByte_completes (by omega) hn, afterParse_of_complete hn]
    rfl
  · rw [hp.decByte_holds hcount hn hrest h32]
    rfl
  · rw [hp.decByte_noMatch (List.append_nil _).symm (by rwa [length_bitsMsb]) hn hrest h32, afterParse, withHeld,
      List.length_take_of_le h32]
    rfl

/-- Settles O46: the bits that fit are parsed as ever, and the next one finds the count full. -/
theorem decByteOverflowsInMidByte : Obligations.DecByteOverflowsInMidByte := by
  intro s b es rest h ha herr hne hfew hes room hbits
  have hp : Parse s ((bitsMsb 8 b).take room) es rest := ⟨h, ha, herr, (done_eq_false _).2 hne, hes, hbits⟩
  have hbyte : bitsMsb 8 b = (bitsMsb 8 b).take room ++ (bitsMsb 8 b).drop room := (List.take_append_drop _ _).symm
  have hroom : s.r.bits.toNat + room = 2 ^ 64 - 1 := by
    have hmax := s.r.bits.isLt
    omega
  have htake : ((bitsMsb 8 b).take room).length = room := by
    rw [List.length_take, length_bitsMsb]
    omega
  have hlen := hp.length_eq
  rw [htake] at hlen
  refine ⟨fun hn => ?_, fun hn hrest => ⟨fun h32 => ?_, fun h32 => ?_⟩⟩
  · have hwhole := hp.append ((bitsMsb 8 b).drop room)
    rw [← hbyte] at hwhole
    rw [hwhole.decByte_completes (by omega) hn, afterParse_of_complete hn]
    rfl
  · have hdrop : (bitsMsb 8 b).drop room ≠ [] := by
      rw [Ne, List.drop_eq_nil_iff, length_bitsMsb]
      omega
    rw [hp.decByte_overflows hbyte hdrop (by rw [htake, hroom]) hn hrest h32, htake, afterParse, hroom]
    rfl
  · rw [hp.decByte_noMatch hbyte (by rw [htake, hroom]) hn hrest h32, afterParse, withHeld, List.length_take_of_le h32]
    rfl

end Sys2Proof.Machine
end

section
/-! SUPPORT. The bitstream read back as bits (20_memory.md rule R45, 30_encoding.md rule R66), and a message as the list of its
stored codes. -/

namespace Sys2Proof.Machine

variable {cb : Codebook} {es : List Entry} {m : List Byte} {bits : List Bool} {e : Entry}

theorem byteBits_cons (b : Byte) (bytes : List Byte) : byteBits (b :: bytes) = bitsMsb 8 b ++ byteBits bytes := rfl

@[simp] theorem length_byteBits (bytes : List Byte) : (byteBits bytes).length = 8 * bytes.length := by
  induction bytes with
  | nil => rfl
  | cons b bytes ih =>
    rw [byteBits_cons, List.length_append, length_bitsMsb, ih, List.length_cons]
    omega

theorem bitsValue_replicate_false (n : Nat) : bitsValue (List.replicate n false) = 0 := by
  induction n with
  | zero => rfl
  | succ n ih => simp [List.replicate_succ, bitsValue_cons, ih]

/-- The first `n` groups of eight bits, one after the other. -/
theorem flatMap_groups (bits : List Bool) (n : Nat) :
    ((List.range n).flatMap fun j => (bits.drop (8 * j)).take 8) = bits.take (8 * n) := by
  induction n with
  | zero => rfl
  | succ n ih => rw [List.range_succ, List.flatMap_append, ih, Nat.mul_succ, List.take_add, List.flatMap_singleton]

theorem byteBits_wholeBytes (bits : List Bool) : byteBits (wholeBytes bits) = bits.take (8 * (bits.length / 8)) := by
  rw [byteBits, wholeBytes, List.flatMap_map, ← flatMap_groups]
  refine List.flatMap_congr fun j hj => ?_
  have hj' := List.mem_range.1 hj
  have hgroup : ((bits.drop (8 * j)).take 8).length = 8 := by
    rw [List.length_take, List.length_drop]
    omega
  have hbits := bitsMsb_of_value (k := 8) _ hgroup.le
  rwa [hgroup] at hbits

/-- The byte of fewer than eight bits at the top, zeros below. -/
theorem bitsMsb_padded (h : bits.length ≤ 8) :
    bitsMsb 8 (BitVec.ofNat 8 (bitsValue bits * 2 ^ (8 - bits.length))) = bits ++ List.replicate (8 - bits.length) false := by
  have hlen : (bits ++ List.replicate (8 - bits.length) false).length = 8 := by
    rw [List.length_append, List.length_replicate]
    omega
  have hbits := bitsMsb_of_value (k := 8) _ hlen.le
  rwa [hlen, bitsValue_append, bitsValue_replicate_false, List.length_replicate, Nat.add_zero] at hbits

/-- The bytes of a bitstream are its bits and padding. -/
theorem byteBits_bitstream (bits : List Bool) : ∃ pad, byteBits (bitstream bits) = bits ++ pad := by
  have hlen := length_leftover bits
  have hsplit : bits.take (8 * (bits.length / 8)) ++ leftover bits = bits := List.take_append_drop _ bits
  rw [bitstream_eq, byteBits, List.flatMap_append, ← byteBits, byteBits_wholeBytes]
  by_cases h : leftover bits = []
  · rw [h] at hsplit
    exact ⟨[], by rw [if_pos h, List.flatMap_nil, hsplit, List.append_nil]⟩
  · exact ⟨List.replicate (8 - (leftover bits).length) false, by
      rw [if_neg h, List.flatMap_singleton, bitsMsb_padded (by omega), ← List.append_assoc, hsplit]⟩

theorem length_bitstream (bits : List Bool) : (bitstream bits).length = (bits.length + 7) / 8 := by
  rw [bitstream, List.length_map, List.length_range]

/-- A message whose symbols all have entries is a list of stored codes. -/
theorem exists_codes_of_message (hm : ∀ x ∈ m, ∃ e ∈ cb.entries, e.sym = x) :
    ∃ es : List Entry, (∀ e ∈ es, e ∈ cb.entries) ∧ es.map Entry.sym = m ∧ messageBits cb m = es.flatMap entryBits := by
  induction m with
  | nil => exact ⟨[], by simp, rfl, rfl⟩
  | cons x m ih =>
    obtain ⟨hx, hm⟩ := List.forall_mem_cons.1 hm
    obtain ⟨e, hfound⟩ := Option.isSome_iff_exists.1 (lookupSym_isSome_iff.2 hx)
    obtain ⟨he, hsym⟩ := lookupSym_some hfound
    obtain ⟨es, hes, hsyms, hbits⟩ := ih hm
    exact ⟨e :: es, List.forall_mem_cons.2 ⟨he, hes⟩, by rw [List.map_cons, hsym, hsyms],
      by rw [messageBits_cons hfound, hbits, List.flatMap_cons]⟩

/-- A stored code has at least one bit. -/
theorem StoreOk.length_le_length_bits (h : StoreOk cb) (hes : ∀ e ∈ es, e ∈ cb.entries) :
    es.length ≤ (es.flatMap entryBits).length := by
  induction es with
  | nil => exact Nat.zero_le _
  | cons e es ih =>
    obtain ⟨he, hes⟩ := List.forall_mem_cons.1 hes
    have hpos := (h.bounds e he).1
    have hrec := ih hes
    rw [List.flatMap_cons, List.length_append, length_entryBits, List.length_cons]
    omega

/-- Bits that end before some codes do are the first of these codes and the beginning of the next one. -/
theorem exists_code_at_end (hpre : bits <+: es.flatMap entryBits) (hlen : bits.length < (es.flatMap entryBits).length) :
    ∃ es₁ e es₂ rest, es = es₁ ++ e :: es₂ ∧ bits = es₁.flatMap entryBits ++ rest ∧ rest <+: entryBits e ∧
      rest.length < (entryBits e).length := by
  induction es generalizing bits with
  | nil => simp at hlen
  | cons e es ih =>
    rw [List.flatMap_cons] at hpre hlen
    by_cases hshort : bits.length < (entryBits e).length
    · exact ⟨[], e, es, bits, rfl, rfl, List.prefix_of_prefix_length_le hpre (List.prefix_append _ _) hshort.le, hshort⟩
    · obtain ⟨bits, rfl⟩ := List.prefix_of_prefix_length_le (List.prefix_append _ _) hpre (not_lt.1 hshort)
      rw [List.length_append, List.length_append] at hlen
      obtain ⟨es₁, e', es₂, rest, rfl, rfl, hrest⟩ := ih ((List.prefix_append_right_inj _).1 hpre) (by omega)
      exact ⟨e :: es₁, e', es₂, rest, rfl, by rw [List.flatMap_cons, List.append_assoc], hrest⟩

/-- No stored code begins a proper beginning of a stored code (10_state.md rule R33). -/
theorem StoreOk.not_prefix_of_beginning (h : StoreOk cb) (he : e ∈ cb.entries) (hpre : bits <+: entryBits e)
    (hlen : bits.length < (entryBits e).length) : ∀ a ∈ cb.entries, ¬ entryBits a <+: bits := by
  intro a ha hab
  cases h.unique a ha e he (hab.trans hpre)
  exact absurd hab.length_le (not_le.2 hlen)

end Sys2Proof.Machine
end

section
/-! SUPPORT. Runs of commands keep the invariant (10_state.md rules R31 to R34). -/

namespace Sys2Proof.Machine

variable {s t : State} {is : List Instr}

/-- A run of commands keeps the invariant. -/
theorem State.Inv.runCommands (h : s.Inv) (hwf : ∀ i ∈ is, i.WellFormed)
    (hrun : runCommands is s = .next t) : t.Inv := by
  induction is generalizing s with
  | nil =>
    cases (runCommands_nil s).symm.trans hrun
    exact h
  | cons i is ih =>
    obtain ⟨hi, his⟩ := List.forall_mem_cons.1 hwf
    obtain ⟨u, hx, hrest⟩ := runCommands_cons_inv hi hrun
    exact ih (State.Inv.exec (s := record (.cmd (encode i)) s) (h.of_registers rfl rfl rfl rfl) hx) his hrest

theorem wellFormed_encodeCommands (m : List Byte) : ∀ i ∈ HostEnv.encodeCommands m, i.WellFormed := by
  simp [HostEnv.encodeCommands, Instr.WellFormed, Instr.wellFormed, or_imp, forall_and]

end Sys2Proof.Machine
end

section
/-! SUPPORT. Runs of reader commands that log nothing, by what they emit and answer (42_reader_commands.md rules R132 to R134). -/

namespace Sys2Proof.Machine

variable {i : Instr} {is : List Instr} {syms syms' : List Byte} {r : Word72} {rs : List Word72} {s t u : State}

/-- The commands `is` run from `s` to `t`, emit the symbols `syms`, answer `rs`, and touch nothing but the reader. -/
structure DecodeRun (is : List Instr) (syms : List Byte) (rs : List Word72) (s t : State) : Prop where
  run : runCommands is s = .next t
  symOut : t.symOut = s.symOut ++ syms
  responses : t.responses = s.responses ++ rs
  cb : t.cb = s.cb
  w : t.w = s.w
  byteOut : t.byteOut = s.byteOut
  faultLog : t.faultLog = s.faultLog
  hostIn : t.hostIn = s.hostIn

theorem DecodeRun.nil (s : State) : DecodeRun [] [] [] s s :=
  ⟨runCommands_nil s, (List.append_nil _).symm, (List.append_nil _).symm, rfl, rfl, rfl, rfl, rfl⟩

theorem DecodeRun.cons (hi : (∃ n, i = .decInit n) ∨ (∃ b, i = .decByte b) ∨ i = .decEnd)
    (hx : exec i (record (.cmd (encode i)) s) = .next u) (hlog : u.faultLog = s.faultLog)
    (hh : u.history = (record (.cmd (encode i)) s).history ++ (syms.map .outSym ++ [.resp r]))
    (hrest : DecodeRun is syms' rs u t) : DecodeRun (i :: is) (syms ++ syms') (r :: rs) s t := by
  have hwf : i.WellFormed := by obtain ⟨n, rfl⟩ | ⟨b, rfl⟩ | rfl := hi <;> rfl
  obtain ⟨hcb, hw, -, hhost, -⟩ := readerCommandsFrame i _ u hi hx
  obtain ⟨hbyte, hsym, hresp⟩ := views_of_syms hh
  simp only [byteOut_record, symOut_record, responses_record, Event.byte?, Event.sym?, Event.resp?, Option.toList_none,
    List.append_nil] at hbyte hsym hresp
  exact {
    run := (runCommands_cons is (decode_encode hwf) hx).trans hrest.run
    symOut := by rw [hrest.symOut, hsym, List.append_assoc]
    responses := by rw [hrest.responses, hresp, List.append_assoc, List.singleton_append]
    cb := hrest.cb.trans hcb
    w := hrest.w.trans hw
    byteOut := hrest.byteOut.trans hbyte
    faultLog := hrest.faultLog.trans hlog
    hostIn := hrest.hostIn.trans hhost }

end Sys2Proof.Machine
end

section
/-! SUPPORT. A decode of the bytes of a message: what is still to be produced after each byte (42_reader_commands.md rules R135,
R136). -/

namespace Sys2Proof.Machine

variable {es : List Entry} {len : Nat} {s : State} {b : Byte} {bytes : List Byte} {tail pad : List Bool}

/-- A decode in progress, of a message of `len` bits, that still has to produce the symbols of `es`. -/
structure Reading (es : List Entry) (len : Nat) (s : State) : Prop where
  inv : s.Inv
  active : s.r.active = true
  noErr : s.r.err = 0
  stored : ∀ e ∈ es, e ∈ s.cb.entries
  missing : s.r.emitted.toNat + es.length = s.r.origLen.toNat
  count : s.r.bits.toNat + (es.flatMap entryBits).length = len + s.r.cnt.toNat

/-- The answers to the bytes of a message: done is reported by the last one and by no earlier one. -/
def byteAnswers (n : Nat) : List Word72 :=
  (List.range n).map fun j => 0x00#8 ++ if j + 1 = n then 1#64 else 0#64

theorem byteAnswers_succ (n : Nat) : byteAnswers (n + 2) = 0 :: byteAnswers (n + 1) := by
  rw [byteAnswers, List.range_succ_eq_map, List.map_cons, List.map_map]
  simp [byteAnswers, Function.comp_def]

namespace Reading

theorem record (h : Reading es len s) (e : Event) : Reading es len (record e s) :=
  { h with inv := h.inv.of_registers rfl rfl rfl rfl }

theorem notDone (h : Reading es len s) (hes : es ≠ []) : s.r.done = false := by
  rw [done_eq_false]
  intro heq
  have hpos := List.length_pos_iff.2 hes
  have hmissing := h.missing
  rw [heq] at hmissing
  omega

/-- `DEC.INIT` begins a decode of all codes of a message, with no bit taken. -/
theorem init (h : s.Inv) (herr : s.cb.err = 0) (hes : ∀ e ∈ es, e ∈ s.cb.entries) {n : Count} (hn : n.toNat = es.length) :
    Reading es (es.flatMap entryBits).length (respond statusOk (flagData (n == 0)) { s with r := freshReader n }) where
  inv := h.exec (exec_decInit_ok herr)
  active := rfl
  noErr := rfl
  stored := hes
  missing := (Nat.zero_add _).trans hn.symm
  count := Nat.add_comm _ _

/-- With nothing left to produce the decode is done, so it holds no bit. -/
theorem done_empty (h : Reading [] len s) : s.r.done = true ∧ s.r.cnt = 0 := by
  have hdone := (done_eq_true s.r).2 (BitVec.eq_of_toNat_eq h.missing)
  exact ⟨hdone, (h.inv.rDoneEmpty hdone (.inl h.noErr)).1⟩

/-- Bytes to come that are more than padding have a symbol in them. -/
theorem ne_nil (h : Reading es len s) (hbits : heldBits s.r ++ byteBits (b :: bytes) = es.flatMap entryBits ++ pad)
    (hpad : pad.length < 8) : es ≠ [] := by
  rintro rfl
  have hlen := congrArg List.length hbits
  simp [h.done_empty.2] at hlen
  omega

/-- The held bits and a byte that ends before the codes do are the first codes and the beginning of the next one, and no stored
code begins that. -/
theorem parse_inner (h : Reading es len s) (hbits : heldBits s.r ++ (bitsMsb 8 b ++ tail) = es.flatMap entryBits ++ pad)
    (hmore : s.r.cnt.toNat + 8 < (es.flatMap entryBits).length) :
    ∃ es₁ es₂ rest, es = es₁ ++ es₂ ∧ es₂ ≠ [] ∧ Parse s (bitsMsb 8 b) es₁ rest ∧ rest.length < 32 ∧
      (∀ e ∈ s.cb.entries, ¬ entryBits e <+: rest) ∧ rest ++ tail = es₂.flatMap entryBits ++ pad := by
  have hshort : (heldBits s.r ++ bitsMsb 8 b).length < (es.flatMap entryBits).length := by
    rwa [List.length_append, length_heldBits, length_bitsMsb]
  have hpre : heldBits s.r ++ bitsMsb 8 b <+: es.flatMap entryBits :=
    List.prefix_of_prefix_length_le ⟨tail, by rw [List.append_assoc, hbits]⟩ (List.prefix_append _ _) hshort.le
  obtain ⟨es₁, e, es₂, rest, rfl, hparse, hrest, hlen⟩ := exists_code_at_end hpre hshort
  obtain ⟨hes₁, hes₂⟩ := List.forall_mem_append.1 h.stored
  have he := hes₂ e List.mem_cons_self
  refine ⟨es₁, e :: es₂, rest, rfl, List.cons_ne_nil _ _, ⟨h.inv, h.active, h.noErr, h.notDone (by simp), hes₁, hparse⟩,
    ?_, h.inv.storeOk.not_prefix_of_beginning he hrest hlen, ?_⟩
  · have hbound := (h.inv.storeOk.bounds e he).2.1
    rw [length_entryBits] at hlen
    omega
  · rw [← List.append_assoc, hparse, List.flatMap_append, List.append_assoc, List.append_assoc] at hbits
    exact List.append_cancel_left hbits

/-- A byte before the last one: the codes it completes are emitted, the beginning of the next one is held. -/
theorem decByte_inner (h : Reading es len s) (hlen : len ≤ 2 ^ 64 - 1)
    (hbits : heldBits s.r ++ (bitsMsb 8 b ++ tail) = es.flatMap entryBits ++ pad)
    (hmore : s.r.cnt.toNat + 8 < (es.flatMap entryBits).length) :
    ∃ es₁ es₂ t, es = es₁ ++ es₂ ∧ exec (.decByte b) s = .next t ∧ t.faultLog = s.faultLog ∧
      t.history = s.history ++ ((es₁.map Entry.sym).map .outSym ++ [.resp 0]) ∧ Reading es₂ len t ∧
      heldBits t.r ++ tail = es₂.flatMap entryBits ++ pad := by
  have hcount := h.count
  have hfits : s.r.bits.toNat + 8 ≤ 2 ^ 64 - 1 := by omega
  obtain ⟨es₁, es₂, rest, rfl, hne, hp, h32, hrest, htail⟩ := h.parse_inner hbits hmore
  have hmissing := h.missing
  have hpos := List.length_pos_iff.2 hne
  have hplen := hp.length_eq
  rw [List.length_append] at hmissing
  rw [length_bitsMsb] at hplen
  rw [List.flatMap_append, List.length_append] at hcount
  have hx := hp.decByte_holds hfits (by omega) hrest h32
  have hheld : heldBits (afterParse s es₁ 8 rest).r = rest := heldBits_afterParse h32.le
  refine ⟨es₁, es₂, _, rfl, hx, rfl, ?_, ⟨h.inv.exec hx, h.active, h.noErr, ?_, ?_, ?_⟩, ?_⟩
  · rw [respond_history, afterParse, List.append_assoc, List.map_map]
    rfl
  · exact (List.forall_mem_append.1 h.stored).2
  · rw [respond_r, afterParse_emitted (by omega), Nat.add_assoc]
    exact hmissing
  · rw [respond_r, afterParse_bits hfits, ← length_heldBits, hheld]
    omega
  · rwa [respond_r, hheld]

/-- The last byte completes the decode, whatever its padding. -/
theorem decByte_last (h : Reading es len s) (hes : es ≠ []) (hlen : len ≤ 2 ^ 64 - 1)
    (hbits : heldBits s.r ++ bitsMsb 8 b = es.flatMap entryBits ++ pad) (hpad : pad.length < 8) :
    ∃ t, exec (.decByte b) s = .next t ∧ t.faultLog = s.faultLog ∧
      t.history = s.history ++ ((es.map Entry.sym).map .outSym ++ [.resp (0x00#8 ++ 1#64)]) ∧ Reading [] len t := by
  have hp : Parse s (bitsMsb 8 b) es pad := ⟨h.inv, h.active, h.noErr, h.notDone hes, h.stored, hbits⟩
  have hplen := hp.length_eq
  have hcount := h.count
  rw [length_bitsMsb] at hplen
  have hfits : s.r.bits.toNat + ((es.flatMap entryBits).length - s.r.cnt.toNat) ≤ 2 ^ 64 - 1 := by omega
  have hx := hp.decByte_completes hfits h.missing
  refine ⟨_, hx, rfl, ?_, ⟨h.inv.exec hx, h.active, h.noErr, by simp, ?_, ?_⟩⟩
  · rw [respond_history, afterParse, List.append_assoc, List.map_map]
    rfl
  · rw [respond_r, afterParse_emitted h.missing.le]
    exact h.missing
  · have hcnt : (afterParse s es ((es.flatMap entryBits).length - s.r.cnt.toNat) []).r.cnt.toNat = 0 := rfl
    rw [respond_r, afterParse_bits hfits, hcnt, List.flatMap_nil, List.length_nil]
    omega

/-- `DEC.END` ends a decode that has produced its message and answers the number of its bits. -/
theorem decEnd (h : Reading [] len s) :
    ∃ t, exec .decEnd s = .next t ∧ t.faultLog = s.faultLog ∧
      t.history = s.history ++ [.resp (0x00#8 ++ BitVec.ofNat 64 len)] ∧ t.r.active = false := by
  obtain ⟨hdone, hcnt⟩ := h.done_empty
  have hcount := h.count
  rw [hcnt] at hcount
  exact ⟨_, exec_decEnd_done h.noErr h.active hdone (count_ext hcount), rfl, rfl, rfl⟩

/-- The end of a decode as a run. -/
theorem run_end (h : Reading [] len s) :
    ∃ t, DecodeRun [.decEnd] [] [0x00#8 ++ BitVec.ofNat 64 len] s t ∧ t.r.active = false := by
  obtain ⟨t, hx, hlog, hh, hact⟩ := (h.record (.cmd (encode .decEnd))).decEnd
  exact ⟨t, .cons (syms := []) (.inr (.inr rfl)) hx hlog hh (.nil t), hact⟩

/-- The rest of a decode: the bytes to come carry the codes to come, and fewer than eight bits of padding. -/
theorem run (h : Reading es len s) (hlen : len ≤ 2 ^ 64 - 1)
    (hbits : heldBits s.r ++ byteBits bytes = es.flatMap entryBits ++ pad) (hpad : pad.length < 8) :
    ∃ t, DecodeRun (bytes.map .decByte ++ [.decEnd]) (es.map Entry.sym)
      (byteAnswers bytes.length ++ [0x00#8 ++ BitVec.ofNat 64 len]) s t ∧ t.r.active = false := by
  induction bytes generalizing s es with
  | nil =>
    cases es with
    | nil => exact h.run_end
    | cons e es =>
      refine absurd ⟨es.flatMap entryBits ++ pad, ?_⟩ (h.inv.rHeldUnmatched h.active e (h.stored e List.mem_cons_self))
      rw [← List.append_assoc, ← List.flatMap_cons, ← hbits]
      exact List.append_nil _
  | cons b bytes ih =>
    have hes := h.ne_nil hbits hpad
    have hrec := h.record (.cmd (encode (.decByte b)))
    rw [byteBits_cons] at hbits
    cases bytes with
    | nil =>
      obtain ⟨u, hx, hlog, hh, hu⟩ := hrec.decByte_last hes hlen (by simpa [byteBits] using hbits) hpad
      obtain ⟨t, hrun, hact⟩ := hu.run_end
      have hlast := hrun.cons (.inr (.inl ⟨b, rfl⟩)) hx hlog hh
      rw [List.append_nil] at hlast
      exact ⟨t, hlast, hact⟩
    | cons b' bytes =>
      have hsum := congrArg List.length hbits
      simp only [List.length_append, length_heldBits, length_bitsMsb, length_byteBits, List.length_cons] at hsum
      obtain ⟨es₁, es₂, u, rfl, hx, hlog, hh, hu, hubits⟩ := hrec.decByte_inner hlen hbits (by rw [record_r]; omega)
      obtain ⟨t, hrun, hact⟩ := ih hu hubits
      refine ⟨t, ?_, hact⟩
      rw [List.map_append, List.length_cons, List.length_cons, byteAnswers_succ]
      exact hrun.cons (.inr (.inl ⟨b, rfl⟩)) hx hlog hh

end Reading

/-- `DEC.INIT` reports done exactly for the empty message. -/
theorem flagData_length {m : List Byte} (hm : m.length < 2 ^ 64) :
    flagData (BitVec.ofNat 64 m.length == 0) = if m = [] then 1#64 else 0#64 := by
  rw [flagData_eq]
  refine if_congr ?_ rfl rfl
  rw [beq_iff_eq, ← BitVec.toNat_inj, BitVec.toNat_ofNat, Nat.mod_eq_of_lt hm]
  exact List.length_eq_zero_iff

/-- Settles O32: the bitstream carries the message, and each byte leaves a decode that still has to produce the rest of it. -/
theorem decodeRecoversMessage : Obligations.DecodeRecoversMessage := by
  intro s m bytes h herr hm bits carries hle
  refine ⟨⟨length_bitstream bits, ?_⟩, fun ⟨hbytes, htake⟩ => ?_⟩
  · obtain ⟨pad, hpad⟩ := byteBits_bitstream bits
    rw [hpad, List.take_left]
  obtain ⟨es, hes, hsyms, hcodes⟩ := exists_codes_of_message hm
  have hbits : bits = es.flatMap entryBits := hcodes
  have hlen : es.length = m.length := by rw [← hsyms, List.length_map]
  have hmax : m.length < 2 ^ 64 := by
    have hcount := h.storeOk.length_le_length_bits hes
    rw [← hbits] at hcount
    omega
  have hn : (BitVec.ofNat 64 m.length).toNat = es.length := by rw [BitVec.toNat_ofNat, Nat.mod_eq_of_lt hmax, hlen]
  have hsplit : byteBits bytes = es.flatMap entryBits ++ (byteBits bytes).drop bits.length := by
    rw [← hbits]
    exact (List.take_append_drop bits.length _).symm.trans (congrArg (· ++ _) htake)
  have hpad : ((byteBits bytes).drop bits.length).length < 8 := by
    rw [List.length_drop, length_byteBits]
    omega
  have hinv : (record (.cmd (encode (.decInit (BitVec.ofNat 64 m.length)))) s).Inv := h.of_registers rfl rfl rfl rfl
  have hread := Reading.init hinv herr hes hn
  rw [← hbits] at hread
  obtain ⟨t, hrun, hact⟩ := hread.run hle hsplit hpad
  have hall := DecodeRun.cons (i := .decInit (BitVec.ofNat 64 m.length)) (syms := []) (.inl ⟨_, rfl⟩) (exec_decInit_ok herr)
    rfl rfl hrun
  refine ⟨t, hall.run, by rw [hall.symOut, hsyms, List.nil_append], ?_, hact, hall.cb, hall.w, hall.byteOut, hall.faultLog,
    hall.hostIn⟩
  rw [hall.responses, flagData_length hmax, List.append_assoc, List.append_assoc]
  rfl

/-- Settles O33: the encode emits the bitstream of the message (O24), which decodes to the message (O32). -/
theorem encodeThenDecodeIsIdentity : Obligations.EncodeThenDecodeIsIdentity := by
  intro s m h herr hm hle
  obtain ⟨-, t, -, -, hencode, hbyte, -, -, hcb, -, -, hlog, -⟩ := encodeProducesBitstream s m h herr hm hle
  have hinv : t.Inv := h.runCommands (wellFormed_encodeCommands m) hencode
  rw [← hcb] at herr hm hle hbyte
  obtain ⟨hcarries, hdecode⟩ := decodeRecoversMessage t m (bitstream (messageBits t.cb m)) hinv herr hm hle
  obtain ⟨u, hrun, hsym, -, -, -, -, -, hlog', -⟩ := hdecode hcarries
  exact ⟨t, u, _, hencode, hbyte, hrun, hsym, hlog'.trans hlog⟩

end Sys2Proof.Machine
end

section
/-! SUPPORT. The layouts of the status registers, and what `STAT.GET` answers (10_state.md rule R27, 43_system_commands.md rule
R151). -/

namespace Sys2Proof

theorem decode_statGet_noSuchRegister {reg : BitVec 4} (hreg : 10 ≤ reg.toNat) :
    decode (encode (.statGet reg)) = .error (.noSuchRegister reg) := by
  have hlow := extract_append_low 0#60 reg
  have hnot : ¬ reg.toNat ≤ 9 := by omega
  simp only [decode, encode, opField_commandWord, argField_commandWord, hlow, hnot, if_false]

/-- A field above the low part of a packed pair is a field of the high part. -/
theorem extract_append_above {a b k n : Nat} (x : BitVec a) (y : BitVec b) :
    (x ++ y).extractLsb' (k + b) n = x.extractLsb' k n := by
  rw [BitVec.extractLsb'_append_eq_of_le (Nat.le_add_left b k), Nat.add_sub_cancel]

/-- The fields of three packed parts, from the low end up. -/
theorem extract_append_three {a b c : Nat} (x : BitVec a) (y : BitVec b) (z : BitVec c) :
    (x ++ y ++ z).extractLsb' 0 c = z ∧ (x ++ y ++ z).extractLsb' c b = y ∧ (x ++ y ++ z).extractLsb' (b + c) a = x := by
  refine ⟨extract_append_low _ z, ?_, ?_⟩
  · have hmiddle := extract_append_above (k := 0) (n := b) (x ++ y) z
    rwa [Nat.zero_add, extract_append_low] at hmiddle
  · rw [extract_append_above, extract_append_high]

namespace Machine

variable {s : State} {reg : BitVec 4} {v : Count}

theorem exec_statGet (hreg : reg.toNat ≤ 9) (hv : statusRegister s reg = v) :
    exec (.statGet reg) s = .next (respond statusOk v s) := by
  rw [exec, execStatGet, if_pos hreg, hv]

/-- The four flags of `STATUS` are its low bits, packed one above the other. -/
theorem statusWord_eq_concat (s : State) : statusWord s =
    (((((0#32 ++ s.r.err ++ s.w.err ++ s.cb.err ++ 0#4).concat s.cbLocked).concat s.r.done).concat s.r.active).concat
      s.w.active : BitVec 64) := rfl

theorem statusWord_flags (s : State) :
    (statusWord s).getLsbD 0 = s.w.active ∧ (statusWord s).getLsbD 1 = s.r.active ∧
      (statusWord s).getLsbD 2 = s.r.done ∧ (statusWord s).getLsbD 3 = s.cbLocked := by
  rw [statusWord_eq_concat]
  simp only [BitVec.getLsbD_concat_succ, BitVec.getLsbD_concat_zero, and_self]

/-- The fields of `STATUS` above its flags, counted from bit 4. -/
theorem statusWord_extract_above_flags (s : State) (k n : Nat) :
    (statusWord s).extractLsb' (k + 4) n = (0#32 ++ s.r.err ++ s.w.err ++ s.cb.err ++ 0#4).extractLsb' k n := by
  iterate 3 refine (extract_append_above (k := _ + _) _ _).trans ?_
  exact extract_append_above _ _

theorem statusWord_latches (s : State) :
    (statusWord s).extractLsb' 4 4 = 0 ∧ (statusWord s).extractLsb' 8 8 = s.cb.err ∧
      (statusWord s).extractLsb' 16 8 = s.w.err ∧ (statusWord s).extractLsb' 24 8 = s.r.err ∧
      (statusWord s).extractLsb' 32 32 = 0 := by
  obtain ⟨hlow, hcb, -⟩ := extract_append_three (0#32 ++ s.r.err ++ s.w.err) s.cb.err 0#4
  obtain ⟨-, hw, -⟩ := extract_append_three (0#32 ++ s.r.err) s.w.err s.cb.err
  obtain ⟨-, hr, hhigh⟩ := extract_append_three 0#32 s.r.err s.w.err
  refine ⟨?_, ?_, ?_, ?_, ?_⟩
  · exact (statusWord_extract_above_flags s 0 4).trans hlow
  · exact (statusWord_extract_above_flags s 4 8).trans hcb
  · exact (statusWord_extract_above_flags s 12 8).trans ((extract_append_above _ _).trans hw)
  · exact (statusWord_extract_above_flags s 20 8).trans
      ((extract_append_above _ _).trans ((extract_append_above _ _).trans hr))
  · exact (statusWord_extract_above_flags s 28 32).trans
      ((extract_append_above _ _).trans ((extract_append_above _ _).trans hhigh))

/-- Nine bits hold a `CB_N` of at most 256. -/
theorem toNat_statusRegister_cbN (hn : s.cb.entries.length ≤ 256) :
    (statusRegister s 3).toNat = s.cb.entries.length := by
  have hfits : s.cbN < 2 ^ 9 := Nat.lt_of_le_of_lt hn (by decide)
  calc (0#55 ++ BitVec.ofNat 9 s.cbN).toNat
      = (BitVec.ofNat 9 s.cbN).toNat := by
        simp only [BitVec.toNat_append, BitVec.toNat_zero, Nat.zero_shiftLeft, Nat.zero_or]
    _ = s.cbN := Nat.mod_eq_of_lt hfits

/-- Settles O35, register by register: the answer is the register, whose fields are the parts it is packed from. -/
theorem statGetReadsTheRegister : Obligations.StatGetReadsTheRegister := by
  refine ⟨fun reg => ⟨fun hreg => decode_encode (i := .statGet reg) ((wellFormed_statGet reg).2 hreg),
    decode_statGet_noSuchRegister⟩, fun s => ?_⟩
  obtain ⟨hw, hr, hdone, hlocked⟩ := statusWord_flags s
  exact ⟨exec_statGet (by decide) rfl,
    ⟨_, exec_statGet (by decide) rfl, hw, hr, hdone, hlocked, statusWord_latches s⟩,
    ⟨_, exec_statGet (by decide) rfl, extract_append_low _ _, extract_append_high _ _⟩,
    ⟨_, exec_statGet (by decide) rfl, toNat_statusRegister_cbN, extract_append_high _ _⟩,
    exec_statGet (by decide) rfl,
    ⟨_, exec_statGet (by decide) rfl, extract_append_three 0#53 s.w.cnt s.w.acc⟩,
    exec_statGet (by decide) rfl, exec_statGet (by decide) rfl, exec_statGet (by decide) rfl,
    ⟨_, exec_statGet (by decide) rfl, extract_append_three 0#26 s.r.cnt s.r.acc⟩⟩

end Machine
end Sys2Proof
end

section
/-! SUPPORT. The error latches: how a raise sets one, which commands return it, and which clear it (60_exceptions.md rules R193, R194, R197). -/

namespace Sys2Proof.Machine

variable {i : Instr} {s t : State}

/-- A command that a latch refuses changes no unit. -/
theorem units_of_latched (hx : exec i s = .next t) (hne : refusingLatch s i ≠ 0) :
    t.cb = s.cb ∧ t.w = s.w ∧ t.r = s.r := by
  cases (exec_of_latched hne).symm.trans hx
  exact ⟨rfl, rfl, rfl⟩

/-- A failed build lasts until a `CB.CLEAR` that empties the store. -/
theorem cbErr_kept_or_cleared (hx : exec i s = .next t) (hi : i ≠ .sreset) (hne : s.cb.err ≠ 0) :
    t.cb.err = s.cb.err ∨ (i = .cbClear ∧ t.cb.err = 0 ∧ t.cb.entries = []) := by
  cases i with
  | cbClear =>
    obtain ⟨-, rfl⟩ | ⟨-, rfl⟩ := cbClear_cases hx
    · exact .inl rfl
    · exact .inr ⟨rfl, rfl, rfl⟩
  | cbLoad => exact .inl (congrArg Codebook.err (units_of_latched hx hne).1)
  | encInit | encSym | encFlush => exact .inl (congrArg Codebook.err (writer_frame (by simp) hx).1)
  | decInit | decByte | decEnd => exact .inl (congrArg Codebook.err (reader_frame (by simp) hx).1)
  | statGet => exact .inl (congrArg Codebook.err (statGet_frame hx).1)
  | sreset => exact absurd rfl hi

/-- A failed encode lasts until an `ENC.INIT` that starts a fresh one. -/
theorem failed_writer_kept_or_fresh (hx : exec i s = .next t) (hi : i ≠ .sreset) (hne : s.w.err ≠ 0) :
    t.w = s.w ∨ (i = .encInit ∧ t.w.err = 0 ∧ t.w.active = true) := by
  cases i with
  | encInit =>
    obtain ⟨-, rfl⟩ | ⟨-, rfl⟩ := encInit_cases hx
    · exact .inl rfl
    · exact .inr ⟨rfl, rfl, rfl⟩
  | encSym | encFlush => exact .inl (units_of_latched hx hne).2.1
  | cbClear | cbLoad | decInit | decByte | decEnd | statGet =>
    exact .inl (writer_untouched hx (by simp) (by simp) (by simp) hi).1
  | sreset => exact absurd rfl hi

/-- A failed decode lasts until a `DEC.INIT` that starts a fresh one. -/
theorem failed_reader_kept_or_fresh (hx : exec i s = .next t) (hi : i ≠ .sreset) (hne : s.r.err ≠ 0) :
    t.r = s.r ∨ ((∃ n, i = .decInit n) ∧ t.r.err = 0 ∧ t.r.active = true) := by
  cases i with
  | decInit n =>
    obtain ⟨-, rfl⟩ | ⟨-, rfl⟩ := decInit_cases hx
    · exact .inl rfl
    · exact .inr ⟨⟨n, rfl⟩, rfl, rfl⟩
  | decByte | decEnd => exact .inl (units_of_latched hx hne).2.2
  | cbClear | cbLoad => exact .inl (codebook_frame (by simp) hx).2.1
  | encInit | encSym | encFlush => exact .inl (writer_frame (by simp) hx).2.1
  | statGet => exact .inl (statGet_frame hx).2.2.1
  | sreset => exact absurd rfl hi

/-- Settles O38, latch by latch. -/
theorem latchClearedOnlyByInit : Obligations.LatchClearedOnlyByInit := fun _ _ _ hx hi =>
  ⟨cbErr_kept_or_cleared hx hi, failed_writer_kept_or_fresh hx hi, failed_reader_kept_or_fresh hx hi⟩

/-- A raise is its latch, its log bit and its response. -/
theorem raiseErr_eq (e : Err) (s : State) :
    raiseErr e s = { latchErr e s with
      faultLog := s.faultLog ||| (1#16 <<< e.code.toNat), history := s.history ++ [.resp (e.code ++ 0#64)] } :=
  State.ext_parts (raiseErr_cb e s) (raiseErr_w e s) (raiseErr_r e s) (raiseErr_faultLog e s) (raiseErr_history e s)
    ((raiseErr_hostIn e s).trans (latchErr_hostIn e s).symm)

/-- Settles O36: each error's number, log bit and latch in the equation of a raise. -/
theorem raiseLogsLatchesAndResponds : Obligations.RaiseLogsLatchesAndResponds := fun s =>
  ⟨raiseErr_eq .illegalCmd s, raiseErr_eq .codeTooLong s, raiseErr_eq .zeroLength s, raiseErr_eq .badCodeValue s,
    raiseErr_eq .dupSymbol s, raiseErr_eq .notPrefixFree s, raiseErr_eq .cbLocked s, raiseErr_eq .cbInvalid s,
    raiseErr_eq .notActive s, raiseErr_eq .noSymbol s, raiseErr_eq .noMatch s, raiseErr_eq .truncated s,
    raiseErr_eq .overrun s, raiseErr_eq (.countOverflow .writer) s, raiseErr_eq (.countOverflow .reader) s⟩

/-- Settles O37: the latch refuses the command, and the invariant has its code in the log. -/
theorem latchedErrorIsReturned : Obligations.LatchedErrorIsReturned := by
  intro i s h returned
  refine ⟨?_, ?_, ?_⟩
  · rintro ⟨sym, len, code, rfl⟩ hne
    exact ⟨exec_of_latched (i := .cbLoad sym len code) hne, h.cbErr_logged hne⟩
  · rintro (⟨x, rfl⟩ | rfl) hne
    · exact ⟨exec_of_latched (i := .encSym x) hne, h.wErr_logged hne⟩
    · exact ⟨exec_of_latched (i := .encFlush) hne, h.wErr_logged hne⟩
  · rintro (⟨b, rfl⟩ | rfl) hne
    · exact ⟨exec_of_latched (i := .decByte b) hne, h.rErr_logged hne⟩
    · exact ⟨exec_of_latched (i := .decEnd) hne, h.rErr_logged hne⟩

end Sys2Proof.Machine
end
